-- ==== Sys2Proof/Word.lean ====
section
/-! DEFINITION. The value types of 00_scope.md R17: byte, word, lane, byte sequences, Block. -/

namespace Sys2Proof

/-- An unsigned 8-bit value (R17). -/
abbrev Byte := BitVec 8

/-- An unsigned 32-bit value (R17). -/
abbrev Word := BitVec 32

/-- An unsigned 64-bit value (R17). -/
abbrev Lane := BitVec 64

/-- `Bytes(n)`: a sequence of exactly n bytes, indexed from 0 (R17). -/
abbrev Bytes (n : Nat) := Vector Byte n

/-- A Block: exactly 16 bytes (R17, R23). -/
abbrev Block := Bytes 16

end Sys2Proof
end

