-- ==== Sys2Proof/Syntax.lean ====
section
/-! DEFINITION. The commands (30_encoding.md R104 to R106): the fields of a command word, the key sizes,
and one constructor of `Instr` for each row of spec/opcode_table.json. -/

namespace Sys2Proof

/-- The three fields of a command word (R104). -/
structure CommandFields where
  opc : BitVec 8
  ksz : BitVec 2
  rsv : BitVec 22
  deriving DecidableEq, Repr

/-- The KSZ field of SETKEY_ENC and SETKEY_DEC (R105). `unsupported` is 0b11. -/
inductive KeySize where
  | bits128
  | bits192
  | bits256
  | unsupported
  deriving DecidableEq, Repr

/-- The eight commands (R106), one constructor per row of the opcode table. -/
inductive Instr where
  | nop
  | setkeyEnc (ksz : KeySize)
  | setkeyDec (ksz : KeySize)
  | encrypt
  | decrypt
  | aesRound
  | hashCore
  | hash
  deriving DecidableEq, Repr

end Sys2Proof
end

