-- ==== Sys2Proof/WellFormed.lean ====
section
/-! DEFINITION. Which command words are legal: the three checks of 30_encoding.md R110, each by name. -/

namespace Sys2Proof

/-- R110, second case: RSV must be 0. -/
def CommandFields.reservedClear (f : CommandFields) : Bool := f.rsv == 0

/-- R110, first case: OPC 0x08 to 0xFF is reserved. -/
def CommandFields.opcodeKnown (f : CommandFields) : Bool := f.opc.toNat ≤ 0x07

/-- R110, third case: KSZ must be 0 unless OPC is SETKEY_ENC (0x01) or SETKEY_DEC (0x02). -/
def CommandFields.keySizeAllowed (f : CommandFields) : Bool :=
  f.ksz == 0 || f.opc == 0x01 || f.opc == 0x02

/-- A command word is legal when it passes the three checks of R110. -/
def CommandFields.wellFormed (f : CommandFields) : Bool :=
  f.reservedClear && f.opcodeKnown && f.keySizeAllowed

/-- The KSZ code of a key size (R105). -/
def KeySize.code : KeySize → BitVec 2
  | .bits128 => 0b00
  | .bits192 => 0b01
  | .bits256 => 0b10
  | .unsupported => 0b11

/-- The fields that stand for an instruction (R105, R106). -/
def Instr.fields : Instr → CommandFields
  | .nop => ⟨0x00, 0, 0⟩
  | .setkeyEnc ksz => ⟨0x01, ksz.code, 0⟩
  | .setkeyDec ksz => ⟨0x02, ksz.code, 0⟩
  | .encrypt => ⟨0x03, 0, 0⟩
  | .decrypt => ⟨0x04, 0, 0⟩
  | .aesRound => ⟨0x05, 0, 0⟩
  | .hashCore => ⟨0x06, 0, 0⟩
  | .hash => ⟨0x07, 0, 0⟩

/-- An instruction is well formed when its fields are a legal command word. Every `Instr` is
(Sys2Proof/Laws/PerInstr.lean): the type has no constructor for an illegal word. -/
def Instr.wellFormed (i : Instr) : Bool := i.fields.wellFormed

end Sys2Proof
end

