-- ==== Sys2Proof/Decode.lean ====
section
/-! DEFINITION. Decoding and encoding of the 32-bit command word (30_encoding.md R104 to R106, R110, R113).
Decoding is total and rejects by name; what the machine does with a rejected word (ERR = 3) is in
Machine/Ops.lean. -/

namespace Sys2Proof

/-- Why a word is Illegal (R110). -/
inductive DecodeError where
  /-- RSV, bits 31:10, is not 0. -/
  | reservedBits
  /-- OPC is 0x08 to 0xFF. -/
  | reservedOpcode
  /-- KSZ is not 0 on an opcode other than SETKEY_ENC and SETKEY_DEC. -/
  | keySizeNotAllowed
  deriving DecidableEq, Repr

/-- The fields of a command word (R104). -/
def splitWord (w : Word) : CommandFields :=
  ⟨w.extractLsb' 0 8, w.extractLsb' 8 2, w.extractLsb' 10 22⟩

/-- The word with these fields (R104). -/
def joinWord (f : CommandFields) : Word := f.rsv ++ f.ksz ++ f.opc

/-- The key size a KSZ field stands for (R105). -/
def decodeKeySize (k : BitVec 2) : KeySize :=
  if k = 0b00 then .bits128
  else if k = 0b01 then .bits192
  else if k = 0b10 then .bits256
  else .unsupported

/-- `Decode(v)` of R110, its checks in the rule's order, then the opcode map of R106. -/
def decode (w : Word) : Except DecodeError Instr :=
  let f := splitWord w
  if !f.reservedClear then .error .reservedBits
  else if !f.opcodeKnown then .error .reservedOpcode
  else if !f.keySizeAllowed then .error .keySizeNotAllowed
  else if f.opc = 0x00 then .ok .nop
  else if f.opc = 0x01 then .ok (.setkeyEnc (decodeKeySize f.ksz))
  else if f.opc = 0x02 then .ok (.setkeyDec (decodeKeySize f.ksz))
  else if f.opc = 0x03 then .ok .encrypt
  else if f.opc = 0x04 then .ok .decrypt
  else if f.opc = 0x05 then .ok .aesRound
  else if f.opc = 0x06 then .ok .hashCore
  else .ok .hash

/-- The command word of an instruction (R113). -/
def encode (i : Instr) : Word := joinWord i.fields

/-- The word whose bits are `w`, as the opcode table numbers them: one 32-bit word, bits at and above
`nbits` zero. -/
def tableWord (nbits w : Nat) : Word := BitVec.ofNat 32 (w % 2 ^ nbits)

/-- What the decoder reads from the instruction whose bits are `w` (the host's question about the opcode
table); `none` where it rejects. A command is one 32-bit bus write, so there is no byte order to undo. -/
def decodeTableWord (nbits w : Nat) : Option Instr :=
  match decode (tableWord nbits w) with
  | .ok i => some i
  | .error _ => none

end Sys2Proof
end

