-- ==== Sys2Proof/Machine/Bytes.lean ====
section
/-! DEFINITION. Conversions between bytes, words and lanes (00_scope.md R18, R19) and byte-wise operations on
byte sequences. Byte order is decided here and nowhere else. -/

namespace Sys2Proof.Machine

/-- The word with these bytes, the first most significant (R18). -/
def wordOfBytes (b0 b1 b2 b3 : Byte) : Word := b0 ++ b1 ++ b2 ++ b3

/-- Byte 3 of a word, its most significant (R144). -/
def byte3 (w : Word) : Byte := w.extractLsb' 24 8

/-- Byte 2 of a word (R144). -/
def byte2 (w : Word) : Byte := w.extractLsb' 16 8

/-- Byte 1 of a word (R144). -/
def byte1 (w : Word) : Byte := w.extractLsb' 8 8

/-- Byte 0 of a word, its least significant (R144). -/
def byte0 (w : Word) : Byte := w.extractLsb' 0 8

/-- The sub-sequence `v[off .. off + len)`. -/
def slice {n : Nat} (v : Bytes n) (off len : Nat) (h : off + len ≤ n) : Bytes len :=
  Vector.ofFn fun i => v[off + i.val]

/-- `v` with the bytes `[off, off + len)` replaced by `x`. -/
def splice {n len : Nat} (v : Bytes n) (off : Nat) (x : Bytes len) : Bytes n :=
  Vector.ofFn fun i =>
    if h : off ≤ i.val ∧ i.val < off + len then x[i.val - off] else v[i]

/-- Byte-wise exclusive OR. -/
def xorBytes {n : Nat} (x y : Bytes n) : Bytes n := Vector.ofFn fun i => x[i] ^^^ y[i]

/-- `GETU32(B, 4c)` for column `c` of a Block: big-endian (R19). -/
def getColumn (b : Block) (c : Fin 4) : Word :=
  wordOfBytes b[4 * c.val] b[4 * c.val + 1] b[4 * c.val + 2] b[4 * c.val + 3]

/-- Byte `r` of a word, counted from the most significant: `PUTU32(w)[r]` (R19). -/
def putByte (w : Word) (r : Nat) : Byte := w.extractLsb' (24 - 8 * r) 8

/-- The Block `PUTU32(w0) ++ PUTU32(w1) ++ PUTU32(w2) ++ PUTU32(w3)` (R19). -/
def blockOfWords (w0 w1 w2 w3 : Word) : Block :=
  Vector.ofFn fun i =>
    putByte (if i.val < 4 then w0 else if i.val < 8 then w1 else if i.val < 12 then w2 else w3) (i.val % 4)

/-- `LANE(B, i)`: the little-endian lane at byte `8 i` (R19). -/
def lane {n : Nat} (v : Bytes n) (i : Nat) (h : 8 * i + 8 ≤ n) : Lane :=
  v[8 * i + 7] ++ v[8 * i + 6] ++ v[8 * i + 5] ++ v[8 * i + 4] ++
    v[8 * i + 3] ++ v[8 * i + 2] ++ v[8 * i + 1] ++ v[8 * i]

/-- `MKBLOCK(l0, l1)`: two little-endian lanes (R19). -/
def mkBlock (l0 l1 : Lane) : Block :=
  Vector.ofFn fun i => (if i.val < 8 then l0 else l1).extractLsb' (8 * (i.val % 8)) 8

end Sys2Proof.Machine
end

