-- ==== Sys2Proof/Config.lean ====
section
/-! DEFINITION. What an implementation fixes (00_scope.md R12) and the free values. The external functions
are functions and so cannot stand in State: they are opaque constants here. The other parameters are
plain data, `Platform`, which State carries (log 11). -/

namespace Sys2Proof

/-- P_UNROLL (R12): which build of the table-driven cipher. No result depends on it (R14, R156). -/
inductive Build where
  | full
  | paired
  deriving DecidableEq, Repr, Inhabited

/-- The parameters of R12 that are data, and the base address P_BASE of R101. No step changes them. -/
structure Platform where
  /-- P_BASE divided by 0x400, so that P_BASE is a multiple of 0x400 (R101). -/
  basePage : BitVec 54
  /-- P_HW_ROUND; read back as CAP.HWR (R35). -/
  hwRound : Bool
  /-- P_TCACHE; read back as CAP.TCACHE (R35). -/
  tcache : Bool
  /-- P_GROUP_LANES minus 1, so that there is at least one lane (R12). -/
  lanesBeyondFirst : Nat
  /-- P_UNROLL. -/
  unroll : Build
  /-- The windows (address, length) the platform's memory accepts: MemAdmits as a finite list (log 11).
  The checks R81 demands of every MemAdmits are made by `Machine.memAdmits`. -/
  admitted : List (BitVec 64 × Nat)
  /-- The 32-byte keys KeyImportAccepts refuses (log 11); the spec's default is none (D19). -/
  refusedKeys : List (Bytes 32)
  deriving DecidableEq, Repr, Inhabited

/-- P_GROUP_LANES. -/
def Platform.groupLanes (p : Platform) : Nat := p.lanesBeyondFirst + 1

/-- The platform the machine is built for: any one of them (log 11). -/
opaque Config.platform : Platform

/-- `Absorb`, the external sponge absorber: bytes of any length to 200 bytes (R12, R15; log 12). -/
opaque Config.absorb : List Byte → Bytes 200

/-- `Permute`, the external sponge permutation (R12, R15; log 12). -/
opaque Config.permute : Bytes 200 → Bytes 200

/-- `Finish[0..3]`, the external finishing hashes, by selector, on the state's bytes and their length
(R12, R15; log 12). -/
opaque Config.finisher : BitVec 2 → Bytes 200 → Nat → Bytes 32

/-- The free values ("any value", 93_implementation_defined.md): the value of width `w` in slot `slot` of
draw number `seq`. Nothing constrains it (log 6). -/
opaque Config.free : (w : Nat) → (seq slot : Nat) → BitVec w

end Sys2Proof
end

