-- ==== Sys2Proof/Machine/State.lean ====
section
/-! DEFINITION. The machine's state (10_state.md), its outcomes' reasons, and its value right after reset. -/

namespace Sys2Proof.Machine

/-- Why the machine stops (R276, R277): the hardware's behaviour is undefined from there on. Every fault is
safe: no claim about the hardware after it can be proved. -/
inductive Fault where
  /-- A host access to the register window that is not an aligned 32-bit access (R72). Raised by `State.busRead` and `State.busWrite`. Safe. -/
  | busAccess
  /-- A window that MemAdmits refuses, at its first access (R82, R212). Raised by the hash engine's stages 1 and 3. Safe. -/
  | memNotAdmitted
  /-- A bus access to the scratch window of a hash command in phase RUN (R87). Raised by `State.accessFault`. Safe. -/
  | scratchRace
  /-- A bus write to the data window of a HASH in phase RUN (R87). Raised by `State.accessFault`. Safe. -/
  | dataRace
  /-- A table read from TC while TC_VALID = 0 (R92). Raised by the commands that read tables and by a lane's
  lookup during population. Safe. -/
  | tcacheHazard
  /-- A bus access that passes 2^64 - 1, where no address exists (R13). The model's own (log 16). Raised by
  `State.accessFault`. Safe. -/
  | outsideMemory
  deriving DecidableEq, Repr

/-- Why a step has no meaning. -/
inductive Refusal where
  /-- An instruction that has no meaning yet, by its mnemonic. Raised by no arm of `exec`. Safe. -/
  | notModelled (mnemonic : String)
  deriving DecidableEq, Repr

/-- The fields of STATUS (R37). -/
structure Status where
  busy : Bool
  done : Bool
  ovr : Bool
  err : BitVec 4
  ekValid : Bool
  dkValid : Bool
  deriving DecidableEq, Repr

/-- PHASE (R60). A command held during population keeps TCFILL with BUSY = 1 (R93, log 14). -/
inductive Phase where
  | idle
  | run
  | tcfill
  deriving DecidableEq, Repr

/-- Where the running command's rule stands. `check` is the start of every command's rule; the others are the
stages of a hash command (R210), with stage 6 cut at its key import, its sweep and its write-back (R225).
`Stage.number` gives R60's stage number. -/
inductive Stage where
  | check
  | absorb
  | seed
  | fill
  | derive
  | mix
  | rekey
  | fold
  | writeBack
  | finalize
  deriving DecidableEq, Repr

/-- The sequencer's stage and loop counters (R60): `i` the fill and fold iteration, `k` the text block, `n` the
mixing iteration. R60 gives them to the RUN phase of a hash command only (elsewhere: log 29). -/
structure Sequencer where
  stage : Stage
  i : Nat
  k : Fin 8
  n : Nat
  deriving DecidableEq, Repr

/-- The start of a command's rule, where the sequencer also stands while no command runs (log 5 at reset, log 29). -/
def Sequencer.start : Sequencer := ⟨.check, 0, 0, 0⟩

/-- The LookupTableSet (R46): eight 256-entry word tables, the inverse substitution table, ten round
constants. The shape of the ROM and of the table cache TC (R61). -/
structure LookupTables where
  te0 : Vector Word 256
  te1 : Vector Word 256
  te2 : Vector Word 256
  te3 : Vector Word 256
  td0 : Vector Word 256
  td1 : Vector Word 256
  td2 : Vector Word 256
  td3 : Vector Word 256
  td4 : Vector Byte 256
  rcon : Vector Word 10
  deriving DecidableEq, Repr

/-- The named value of TC's contents at reset (R61 gives none; log 5). -/
def LookupTables.zero : LookupTables :=
  let w := Vector.replicate 256 0
  ⟨w, w, w, w, w, w, w, w, Vector.replicate 256 0, Vector.replicate 10 0⟩

/-- The tables of the LookupTableSet by name. -/
inductive TableId where
  | te0
  | te1
  | te2
  | te3
  | td0
  | td1
  | td2
  | td3
  | td4
  | rcon
  deriving DecidableEq, Repr

/-- What a table-cache lane does in one step (R90, R92). -/
inductive LaneAction where
  /-- Copy ROM entry `e` of table `t` into TC. -/
  | copy (t : TableId) (e : Nat)
  /-- Arrive at the barrier. -/
  | arrive
  /-- Read slot `e` of table `t` of TC during population: the hazard of R92. The value goes nowhere (log 18). -/
  | lookup (t : TableId) (e : Nat)
  deriving DecidableEq, Repr

/-- What the world around the block, or one agent inside it, does in one step (log 3). -/
inductive Event where
  /-- A bus agent reads `width` bytes at `addr`. -/
  | hostRead (addr : BitVec 64) (width : Nat)
  /-- A bus agent writes `data` at `addr`, first byte lowest. -/
  | hostWrite (addr : BitVec 64) (data : List Byte)
  /-- The sequencer takes one micro-step of the running command (log 1). -/
  | sequencer
  /-- Table-cache lane `l` takes a step. -/
  | lane (l : Nat) (action : LaneAction)
  /-- The group barrier takes its release step, if it is enabled (R91). -/
  | barrier
  /-- The platform asserts reset (R300). -/
  | reset
  deriving DecidableEq, Repr

/-- What a bus read returned. -/
inductive Response where
  /-- The value of a register (R102). -/
  | word (value : Word)
  /-- Bytes of memory, lowest address first. -/
  | bytes (value : List Byte)
  deriving DecidableEq, Repr

/-- Memory as (address, byte) pairs in canonical form: addresses strictly rising, no entry equal to what an
unlisted address reads as (`Memory.wf`). -/
abbrev Memory := List Host.Cell

/-- What an address that is not listed reads as (log 4, DESIGN CHOICE: the spec gives memory no contents). -/
def unlistedByte : Byte := 0

/-- The state. The rules of 10_state.md name each field, but for `heldMem` (R312) and
the last four, which are the model's own. -/
structure State where
  /-- CTRL.IRQ_EN (R36). -/
  irqEn : Bool
  /-- STATUS (R37). -/
  status : Status
  /-- ROUNDS (R38). -/
  rounds : Word
  /-- DATA_ADDR (R40). -/
  dataAddr : BitVec 64
  /-- DATA_LEN (R40). -/
  dataLen : BitVec 64
  /-- SCRATCH_ADDR (R40). -/
  scratchAddr : BitVec 64
  /-- KEY (R41). -/
  key : Bytes 32
  /-- DIN (R41). -/
  din : Block
  /-- RKEY (R41). -/
  rkey : Block
  /-- DOUT (R41). -/
  dout : Block
  /-- DIGEST (R41). -/
  digest : Bytes 32
  /-- STATE, the 200-byte SpongeState buffer (R41, R42). -/
  stateBuf : Bytes 200
  /-- EK, the encryption schedule of the host context (R47). -/
  ek : Vector Word 60
  /-- DK, the decryption schedule of the host context (R48). -/
  dk : Vector Word 60
  /-- HK, the engine's private schedule (R50). -/
  hk : Vector Word 60
  /-- text[0..7] (R51). -/
  text : Vector Block 8
  /-- Working register a (R52). -/
  a : Block
  /-- Working register b (R52). -/
  b : Block
  /-- Working register c (R52). -/
  c : Block
  /-- Working register d (R52). -/
  d : Block
  /-- Working register e (R52). -/
  e : Block
  /-- Upper half of the product of mixing step 2 (R53). A free value after the step (log 26). -/
  hi : Lane
  /-- Lower half of the product of mixing step 2 (R53; log 26). -/
  lo : Lane
  /-- Scratchpad block index (R53; log 26). -/
  j : BitVec 17
  /-- S, the engine's working copy of the SpongeState (R54). -/
  sponge : Bytes 200
  /-- KSAVE, the latched KEY bytes (R55). -/
  ksave : Bytes 32
  /-- BSAVE, the latched DIN (R55). -/
  bsave : Block
  /-- CMDL, the command word accepted last (R59). -/
  cmdl : Word
  /-- PHASE (R60). -/
  phase : Phase
  /-- The stage and counters of PHASE = RUN (R60). -/
  seq : Sequencer
  /-- TC, the table cache (R61). Not used when P_TCACHE does not hold. -/
  tc : LookupTables
  /-- TC_VALID (R61). -/
  tcValid : Bool
  /-- TC_ARRIVED, by lane (R61). -/
  tcArrived : List Bool
  /-- The memory the block and its host share (R74). -/
  mem : Memory
  /-- The memory as it stood at acceptance, where the last command was accepted during population and so is held
  (R93), none where it was not: a held HASH reads its data window as at acceptance (R312; log 27). -/
  heldMem : Option Memory
  /-- FAULT (R63): the fault that was raised, kept for good. -/
  fault : Option Fault
  /-- The platform's parameters (R12). The model's own field; no step changes it (log 11). -/
  platform : Platform
  /-- What happens next, oldest first. The model's own field (log 3). -/
  events : List Event
  /-- What the last bus read returned. The model's own field (log 3). -/
  response : Option Response
  /-- How many draws of free values have been made. The model's own field (log 6). -/
  draws : Nat
  deriving DecidableEq, Repr

/-- The state right after reset on a given platform: R64, and log 5 for what R64 leaves unspecified. Memory
and FAULT are not changed by reset (R300, R302); here they are as at power-on. -/
def State.resetOn (p : Platform) : State where
  irqEn := false
  status := ⟨false, false, false, 0, false, false⟩
  rounds := 0
  dataAddr := 0
  dataLen := 0
  scratchAddr := 0
  key := Vector.replicate 32 0
  din := Vector.replicate 16 0
  rkey := Vector.replicate 16 0
  dout := Vector.replicate 16 0
  digest := Vector.replicate 32 0
  stateBuf := Vector.replicate 200 0
  ek := Vector.replicate 60 0
  dk := Vector.replicate 60 0
  hk := Vector.replicate 60 0
  text := Vector.replicate 8 (Vector.replicate 16 0)
  a := Vector.replicate 16 0
  b := Vector.replicate 16 0
  c := Vector.replicate 16 0
  d := Vector.replicate 16 0
  e := Vector.replicate 16 0
  hi := 0
  lo := 0
  j := 0
  sponge := Vector.replicate 200 0
  ksave := Vector.replicate 32 0
  bsave := Vector.replicate 16 0
  cmdl := 0
  phase := if p.tcache then .tcfill else .idle
  seq := Sequencer.start
  tc := LookupTables.zero
  tcValid := false
  tcArrived := List.replicate p.groupLanes false
  mem := []
  heldMem := none
  fault := none
  platform := p
  events := []
  response := none
  draws := 0

/-- The machine right after reset, on the platform it is built for (R64). -/
def State.reset : State := State.resetOn Config.platform

end Sys2Proof.Machine
end

