-- ==== Sys2Proof/Machine/Aes.lean ====
section
/-! DEFINITION. The AES primitive (40_aes_primitives.md, 42_aes_block.md R190, R191): the field GF(2^8), the
substitution tables, the ROM, the round functions, the block cipher and its inverse, the single round and the
pseudo-encryption. Every table read takes the tables it reads, so that the ROM and the table cache TC share one
definition (R154). The strategies of R155 and R156 are one function each here (log 20). -/

namespace Sys2Proof.Machine

/-- Multiplication by x in GF(2^8) (R131). -/
def xtime (a : Byte) : Byte := (a <<< 1) ^^^ (if a.getLsbD 7 then 0x1B else 0x00)

/-- The loop of R130: `steps` bits of `b` still to take, `r` the sum so far. -/
def gfMulLoop : (steps : Nat) → (a b r : Byte) → Byte
  | 0, _, _, r => r
  | steps + 1, a, b, r => gfMulLoop steps (xtime a) (b >>> 1) (if b.getLsbD 0 then r ^^^ a else r)

/-- The product in GF(2^8) (R130). -/
def gfMul (a b : Byte) : Byte := gfMulLoop 8 a b 0

/-- The bytes in increasing order. -/
def allBytes : List Byte := (List.range 256).map (BitVec.ofNat 8)

/-- The multiplicative inverse, with inv(0) = 0 (R132). -/
def gfInv (a : Byte) : Byte := (allBytes.find? fun x => gfMul a x == 1).getD 0

/-- The substitution S by its formula (R133): the affine map of the inverse. The machine uses the table of R134. -/
def sboxFormula (x : Byte) : Byte :=
  let b := gfInv x
  b ^^^ b.rotateLeft 1 ^^^ b.rotateLeft 2 ^^^ b.rotateLeft 3 ^^^ b.rotateLeft 4 ^^^ 0x63

/-- The values of S, row by row (R134). -/
def sboxValues : List Byte :=
  [0x63, 0x7c, 0x77, 0x7b, 0xf2, 0x6b, 0x6f, 0xc5, 0x30, 0x01, 0x67, 0x2b, 0xfe, 0xd7, 0xab, 0x76] ++
  [0xca, 0x82, 0xc9, 0x7d, 0xfa, 0x59, 0x47, 0xf0, 0xad, 0xd4, 0xa2, 0xaf, 0x9c, 0xa4, 0x72, 0xc0] ++
  [0xb7, 0xfd, 0x93, 0x26, 0x36, 0x3f, 0xf7, 0xcc, 0x34, 0xa5, 0xe5, 0xf1, 0x71, 0xd8, 0x31, 0x15] ++
  [0x04, 0xc7, 0x23, 0xc3, 0x18, 0x96, 0x05, 0x9a, 0x07, 0x12, 0x80, 0xe2, 0xeb, 0x27, 0xb2, 0x75] ++
  [0x09, 0x83, 0x2c, 0x1a, 0x1b, 0x6e, 0x5a, 0xa0, 0x52, 0x3b, 0xd6, 0xb3, 0x29, 0xe3, 0x2f, 0x84] ++
  [0x53, 0xd1, 0x00, 0xed, 0x20, 0xfc, 0xb1, 0x5b, 0x6a, 0xcb, 0xbe, 0x39, 0x4a, 0x4c, 0x58, 0xcf] ++
  [0xd0, 0xef, 0xaa, 0xfb, 0x43, 0x4d, 0x33, 0x85, 0x45, 0xf9, 0x02, 0x7f, 0x50, 0x3c, 0x9f, 0xa8] ++
  [0x51, 0xa3, 0x40, 0x8f, 0x92, 0x9d, 0x38, 0xf5, 0xbc, 0xb6, 0xda, 0x21, 0x10, 0xff, 0xf3, 0xd2] ++
  [0xcd, 0x0c, 0x13, 0xec, 0x5f, 0x97, 0x44, 0x17, 0xc4, 0xa7, 0x7e, 0x3d, 0x64, 0x5d, 0x19, 0x73] ++
  [0x60, 0x81, 0x4f, 0xdc, 0x22, 0x2a, 0x90, 0x88, 0x46, 0xee, 0xb8, 0x14, 0xde, 0x5e, 0x0b, 0xdb] ++
  [0xe0, 0x32, 0x3a, 0x0a, 0x49, 0x06, 0x24, 0x5c, 0xc2, 0xd3, 0xac, 0x62, 0x91, 0x95, 0xe4, 0x79] ++
  [0xe7, 0xc8, 0x37, 0x6d, 0x8d, 0xd5, 0x4e, 0xa9, 0x6c, 0x56, 0xf4, 0xea, 0x65, 0x7a, 0xae, 0x08] ++
  [0xba, 0x78, 0x25, 0x2e, 0x1c, 0xa6, 0xb4, 0xc6, 0xe8, 0xdd, 0x74, 0x1f, 0x4b, 0xbd, 0x8b, 0x8a] ++
  [0x70, 0x3e, 0xb5, 0x66, 0x48, 0x03, 0xf6, 0x0e, 0x61, 0x35, 0x57, 0xb9, 0x86, 0xc1, 0x1d, 0x9e] ++
  [0xe1, 0xf8, 0x98, 0x11, 0x69, 0xd9, 0x8e, 0x94, 0x9b, 0x1e, 0x87, 0xe9, 0xce, 0x55, 0x28, 0xdf] ++
  [0x8c, 0xa1, 0x89, 0x0d, 0xbf, 0xe6, 0x42, 0x68, 0x41, 0x99, 0x2d, 0x0f, 0xb0, 0x54, 0xbb, 0x16]

/-- The values of Si, row by row (R135). -/
def invSboxValues : List Byte :=
  [0x52, 0x09, 0x6a, 0xd5, 0x30, 0x36, 0xa5, 0x38, 0xbf, 0x40, 0xa3, 0x9e, 0x81, 0xf3, 0xd7, 0xfb] ++
  [0x7c, 0xe3, 0x39, 0x82, 0x9b, 0x2f, 0xff, 0x87, 0x34, 0x8e, 0x43, 0x44, 0xc4, 0xde, 0xe9, 0xcb] ++
  [0x54, 0x7b, 0x94, 0x32, 0xa6, 0xc2, 0x23, 0x3d, 0xee, 0x4c, 0x95, 0x0b, 0x42, 0xfa, 0xc3, 0x4e] ++
  [0x08, 0x2e, 0xa1, 0x66, 0x28, 0xd9, 0x24, 0xb2, 0x76, 0x5b, 0xa2, 0x49, 0x6d, 0x8b, 0xd1, 0x25] ++
  [0x72, 0xf8, 0xf6, 0x64, 0x86, 0x68, 0x98, 0x16, 0xd4, 0xa4, 0x5c, 0xcc, 0x5d, 0x65, 0xb6, 0x92] ++
  [0x6c, 0x70, 0x48, 0x50, 0xfd, 0xed, 0xb9, 0xda, 0x5e, 0x15, 0x46, 0x57, 0xa7, 0x8d, 0x9d, 0x84] ++
  [0x90, 0xd8, 0xab, 0x00, 0x8c, 0xbc, 0xd3, 0x0a, 0xf7, 0xe4, 0x58, 0x05, 0xb8, 0xb3, 0x45, 0x06] ++
  [0xd0, 0x2c, 0x1e, 0x8f, 0xca, 0x3f, 0x0f, 0x02, 0xc1, 0xaf, 0xbd, 0x03, 0x01, 0x13, 0x8a, 0x6b] ++
  [0x3a, 0x91, 0x11, 0x41, 0x4f, 0x67, 0xdc, 0xea, 0x97, 0xf2, 0xcf, 0xce, 0xf0, 0xb4, 0xe6, 0x73] ++
  [0x96, 0xac, 0x74, 0x22, 0xe7, 0xad, 0x35, 0x85, 0xe2, 0xf9, 0x37, 0xe8, 0x1c, 0x75, 0xdf, 0x6e] ++
  [0x47, 0xf1, 0x1a, 0x71, 0x1d, 0x29, 0xc5, 0x89, 0x6f, 0xb7, 0x62, 0x0e, 0xaa, 0x18, 0xbe, 0x1b] ++
  [0xfc, 0x56, 0x3e, 0x4b, 0xc6, 0xd2, 0x79, 0x20, 0x9a, 0xdb, 0xc0, 0xfe, 0x78, 0xcd, 0x5a, 0xf4] ++
  [0x1f, 0xdd, 0xa8, 0x33, 0x88, 0x07, 0xc7, 0x31, 0xb1, 0x12, 0x10, 0x59, 0x27, 0x80, 0xec, 0x5f] ++
  [0x60, 0x51, 0x7f, 0xa9, 0x19, 0xb5, 0x4a, 0x0d, 0x2d, 0xe5, 0x7a, 0x9f, 0x93, 0xc9, 0x9c, 0xef] ++
  [0xa0, 0xe0, 0x3b, 0x4d, 0xae, 0x2a, 0xf5, 0xb0, 0xc8, 0xeb, 0xbb, 0x3c, 0x83, 0x53, 0x99, 0x61] ++
  [0x17, 0x2b, 0x04, 0x7e, 0xba, 0x77, 0xd6, 0x26, 0xe1, 0x69, 0x14, 0x63, 0x55, 0x21, 0x0c, 0x7d]

/-- The substitution S (R134). -/
def sbox (x : Byte) : Byte := sboxValues.getD x.toNat 0

/-- The inverse substitution Si (R135). -/
def invSbox (x : Byte) : Byte := invSboxValues.getD x.toNat 0

/-- `Te0[x]` (R136). -/
def te0Entry (x : Byte) : Word :=
  wordOfBytes (gfMul 0x02 (sbox x)) (sbox x) (sbox x) (gfMul 0x03 (sbox x))

/-- `Td0[x]` (R138). -/
def td0Entry (x : Byte) : Word :=
  wordOfBytes (gfMul 0x0e (invSbox x)) (gfMul 0x09 (invSbox x)) (gfMul 0x0d (invSbox x)) (gfMul 0x0b (invSbox x))

/-- `rc_i` (R141). -/
def rcByte : Nat → Byte
  | 0 => 0x01
  | i + 1 => xtime (rcByte i)

/-- A table of 256 entries from the entry of each byte. -/
def tableOf {α : Type} (f : Byte → α) : Vector α 256 := ⟨⟨allBytes.map f⟩, by simp [allBytes]⟩

/-- The lookup-table ROM (R46; contents R136 to R141). -/
def rom : LookupTables where
  te0 := tableOf te0Entry
  te1 := tableOf fun x => (te0Entry x).rotateRight 8
  te2 := tableOf fun x => (te0Entry x).rotateRight 16
  te3 := tableOf fun x => (te0Entry x).rotateRight 24
  td0 := tableOf td0Entry
  td1 := tableOf fun x => (td0Entry x).rotateRight 8
  td2 := tableOf fun x => (td0Entry x).rotateRight 16
  td3 := tableOf fun x => (td0Entry x).rotateRight 24
  td4 := tableOf invSbox
  rcon := Vector.ofFn fun i => wordOfBytes (rcByte i.val) 0 0 0

/-- Entry `x` of a 256-entry table. -/
def entry {α : Type} (t : Vector α 256) (x : Byte) : α := t[x.toNat]'x.isLt

/-- The substitution of four bytes, each placed in its own byte lane by a masked lookup (R143). -/
def maskedWord (T : LookupTables) (x3 x2 x1 x0 : Byte) : Word :=
  (entry T.te2 x3 &&& 0xff000000) ^^^ (entry T.te3 x2 &&& 0x00ff0000) ^^^
    (entry T.te0 x1 &&& 0x0000ff00) ^^^ (entry T.te1 x0 &&& 0x000000ff)

/-- `SubRotWord(t)` (R145). -/
def subRotWord (T : LookupTables) (t : Word) : Word := maskedWord T (byte2 t) (byte1 t) (byte0 t) (byte3 t)

/-- `SubWordOnly(t)` (R145). -/
def subWordOnly (T : LookupTables) (t : Word) : Word := maskedWord T (byte3 t) (byte2 t) (byte1 t) (byte0 t)

/-- `Te1[x] & 0xff`, the forward substitution of the double lookup (R146). -/
def forwardSub (T : LookupTables) (x : Byte) : Byte := byte0 (entry T.te1 x)

/-- `InvMixWord(v)`, by double lookup (R146). -/
def invMixWord (T : LookupTables) (v : Word) : Word :=
  entry T.td0 (forwardSub T (byte3 v)) ^^^ entry T.td1 (forwardSub T (byte2 v)) ^^^
    entry T.td2 (forwardSub T (byte1 v)) ^^^ entry T.td3 (forwardSub T (byte0 v))

/-- The four columns of the table-driven path, or the four words of a round key (R144). -/
abbrev Columns := Vector Word 4

/-- The columns of a Block (R144). -/
def columnsOf (b : Block) : Columns := Vector.ofFn fun c => getColumn b c

/-- The Block with these columns (R144). -/
def blockOfColumns (s : Columns) : Block := blockOfWords s[0] s[1] s[2] s[3]

/-- Word-wise exclusive OR, the key addition. -/
def xorColumns (s k : Columns) : Columns := Vector.ofFn fun c => s[c] ^^^ k[c]

/-- The full encryption round (R147). -/
def encRound (T : LookupTables) (s k : Columns) : Columns :=
  Vector.ofFn fun c : Fin 4 =>
    entry T.te0 (byte3 s[c]) ^^^ entry T.te1 (byte2 s[c + 1]) ^^^
      entry T.te2 (byte1 s[c + 2]) ^^^ entry T.te3 (byte0 s[c + 3]) ^^^ k[c]

/-- The final encryption round (R148). -/
def encFinal (T : LookupTables) (s k : Columns) : Columns :=
  Vector.ofFn fun c : Fin 4 =>
    maskedWord T (byte3 s[c]) (byte2 s[c + 1]) (byte1 s[c + 2]) (byte0 s[c + 3]) ^^^ k[c]

/-- The full decryption round (R149). -/
def decRound (T : LookupTables) (s k : Columns) : Columns :=
  Vector.ofFn fun c : Fin 4 =>
    entry T.td0 (byte3 s[c]) ^^^ entry T.td1 (byte2 s[c + 3]) ^^^
      entry T.td2 (byte1 s[c + 2]) ^^^ entry T.td3 (byte0 s[c + 1]) ^^^ k[c]

/-- The final decryption round (R150). -/
def decFinal (T : LookupTables) (s k : Columns) : Columns :=
  Vector.ofFn fun c : Fin 4 =>
    ((entry T.td4 (byte3 s[c])).setWidth 32 <<< 24) ^^^ ((entry T.td4 (byte2 s[c + 3])).setWidth 32 <<< 16) ^^^
      ((entry T.td4 (byte1 s[c + 2])).setWidth 32 <<< 8) ^^^ (entry T.td4 (byte0 s[c + 1])).setWidth 32 ^^^ k[c]

/-- Word `i` of a schedule register. Its 60 words hold every schedule; an index above 59 is met only where
ROUNDS holds a value above 14, which no run reaches, and reads 0 there (log 21). -/
def scheduleWord (w : Vector Word 60) (i : Nat) : Word := w[i]?.getD 0

/-- Round key `r` of a schedule: words `4r` to `4r + 3` (R172). -/
def roundKey (w : Vector Word 60) (r : Nat) : Columns := Vector.ofFn fun c => scheduleWord w (4 * r + c.val)

/-- The full rounds `r, r + 1, ...`, `count` of them, by the round function `round` (R190, R191). -/
def fullRounds (round : Columns → Columns → Columns) (w : Vector Word 60) :
    (count r : Nat) → Columns → Columns
  | 0, _, s => s
  | count + 1, r, s => fullRounds round w count (r + 1) (round s (roundKey w r))

/-- `Cipher(in, W, Nr)` (R190). -/
def cipher (T : LookupTables) (inp : Block) (w : Vector Word 60) (nr : Nat) : Block :=
  let s := fullRounds (encRound T) w (nr - 1) 1 (xorColumns (columnsOf inp) (roundKey w 0))
  blockOfColumns (encFinal T s (roundKey w nr))

/-- `InvCipher(in, V, Nr)` (R191). -/
def invCipher (T : LookupTables) (inp : Block) (v : Vector Word 60) (nr : Nat) : Block :=
  let s := fullRounds (decRound T) v (nr - 1) 1 (xorColumns (columnsOf inp) (roundKey v 0))
  blockOfColumns (decFinal T s (roundKey v nr))

/-- The single AES round on Blocks (R152). -/
def aesRoundBlock (T : LookupTables) (b k : Block) : Block :=
  blockOfColumns (encRound T (columnsOf b) (columnsOf k))

/-- `HKB(r)`: round key `r` of the engine context as a Block (R217). -/
def engineRoundKey (hk : Vector Word 60) (r : Nat) : Block := blockOfColumns (roundKey hk r)

/-- `PseudoEncrypt(B, HK)`: ten AesRounds keyed by round keys 0 to 9 (R153). -/
def pseudoEncrypt (T : LookupTables) (b : Block) (hk : Vector Word 60) : Block :=
  (List.range 10).foldl (fun x r => aesRoundBlock T x (engineRoundKey hk r)) b

end Sys2Proof.Machine
end

