-- ==== Sys2Proof/Machine/Flags.lean ====
section
/-! DEFINITION. Every change of STATUS (10_state.md R37, 60_exceptions.md R271, R272, 44_control.md R254), the
status word, and the interrupt output (60_exceptions.md R281). -/

namespace Sys2Proof.Machine

/-- STATUS as the host reads it: reserved bits 3 and 31:10 are 0 (R37). -/
def Status.word (t : Status) : Word :=
  (0 : BitVec 22) ++ BitVec.ofBool t.dkValid ++ BitVec.ofBool t.ekValid ++ t.err ++ (0 : BitVec 1) ++
    BitVec.ofBool t.ovr ++ BitVec.ofBool t.done ++ BitVec.ofBool t.busy

/-- At acceptance: BUSY = 1, DONE = 0, ERR = 0, the rest kept (R272). -/
def Status.accepted (t : Status) : Status := { t with busy := true, done := false, err := 0 }

/-- At completion: ERR = err, BUSY = 0, DONE = 1, the rest kept (R271). -/
def Status.finished (t : Status) (err : BitVec 4) : Status := { t with err := err, busy := false, done := true }

/-- A lost write: OVR = 1 (R45, R109). -/
def Status.overrun (t : Status) : Status := { t with ovr := true }

/-- A host write of `v` to STATUS: bit 1 clears DONE, bit 2 clears OVR, nothing else (R254). -/
def Status.clearedBy (t : Status) (v : Word) : Status :=
  { t with done := t.done && !v.getLsbD 1, ovr := t.ovr && !v.getLsbD 2 }

/-- Both valid flags, as the SETKEY commands write them (R177, R178). -/
def Status.withKeys (t : Status) (ek dk : Bool) : Status := { t with ekValid := ek, dkValid := dk }

/-- The interrupt output (R62, R281). -/
def State.irq (s : State) : Bool := s.irqEn && s.status.done

end Sys2Proof.Machine
end

