-- ==== Sys2Proof/Machine/Ops.lean ====
section
/-! DEFINITION. The shared operations: memory and its windows (20_memory.md), the draws of free values, the end of
a command, the acceptance of a command, reset, and the fault latch. The block has no trap entry and no trap return
(60_exceptions.md R274, R275): what another machine's exception entry is, here is `State.finish` with an error
code, and there is nothing to return from. -/

namespace Sys2Proof.Machine

/-! Memory. -/

/-- The canonical form: addresses strictly rising and below 2^64, no entry equal to an unlisted byte. -/
abbrev Memory.wf (m : Memory) : Prop :=
  m.Pairwise (fun p q => p.1 < q.1) ∧ ∀ c ∈ m, c.1 < 2 ^ 64 ∧ c.2 ≠ unlistedByte

/-- The byte at an address. -/
def Memory.read : Memory → Nat → Byte
  | [], _ => unlistedByte
  | (b, v) :: m, a => if a = b then v else Memory.read m a

/-- Write one byte, keeping the canonical form. -/
def Memory.write : Memory → Nat → Byte → Memory
  | [], a, v => if v = unlistedByte then [] else [(a, v)]
  | (b, w) :: m, a, v =>
    if a < b then (if v = unlistedByte then (b, w) :: m else (a, v) :: (b, w) :: m)
    else if a = b then (if v = unlistedByte then m else (a, v) :: m)
    else (b, w) :: Memory.write m a v

/-- `MemRead(addr, n)`: `n` bytes in increasing address order (R76). -/
def Memory.readBytes (m : Memory) (addr : BitVec 64) : Nat → List Byte
  | 0 => []
  | n + 1 => m.read addr.toNat :: Memory.readBytes m (addr + 1) n

/-- `MemWrite(addr, n, v)`: byte `k` of `v` to address `addr + k` (R77). -/
def Memory.writeBytes (m : Memory) (addr : BitVec 64) : List Byte → Memory
  | [] => m
  | v :: vs => Memory.writeBytes (m.write addr.toNat v) (addr + 1) vs

/-- `MemRead(addr, 16)` as a Block (R76). -/
def Memory.readBlock (m : Memory) (addr : BitVec 64) : Block :=
  Vector.ofFn fun i => m.read (addr + BitVec.ofNat 64 i.val).toNat

/-- `MemWrite(addr, 16, b)` of a Block (R77). -/
def Memory.writeBlock (m : Memory) (addr : BitVec 64) (b : Block) : Memory := m.writeBytes addr b.toList

/-- Draw number `seq` of the first `n` bytes from `base` on: each becomes a free value (R86; log 9). No byte lies past
2^64 - 1 (R13), so the draw of a window that would pass it stops there. -/
def Memory.drawBytes (m : Memory) (base seq : Nat) : Nat → Memory
  | 0 => m
  | n + 1 =>
    if base + n < 2 ^ 64 then (Memory.drawBytes m base seq n).write (base + n) (Config.free 8 seq n)
    else Memory.drawBytes m base seq n

/-! Windows (R75, R78, R81, R101). -/

/-- SCRATCH_BYTES (R11). -/
def scratchBytes : Nat := 2 ^ 21

/-- A range of addresses a command accesses. -/
structure Window where
  base : Nat
  size : Nat
  deriving DecidableEq, Repr

/-- Some byte of the `n` bytes at `a` lies in the window. -/
def Window.touches (w : Window) (a n : Nat) : Bool :=
  decide (0 < n ∧ 0 < w.size ∧ a < w.base + w.size ∧ w.base < a + n)

/-- P_BASE (R101). -/
def pBase (p : Platform) : BitVec 64 := p.basePage ++ (0 : BitVec 10)

/-- The block's register window (R83, R101). -/
def registerWindow (p : Platform) : Window := ⟨(pBase p).toNat, 0x400⟩

/-- `MemAdmits(base, n)` (R12): what the platform says, but never past 2^64 nor over the register window (R81). -/
def memAdmits (p : Platform) (base : BitVec 64) (n : Nat) : Bool :=
  decide (n ≤ 2 ^ 64 - base.toNat) && !(registerWindow p).touches base.toNat n && decide ((base, n) ∈ p.admitted)

/-- The scratch window (R78). -/
def State.scratchWindow (s : State) : Window := ⟨s.scratchAddr.toNat, scratchBytes⟩

/-- The data window (R75). -/
def State.dataWindow (s : State) : Window := ⟨s.dataAddr.toNat, s.dataLen.toNat⟩

/-- The scratch window is admitted (R82, R212). -/
def State.scratchAdmitted (s : State) : Bool := memAdmits s.platform s.scratchAddr scratchBytes

/-- The data window is empty or admitted (R82, R214). -/
def State.dataAdmitted (s : State) : Bool :=
  decide (s.dataLen = 0) || memAdmits s.platform s.dataAddr s.dataLen.toNat

/-- SCRATCH_ADDR[3:0] = 0 (R79, R211). -/
def State.scratchAligned (s : State) : Bool := s.scratchAddr.extractLsb' 0 4 == 0

/-- The address of scratchpad block `j` (R78). -/
def State.scratchBlockAddr (s : State) (j : BitVec 17) : BitVec 64 := s.scratchAddr + 16 * j.setWidth 64

/-- `ScrRead(j)` (R78). -/
def State.scrRead (s : State) (j : BitVec 17) : Block := s.mem.readBlock (s.scratchBlockAddr j)

/-- `ScrWrite(j, v)` (R78). -/
def State.scrWrite (s : State) (j : BitVec 17) (v : Block) : State :=
  { s with mem := s.mem.writeBlock (s.scratchBlockAddr j) v }

/-! Which command holds a window (R87). -/

/-- The latched command, none if the latched word is Illegal (R59, R110). -/
def State.latched (s : State) : Option Instr :=
  match decode s.cmdl with
  | .ok i => some i
  | .error _ => none

/-- A hash command is the latched command. -/
def State.latchedHash (s : State) : Bool := s.latched == some .hashCore || s.latched == some .hash

/-- A hash command is in phase RUN, so its scratch window is its own (R87). One held in TCFILL owns no window yet
(log 27). -/
def State.scratchHeld (s : State) : Bool := s.phase == .run && s.latchedHash

/-- A HASH is in phase RUN, so its data window must not be written (R87). One held in TCFILL forbids no write, and
reads the bytes of its acceptance all the same (log 27). -/
def State.dataHeld (s : State) : Bool := s.phase == .run && s.latched == some .hash

/-- What a bus access to the `n` bytes at `addr` of memory runs into (R87; log 16). Where the two windows of a running
HASH share a byte, R87 makes a read of it a race and also allows it, and names two faults for a write: both raise
SCRATCH_RACE here (log 24). -/
def State.accessFault (s : State) (addr : BitVec 64) (n : Nat) (isWrite : Bool) : Option Fault :=
  if 2 ^ 64 < addr.toNat + n then some .outsideMemory
  else if s.scratchHeld && s.scratchWindow.touches addr.toNat n then some .scratchRace
  else if isWrite && s.dataHeld && s.dataWindow.touches addr.toNat n then some .dataRace
  else none

/-- The memory in which a HASH reads its data window: as it stands at acceptance (R312). Outside population no write
to the window can fall between acceptance and stage 1 (R87), so there it is memory itself (log 27). -/
def State.dataMem (s : State) : Memory := s.heldMem.getD s.mem

/-! Tables (R154). -/

/-- The tables a lookup reads: TC when P_TCACHE holds, else the ROM (R154). -/
def State.tables (s : State) : LookupTables := if s.platform.tcache then s.tc else rom

/-- A table read is no hazard: TC is released, or there is no TC (R92). -/
def State.tablesReady (s : State) : Bool := s.tcValid || !s.platform.tcache

/-! Draws of free values (log 6, log 7, log 8). -/

/-- `n` free bytes of the current draw, from slot `slot` on. -/
def State.freeBytes (s : State) (n slot : Nat) : Bytes n :=
  Vector.ofFn fun i => Config.free 8 s.draws (slot + i.val)

/-- HK and the working registers become unspecified (R50 to R54, R227, R236; log 8). -/
def State.releaseEngine (s : State) : State :=
  { s with
    hk := Vector.ofFn fun i => Config.free 32 s.draws i.val
    text := Vector.ofFn fun k => s.freeBytes 16 (16 * k.val)
    a := s.freeBytes 16 128
    b := s.freeBytes 16 144
    c := s.freeBytes 16 160
    d := s.freeBytes 16 176
    e := s.freeBytes 16 192
    hi := Config.free 64 s.draws 0
    lo := Config.free 64 s.draws 1
    j := Config.free 17 s.draws 0
    sponge := s.freeBytes 200 208
    draws := s.draws + 1 }

/-- `hi`, `lo` and `j` become unspecified, as outside a mixing step (R53; log 26). -/
def State.releaseMix (s : State) : State :=
  { s with
    hi := Config.free 64 s.draws 0
    lo := Config.free 64 s.draws 1
    j := Config.free 17 s.draws 0
    draws := s.draws + 1 }

/-- The first `n` bytes from SCRATCH_ADDR on become unspecified. -/
def State.drawFirst (s : State) (n : Nat) : State :=
  { s with
    mem := s.mem.drawBytes s.scratchAddr.toNat s.draws n
    draws := s.draws + 1 }

/-- The scratch window becomes unspecified, as after every hash command (R86; log 9). -/
def State.drawWindow (s : State) : State := s.drawFirst scratchBytes

/-- KSAVE becomes unspecified once its command is over (R55, R64; log 7). -/
def State.releaseKeyLatch (s : State) : State :=
  { s with ksave := s.freeBytes 32 408, draws := s.draws + 1 }

/-- BSAVE becomes unspecified once its command is over (R55, R64; log 7). -/
def State.releaseBlockLatch (s : State) : State :=
  { s with bsave := s.freeBytes 16 440, draws := s.draws + 1 }

/-! The end and the start of a command. -/

/-- `finish(err)` (R271): status, PHASE = IDLE. The command's register writes are in `s` already: they and this
happen at one step (R44). The stage and the counters, to which R60 gives no value outside RUN, go back to the start of a
rule (log 29). -/
def State.finish (s : State) (err : BitVec 4) : State :=
  { s with status := s.status.finished err, phase := .idle, seq := Sequencer.start }

/-- `CommandRequest(v)` (R108, R109). An Illegal word completes at once (R110, log 13), unless it is held during
population like any command (R93, log 14). Either way the sequencer stands at the start of a rule (log 29). -/
def State.commandRequest (s : State) (v : Word) : State :=
  if s.status.busy then { s with status := s.status.overrun }
  else
    let t := { s with cmdl := v, status := s.status.accepted, seq := Sequencer.start, heldMem := none }
    if s.phase = .tcfill then { t with heldMem := some s.mem }
    else
      match decode v with
      | .error _ => t.finish 3
      | .ok _ => { t with phase := .run }

/-! Reset and the fault latch. -/

/-- A hash command is abandoned by a reset now, so its scratch window becomes a draw (R301, U1, U20; log 10). -/
def State.abandonsHash (s : State) : Bool := s.status.busy && s.latchedHash

/-- Reset (R300 to R302): every piece of the block's state takes its value of R64; memory stays, but for the
scratch window of an abandoned hash command; FAULT stays; the platform and the events to come are not the block's
(log 25). -/
def State.resetBlock (s : State) : State :=
  { State.resetOn s.platform with
    mem := if s.abandonsHash then s.mem.drawBytes s.scratchAddr.toNat s.draws scratchBytes else s.mem
    fault := s.fault
    events := s.events
    draws := s.draws + 1 }

/-- `raise Fault(kind)` as it stands in the state: FAULT holds the kind for good (R63, R276; log 15). -/
def State.latchFault (s : State) (f : Fault) : State := { s with fault := some f }

end Sys2Proof.Machine
end

