-- ==== Sys2Proof/Machine/BlockCommands.lean ====
section
/-! DEFINITION. The block commands ENCRYPT, DECRYPT and AES_ROUND (42_aes_block.md R192 to R194). -/

namespace Sys2Proof.Machine

/-- What the three commands share: latch DIN (R55), write DOUT with `f` of it, and finish. -/
def State.writeDout (s : State) (f : LookupTables → Block → Block) : Host.Outcome State Fault Refusal :=
  if s.tablesReady then
    .next ({ s with bsave := s.din, dout := f s.tables s.din }.releaseBlockLatch.finish 0)
  else .fault .tcacheHazard

/-- ENCRYPT (R192): NO_KEY, or DOUT from DIN under EK. -/
def execEncrypt (s : State) : Host.Outcome State Fault Refusal :=
  if s.status.ekValid then s.writeDout fun T x => cipher T x s.ek s.rounds.toNat
  else .next (s.finish 4)

/-- DECRYPT (R193): NO_KEY, or DOUT from DIN under DK. -/
def execDecrypt (s : State) : Host.Outcome State Fault Refusal :=
  if s.status.dkValid then s.writeDout fun T x => invCipher T x s.dk s.rounds.toNat
  else .next (s.finish 4)

/-- AES_ROUND (R194): DOUT from DIN keyed by RKEY. -/
def execAesRound (s : State) : Host.Outcome State Fault Refusal :=
  s.writeDout fun T x => aesRoundBlock T x s.rkey

end Sys2Proof.Machine
end

