-- ==== Sys2Proof/Machine/Control.lean ====
section
/-! DEFINITION. The control command NOP (44_control.md R250). -/

namespace Sys2Proof.Machine

/-- NOP (R250): `finish(0)` and nothing else. -/
def execNop (s : State) : Host.Outcome State Fault Refusal := .next (s.finish 0)

end Sys2Proof.Machine
end

