-- ==== Sys2Proof/Machine/KeySchedule.lean ====
section
/-! DEFINITION. Key expansion and the decryption schedule (41_aes_key_schedule.md R170 to R174). -/

namespace Sys2Proof.Machine

/-- The key length of a KSZ field, none for the unsupported one (R105). -/
def keyBits : KeySize → Option Nat
  | .bits128 => some 128
  | .bits192 => some 192
  | .bits256 => some 256
  | .unsupported => none

/-- Nr of a key length (R11, R170). -/
def roundsOf (bits : Nat) : Nat := if bits = 128 then 10 else if bits = 192 then 12 else 14

/-- The word that R170's loop appends to a schedule of length `i = w.length`. -/
def nextScheduleWord (T : LookupTables) (nk : Nat) (w : List Word) : Word :=
  let i := w.length
  let t := w.getD (i - 1) 0
  let t :=
    if i % nk = 0 then subRotWord T t ^^^ T.rcon[i / nk - 1]?.getD 0
    else if nk = 8 ∧ i % 8 = 4 then subWordOnly T t
    else t
  w.getD (i - nk) 0 ^^^ t

/-- `count` turns of R170's loop. -/
def extendSchedule (T : LookupTables) (nk : Nat) : (count : Nat) → List Word → List Word
  | 0, w => w
  | count + 1, w => extendSchedule T nk count (w ++ [nextScheduleWord T nk w])

/-- Word `i` of the key bytes, `GETU32(key, 4i)` (R19, R170). -/
def keyWord (key : Bytes 32) (i : Nat) : Word :=
  wordOfBytes (key[4 * i]?.getD 0) (key[4 * i + 1]?.getD 0) (key[4 * i + 2]?.getD 0) (key[4 * i + 3]?.getD 0)

/-- `KeyExpansion(key, bits)`'s words (R170). Of the 32 key bytes the first `bits / 8` are read. -/
def keyExpansion (T : LookupTables) (key : Bytes 32) (bits : Nat) : List Word :=
  let nk := bits / 32
  extendSchedule T nk (4 * (roundsOf bits + 1) - nk) ((List.range nk).map (keyWord key))

/-- `ReverseRoundKeys(W, Nr)` (R173). -/
def reverseRoundKeys (w : List Word) (nr : Nat) : List Word :=
  (List.range (4 * (nr + 1))).map fun i => w.getD (4 * (nr - i / 4) + i % 4) 0

/-- `DeriveDecrypt(W, Nr)` (R174). -/
def deriveDecrypt (T : LookupTables) (w : List Word) (nr : Nat) : List Word :=
  (List.range (4 * (nr + 1))).map fun i =>
    let v := (reverseRoundKeys w nr).getD i 0
    if 1 ≤ i / 4 ∧ i / 4 < nr then invMixWord T v else v

/-- A schedule register after its first words are written with `w`; the words above are unspecified and take
the values `above` (R47; log 7). -/
def storeSchedule (w : List Word) (above : Nat → Word) : Vector Word 60 :=
  Vector.ofFn fun i => w[i.val]?.getD (above i.val)

end Sys2Proof.Machine
end

