-- ==== Sys2Proof/Machine/HashEngine.lean ====
section
/-! DEFINITION. The memory-hard hash engine (43_hash_engine.md R210 to R227): its stages, one micro-step of the
sequencer (`engineTick`), and the whole rest of a command (`engineRun`). Both are made of the same bodies, and a
micro-step followed by the rest is the rest (Sys2Proof/Certificates/Slice0/Obligations.lean). -/

namespace Sys2Proof.Machine

/-- Which hash command runs: HASH_CORE (stages 2 to 6) or HASH (stages 1 to 7). -/
inductive HashKind where
  | core
  | full
  deriving DecidableEq, Repr

/-- How a part of a hash command ends. -/
inductive EngineResult where
  /-- The command goes on. -/
  | more (s : State)
  /-- The command has finished. -/
  | ended (s : State)
  /-- A fault was raised. -/
  | fault (f : Fault)
  deriving DecidableEq, Repr

/-- The rest of the command after a part of it. -/
def EngineResult.andThen (r : EngineResult) (rest : State → Host.Outcome State Fault Refusal) :
    Host.Outcome State Fault Refusal :=
  match r with
  | .more s => rest s
  | .ended s => .next s
  | .fault f => .fault f

/-- The outcome of a part that stands alone, as a micro-step does. -/
def EngineResult.outcome (r : EngineResult) : Host.Outcome State Fault Refusal := r.andThen .next

/-- R60's stage number of a stage; 0 before stage 1. -/
def Stage.number : Stage → Nat
  | .check => 0
  | .absorb => 1
  | .seed => 2
  | .fill => 3
  | .derive => 4
  | .mix => 5
  | .rekey => 6
  | .fold => 6
  | .writeBack => 6
  | .finalize => 7

/-- FILL_ITERS (R11). -/
def fillIters : Nat := 16384

/-- SCRATCH_BLOCKS: the blocks one sweep of stage 3 or 6 visits (R11). -/
def sweepBlocks : Nat := 8 * fillIters

/-- MIX_ITERS (R11). -/
def mixIters : Nat := 2 ^ 19

/-- Enter a stage with its counters at 0 (a counter that no loop of the stage uses: log 29). -/
def State.enter (s : State) (stage : Stage) : State := { s with seq := ⟨stage, 0, 0, 0⟩ }

/-- How many blocks of a sweep are done: `8 i + k` (R218, R225). -/
def Sequencer.sweepPos (q : Sequencer) : Nat := 8 * q.i + q.k.val

/-- The scratchpad block of this turn of a sweep (R218, R225). -/
def Sequencer.sweepBlock (q : Sequencer) : BitVec 17 := BitVec.ofNat 17 q.sweepPos

/-- The counters' next values in a sweep: `k` is the inner loop (R218, R225). -/
def Sequencer.nextBlock (q : Sequencer) : Sequencer :=
  if q.k = 7 then { q with i := q.i + 1, k := 0 } else { q with k := q.k + 1 }

/-- The end of a hash command that has a SpongeState, by success (`finish(0)`, R230, R231) or by `Fail(err)` (R227):
STATE receives S, the scratch window is a draw either way (R86), HK and the working registers are released. DIGEST keeps
its value. -/
def State.endHash (s : State) (err : BitVec 4) : State :=
  ({ s with stateBuf := s.sponge }).drawWindow.releaseEngine.finish err

/-- The eight seed blocks of S into `text` (R216, R225; region R42). -/
def State.loadText (s : State) : State :=
  { s with text := Vector.ofFn fun k => slice s.sponge (64 + 16 * k.val) 16 (by omega) }

/-- `KeyImport(K)` (R213) and the entry of the next stage, or `Fail(2)` where the key is refused. -/
def State.importKey (s : State) (key : Bytes 32) (stage : Stage) : EngineResult :=
  if key ∈ s.platform.refusedKeys then .ended (s.endHash 2)
  else if s.tablesReady then
    .more ({ s with hk := storeSchedule (keyExpansion s.tables key 256) fun _ => 0 }.enter stage)
  else .fault .tcacheHazard

/-! Stages 1 and 2. -/

/-- The alignment check (R211), then the first stage: S from STATE for HASH_CORE (R230), stage 1 for HASH (R231). A
command that fails it makes no access, yet its window is unspecified as after every hash command (R86; log 9). -/
def stageCheck (c : HashKind) (s : State) : EngineResult :=
  if s.scratchAligned then
    match c with
    | .core => .more ({ s with sponge := s.stateBuf }.enter .seed)
    | .full => .more (s.enter .absorb)
  else .ended (s.drawWindow.finish 5)

/-- Stage 1, Absorb (R214), of the data window as at acceptance (R312; log 27). -/
def stageAbsorb (s : State) : EngineResult :=
  if s.dataAdmitted then
    .more ({ s with sponge := Config.absorb (s.dataMem.readBytes s.dataAddr s.dataLen.toNat) }.enter .seed)
  else .fault .memNotAdmitted

/-- Stage 2, Seed (R216). A refused key ends the command before any scratchpad access. -/
def stageSeed (s : State) : EngineResult :=
  s.loadText.importKey (slice s.sponge 0 32 (by omega)) .fill

/-! Stage 3. -/

/-- One turn of stage 3's inner loop (R218). -/
def State.fillBlock (s : State) : State :=
  let x := pseudoEncrypt s.tables s.text[s.seq.k] s.hk
  { s.scrWrite s.seq.sweepBlock x with text := s.text.set s.seq.k.val x, seq := s.seq.nextBlock }

/-- What stage 3 checks: admission at its first write (R212), and no table-cache hazard (R92). -/
def State.fillGuard (s : State) (go : EngineResult) : EngineResult :=
  if s.scratchAdmitted then (if s.tablesReady then go else .fault .tcacheHazard) else .fault .memNotAdmitted

/-- The rest of stage 3, Fill (R218). -/
def stageFill (s : State) : EngineResult :=
  s.fillGuard (.more ((State.fillBlock^[sweepBlocks - s.seq.sweepPos] s).enter .derive))

/-- One micro-step of stage 3. -/
def tickFill (s : State) : EngineResult :=
  s.fillGuard <| .more <|
    if s.seq.sweepPos < sweepBlocks then
      (if s.fillBlock.seq.sweepPos < sweepBlocks then s.fillBlock else s.fillBlock.enter .derive)
    else s.enter .derive

/-! Stage 4. -/

/-- The Block of stage 4 made of lanes `i`, `i + 1` of S, each XORed with the lane 4 further on (R219). -/
def keyMaterialXor (state : Bytes 200) (i : Nat) (h : i ≤ 2 := by omega) : Block :=
  mkBlock (lane state i (by omega) ^^^ lane state (i + 4) (by omega))
    (lane state (i + 1) (by omega) ^^^ lane state (i + 5) (by omega))

/-- Stage 4, Derive working registers (R219). -/
def stageDerive (s : State) : State :=
  { s with a := keyMaterialXor s.sponge 0, b := keyMaterialXor s.sponge 2 }.enter .mix

/-! Stage 5. -/

/-- `idx(x)`: bits 20:4 of lane 0 (R220). -/
def scratchIndex (x : Block) : BitVec 17 := (lane x 0 (by omega)).extractLsb' 4 17

/-- The full product of two lanes (R17, R222). -/
def mulLanes (x y : Lane) : BitVec 128 := x.setWidth 128 * y.setWidth 128

/-- Mixing step 1 (R221). -/
def State.mixStep1 (s : State) : State :=
  let j := scratchIndex s.a
  let c := aesRoundBlock s.tables (s.scrRead j) s.a
  { s.scrWrite j (xorBytes c s.b) with j := j, c := c, e := s.a, a := c }

/-- `P` of R222: the low lanes of a and of the block that step 2 reads, multiplied in full. -/
def State.mixProduct (s : State) : BitVec 128 :=
  mulLanes (lane s.a 0 (by omega)) (lane (s.scrRead (scratchIndex s.a)) 0 (by omega))

/-- `d` of R222: e plus the product's halves, lane by lane. -/
def State.mixSum (s : State) : Block :=
  mkBlock (lane s.e 0 (by omega) + s.mixProduct.extractLsb' 64 64)
    (lane s.e 1 (by omega) + s.mixProduct.extractLsb' 0 64)

/-- Mixing step 2 (R222). -/
def State.mixStep2 (s : State) : State :=
  let j := scratchIndex s.a
  let c := s.scrRead j
  { s.scrWrite j s.mixSum with
    j := j
    c := c
    hi := s.mixProduct.extractLsb' 64 64
    lo := s.mixProduct.extractLsb' 0 64
    d := s.mixSum
    b := s.a
    a := xorBytes c s.mixSum }

/-- One iteration of the mixing loop (R223), after which `hi`, `lo` and `j` are unspecified (R53; log 26). No agent moves
between its two steps. -/
def State.mixIteration (s : State) : State :=
  let t := s.mixStep1.mixStep2.releaseMix
  { t with seq := { t.seq with n := t.seq.n + 1 } }

/-- A part of stage 5 or 6 reads tables: no table-cache hazard (R92). -/
def State.tableGuard (s : State) (go : EngineResult) : EngineResult :=
  if s.tablesReady then go else .fault .tcacheHazard

/-- The rest of stage 5, Mix (R223). -/
def stageMix (s : State) : EngineResult :=
  s.tableGuard (.more ((State.mixIteration^[mixIters - s.seq.n] s).enter .rekey))

/-- One micro-step of stage 5: one iteration. -/
def tickMix (s : State) : EngineResult :=
  s.tableGuard <| .more <|
    if s.seq.n < mixIters then
      (if s.mixIteration.seq.n < mixIters then s.mixIteration else s.mixIteration.enter .rekey)
    else s.enter .rekey

/-! Stage 6. -/

/-- The first part of stage 6, Fold back: the seed blocks again and the second key (R225, R227). -/
def stageRekey (s : State) : EngineResult :=
  s.loadText.importKey (slice s.sponge 32 32 (by omega)) .fold

/-- One turn of stage 6's inner loop (R225). -/
def State.foldBlock (s : State) : State :=
  let x := pseudoEncrypt s.tables (xorBytes s.text[s.seq.k] (s.scrRead s.seq.sweepBlock)) s.hk
  { s with text := s.text.set s.seq.k.val x, seq := s.seq.nextBlock }

/-- The rest of stage 6's sweep (R225). -/
def stageFold (s : State) : EngineResult :=
  s.tableGuard (.more ((State.foldBlock^[sweepBlocks - s.seq.sweepPos] s).enter .writeBack))

/-- One micro-step of stage 6's sweep. -/
def tickFold (s : State) : EngineResult :=
  s.tableGuard <| .more <|
    if s.seq.sweepPos < sweepBlocks then
      (if s.foldBlock.seq.sweepPos < sweepBlocks then s.foldBlock else s.foldBlock.enter .writeBack)
    else s.enter .writeBack

/-- The eight working blocks one after another (R225). -/
def textBytes (text : Vector Block 8) : Bytes 128 :=
  Vector.ofFn fun i => text[i.val / 16][i.val % 16]

/-- The end of stage 6: `text` into the seed region of S (R225, R42). HASH_CORE then completes (R230). -/
def stageWriteBack (c : HashKind) (s : State) : EngineResult :=
  let t := { s with sponge := splice s.sponge 64 (textBytes s.text) }
  match c with
  | .core => .ended (t.endHash 0)
  | .full => .more (t.enter .finalize)

/-! Stage 7. -/

/-- The selector: the two low bits of byte 0 of the permuted state (R226). -/
def finisherSelector (state : Bytes 200) : BitVec 2 := state[0].extractLsb' 0 2

/-- Stage 7, Finalize, and the completion of HASH (R226, R231). -/
def stageFinalize (s : State) : EngineResult :=
  let permuted := Config.permute s.sponge
  .ended ({ s with
    sponge := permuted
    digest := Config.finisher (finisherSelector permuted) permuted 200 }.endHash 0)

/-! The sequencer. -/

/-- One micro-step of a hash command. -/
def engineTick (c : HashKind) (s : State) : EngineResult :=
  match s.seq.stage with
  | .check => stageCheck c s
  | .absorb => stageAbsorb s
  | .seed => stageSeed s
  | .fill => tickFill s
  | .derive => .more (stageDerive s)
  | .mix => tickMix s
  | .rekey => stageRekey s
  | .fold => tickFold s
  | .writeBack => stageWriteBack c s
  | .finalize => stageFinalize s

/-- The rest of a command from stage 7 on. -/
def runFinalize (s : State) : Host.Outcome State Fault Refusal := (stageFinalize s).outcome

/-- The rest of a command from the end of stage 6 on. -/
def runWriteBack (c : HashKind) (s : State) : Host.Outcome State Fault Refusal :=
  (stageWriteBack c s).andThen runFinalize

/-- The rest of a command from stage 6's sweep on. -/
def runFold (c : HashKind) (s : State) : Host.Outcome State Fault Refusal :=
  (stageFold s).andThen (runWriteBack c)

/-- The rest of a command from stage 6 on. -/
def runRekey (c : HashKind) (s : State) : Host.Outcome State Fault Refusal :=
  (stageRekey s).andThen (runFold c)

/-- The rest of a command from stage 5 on. -/
def runMix (c : HashKind) (s : State) : Host.Outcome State Fault Refusal := (stageMix s).andThen (runRekey c)

/-- The rest of a command from stage 4 on. -/
def runDerive (c : HashKind) (s : State) : Host.Outcome State Fault Refusal := runMix c (stageDerive s)

/-- The rest of a command from stage 3 on. -/
def runFill (c : HashKind) (s : State) : Host.Outcome State Fault Refusal := (stageFill s).andThen (runDerive c)

/-- The rest of a command from stage 2 on. -/
def runSeed (c : HashKind) (s : State) : Host.Outcome State Fault Refusal := (stageSeed s).andThen (runFill c)

/-- The rest of a command from stage 1 on. -/
def runAbsorb (c : HashKind) (s : State) : Host.Outcome State Fault Refusal := (stageAbsorb s).andThen (runSeed c)

/-- A command from its check on: HASH through stage 1, HASH_CORE from stage 2 (R210). -/
def runCheck (c : HashKind) (s : State) : Host.Outcome State Fault Refusal :=
  (stageCheck c s).andThen (match c with | .core => runSeed c | .full => runAbsorb c)

/-- The rest of a hash command, from wherever the sequencer stands (R210). -/
def engineRun (c : HashKind) (s : State) : Host.Outcome State Fault Refusal :=
  match s.seq.stage with
  | .check => runCheck c s
  | .absorb => runAbsorb c s
  | .seed => runSeed c s
  | .fill => runFill c s
  | .derive => runDerive c s
  | .mix => runMix c s
  | .rekey => runRekey c s
  | .fold => runFold c s
  | .writeBack => runWriteBack c s
  | .finalize => runFinalize s

end Sys2Proof.Machine
end

