-- ==== Sys2Proof/Machine/HashCommands.lean ====
section
/-! DEFINITION. The hash commands HASH_CORE and HASH (43_hash_engine.md R230, R231): the engine from its first check
to the command's end. -/

namespace Sys2Proof.Machine

/-- HASH_CORE (R230): stages 2 to 6 on the SpongeState in STATE. -/
def execHashCore (s : State) : Host.Outcome State Fault Refusal := engineRun .core (s.enter .check)

/-- HASH (R231): stages 1 to 7. -/
def execHash (s : State) : Host.Outcome State Fault Refusal := engineRun .full (s.enter .check)

end Sys2Proof.Machine
end

