-- ==== Sys2Proof/Machine/KeyCommands.lean ====
section
/-! DEFINITION. The key-schedule commands SETKEY_ENC and SETKEY_DEC (41_aes_key_schedule.md R176 to R178). -/

namespace Sys2Proof.Machine

/-- What both commands do once the key size is known: latch KEY (R55), expand it into EK and set ROUNDS and
EK_VALID (R177, R178). The EK words above the schedule are unspecified (R47; log 7). -/
def State.setEncryptKey (s : State) (bits : Nat) : State :=
  { s with
    ksave := s.key
    ek := storeSchedule (keyExpansion s.tables s.key bits) fun i => Config.free 32 s.draws i
    rounds := BitVec.ofNat 32 (roundsOf bits)
    status := s.status.withKeys true false }

/-- What SETKEY_DEC adds: DK, derived from the schedule of the same key, and DK_VALID (R178). The DK words above
the schedule are unspecified (R48; log 7). -/
def State.setDecryptKey (s : State) (bits : Nat) : State :=
  { s with
    dk := storeSchedule (deriveDecrypt s.tables (keyExpansion s.tables s.ksave bits) (roundsOf bits)) fun i =>
      Config.free 32 s.draws (60 + i)
    status := s.status.withKeys true true }

/-- SETKEY_ENC (R176, R177). -/
def execSetkeyEnc (ksz : KeySize) (s : State) : Host.Outcome State Fault Refusal :=
  match keyBits ksz with
  | none => .next (s.finish 1)
  | some bits =>
    if s.tablesReady then .next ((s.setEncryptKey bits).releaseKeyLatch.finish 0)
    else .fault .tcacheHazard

/-- SETKEY_DEC (R176, R178). -/
def execSetkeyDec (ksz : KeySize) (s : State) : Host.Outcome State Fault Refusal :=
  match keyBits ksz with
  | none => .next (s.finish 1)
  | some bits =>
    if s.tablesReady then .next (((s.setEncryptKey bits).setDecryptKey bits).releaseKeyLatch.finish 0)
    else .fault .tcacheHazard

end Sys2Proof.Machine
end

