-- ==== Sys2Proof/Machine/Dispatch.lean ====
section
/-! DEFINITION. Dispatch: one arm per command, each one call of its meaning (30_encoding.md R106, R108). -/

namespace Sys2Proof.Machine

/-- The rule of a command, from its start to its end, on the state in which it was accepted. -/
def exec (i : Instr) (s : State) : Host.Outcome State Fault Refusal :=
  match i with
  | .nop => Sys2Proof.Machine.execNop s
  | .setkeyEnc ksz => Sys2Proof.Machine.execSetkeyEnc ksz s
  | .setkeyDec ksz => Sys2Proof.Machine.execSetkeyDec ksz s
  | .encrypt => Sys2Proof.Machine.execEncrypt s
  | .decrypt => Sys2Proof.Machine.execDecrypt s
  | .aesRound => Sys2Proof.Machine.execAesRound s
  | .hashCore => Sys2Proof.Machine.execHashCore s
  | .hash => Sys2Proof.Machine.execHash s

end Sys2Proof.Machine
end

