-- ==== Sys2Proof/Machine/Operands.lean ====
section
/-! DEFINITION. The operand registers and every other register of the window: the map of 30_encoding.md R101, the
packing of 20_memory.md R70, HostRead and HostWrite of R102, and a bus access by address (R72, R87). -/

namespace Sys2Proof.Machine

/-- The registers of R101. -/
inductive Reg where
  | id
  | cap
  | ctrl
  | status
  | cmd
  | rounds
  | dataAddrLo
  | dataAddrHi
  | dataLenLo
  | dataLenHi
  | scratchAddrLo
  | scratchAddrHi
  | key (i : Fin 8)
  | din (i : Fin 4)
  | dout (i : Fin 4)
  | rkey (i : Fin 4)
  | digest (i : Fin 8)
  | state (i : Fin 50)
  | reserved
  deriving DecidableEq, Repr

/-- The register at byte offset `o` of the window (R101). An offset that is no multiple of 4 is never asked for. -/
def regAt (o : Nat) : Reg :=
  if o = 0x000 then .id
  else if o = 0x004 then .cap
  else if o = 0x008 then .ctrl
  else if o = 0x00C then .status
  else if o = 0x010 then .cmd
  else if o = 0x014 then .rounds
  else if o = 0x018 then .dataAddrLo
  else if o = 0x01C then .dataAddrHi
  else if o = 0x020 then .dataLenLo
  else if o = 0x024 then .dataLenHi
  else if o = 0x028 then .scratchAddrLo
  else if o = 0x02C then .scratchAddrHi
  else if h : 0x040 ≤ o ∧ o < 0x060 then .key ⟨(o - 0x040) / 4, by omega⟩
  else if h : 0x060 ≤ o ∧ o < 0x070 then .din ⟨(o - 0x060) / 4, by omega⟩
  else if h : 0x070 ≤ o ∧ o < 0x080 then .dout ⟨(o - 0x070) / 4, by omega⟩
  else if h : 0x080 ≤ o ∧ o < 0x090 then .rkey ⟨(o - 0x080) / 4, by omega⟩
  else if h : 0x090 ≤ o ∧ o < 0x0B0 then .digest ⟨(o - 0x090) / 4, by omega⟩
  else if h : 0x100 ≤ o ∧ o < 0x1C8 then .state ⟨(o - 0x100) / 4, by omega⟩
  else .reserved

/-- Register `i` of a byte buffer: byte 4i in bits 7:0 (R70). -/
def bufferWord {n : Nat} (v : Bytes n) (i : Nat) (h : 4 * i + 4 ≤ n) : Word :=
  v[4 * i + 3] ++ v[4 * i + 2] ++ v[4 * i + 1] ++ v[4 * i]

/-- A byte buffer after a write of `w` to its register `i` (R70, R102). -/
def setBufferWord {n : Nat} (v : Bytes n) (i : Nat) (w : Word) : Bytes n :=
  Vector.ofFn fun p =>
    if 4 * i ≤ p.val ∧ p.val < 4 * i + 4 then w.extractLsb' (8 * (p.val - 4 * i)) 8 else v[p]

/-- The `_LO` half of a 64-bit register (R40, R70). -/
def lowHalf (x : BitVec 64) : Word := x.extractLsb' 0 32

/-- The `_HI` half of a 64-bit register (R40, R70). -/
def highHalf (x : BitVec 64) : Word := x.extractLsb' 32 32

/-- A 64-bit register after a write of its `_LO` half. -/
def setLowHalf (x : BitVec 64) (v : Word) : BitVec 64 := highHalf x ++ v

/-- A 64-bit register after a write of its `_HI` half. -/
def setHighHalf (x : BitVec 64) (v : Word) : BitVec 64 := v ++ lowHalf x

/-- ID (R34). -/
def idWord : Word := 0x4A4F484E

/-- CAP (R35). -/
def capWord (p : Platform) : Word :=
  (0 : BitVec 27) ++ (0b111 : BitVec 3) ++ BitVec.ofBool p.tcache ++ BitVec.ofBool p.hwRound

/-- `HostRead` (R102). -/
def State.readReg (s : State) : Reg → Word
  | .id => idWord
  | .cap => capWord s.platform
  | .ctrl => (BitVec.ofBool s.irqEn).setWidth 32
  | .status => s.status.word
  | .cmd => 0
  | .rounds => s.rounds
  | .dataAddrLo => lowHalf s.dataAddr
  | .dataAddrHi => highHalf s.dataAddr
  | .dataLenLo => lowHalf s.dataLen
  | .dataLenHi => highHalf s.dataLen
  | .scratchAddrLo => lowHalf s.scratchAddr
  | .scratchAddrHi => highHalf s.scratchAddr
  | .key i => bufferWord s.key i.val (by omega)
  | .din i => bufferWord s.din i.val (by omega)
  | .dout i => bufferWord s.dout i.val (by omega)
  | .rkey i => bufferWord s.rkey i.val (by omega)
  | .digest i => bufferWord s.digest i.val (by omega)
  | .state i => bufferWord s.stateBuf i.val (by omega)
  | .reserved => 0

/-- The operand registers (R45). -/
def Reg.isOperand : Reg → Bool
  | .dataAddrLo | .dataAddrHi | .dataLenLo | .dataLenHi | .scratchAddrLo | .scratchAddrHi => true
  | .key _ | .din _ | .rkey _ | .state _ => true
  | .id | .cap | .ctrl | .status | .cmd | .rounds | .dout _ | .digest _ | .reserved => false

/-- The write of an operand register while BUSY = 0 (R102); any other register is left alone. -/
def State.writeOperand (s : State) (v : Word) : Reg → State
  | .dataAddrLo => { s with dataAddr := setLowHalf s.dataAddr v }
  | .dataAddrHi => { s with dataAddr := setHighHalf s.dataAddr v }
  | .dataLenLo => { s with dataLen := setLowHalf s.dataLen v }
  | .dataLenHi => { s with dataLen := setHighHalf s.dataLen v }
  | .scratchAddrLo => { s with scratchAddr := setLowHalf s.scratchAddr v }
  | .scratchAddrHi => { s with scratchAddr := setHighHalf s.scratchAddr v }
  | .key i => { s with key := setBufferWord s.key i.val v }
  | .din i => { s with din := setBufferWord s.din i.val v }
  | .rkey i => { s with rkey := setBufferWord s.rkey i.val v }
  | .state i => { s with stateBuf := setBufferWord s.stateBuf i.val v }
  | .id | .cap | .ctrl | .status | .cmd | .rounds | .dout _ | .digest _ | .reserved => s

/-- `HostWrite` (R102): CTRL and STATUS at once whatever BUSY is (R253, R254), CMD as a command request (R108), an
operand register unless BUSY (R45), a read-only or reserved register not at all (R255). -/
def State.writeReg (s : State) (r : Reg) (v : Word) : State :=
  match r with
  | .ctrl => { s with irqEn := v.getLsbD 0 }
  | .status => { s with status := s.status.clearedBy v }
  | .cmd => s.commandRequest v
  | r =>
    if r.isOperand then
      (if s.status.busy then { s with status := s.status.overrun } else s.writeOperand v r)
    else s

/-- A bus access reaches the register window: it starts in it or some byte of it lies in it (R101, log 17). -/
def reachesRegisters (p : Platform) (addr : BitVec 64) (width : Nat) : Bool :=
  (registerWindow p).touches addr.toNat (max width 1)

/-- The offset of an address from P_BASE (R101). -/
def offsetOf (p : Platform) (addr : BitVec 64) : Nat := (addr - pBase p).toNat

/-- A register access is an aligned 32-bit access (R72). -/
def alignedAccess (addr : BitVec 64) (width : Nat) : Bool := decide (width = 4) && addr.extractLsb' 0 2 == 0

/-- The 32-bit value of four bytes on the bus, lowest first (R70). -/
def busWord (data : List Byte) : Word := data.getD 3 0 ++ data.getD 2 0 ++ data.getD 1 0 ++ data.getD 0 0

/-- A bus agent reads `width` bytes at `addr`: a register (R102), else memory (R87). An access that reaches the register
window is no race, also where a window of the running command overlaps it (R101, R257; log 30). -/
def State.busRead (s : State) (addr : BitVec 64) (width : Nat) :
    Host.Outcome State Fault Refusal :=
  if reachesRegisters s.platform addr width then
    if alignedAccess addr width then
      .next { s with response := some (.word (s.readReg (regAt (offsetOf s.platform addr)))) }
    else .fault .busAccess
  else
    match s.accessFault addr width false with
    | some f => .fault f
    | none => .next { s with response := some (.bytes (s.mem.readBytes addr width)) }

/-- A bus agent writes `data` at `addr`: a register (R102), else memory (R87). An access that reaches the register
window is no race, also where a window of the running command overlaps it (R101, R257; log 30). -/
def State.busWrite (s : State) (addr : BitVec 64) (data : List Byte) :
    Host.Outcome State Fault Refusal :=
  if reachesRegisters s.platform addr data.length then
    if alignedAccess addr data.length then
      .next (s.writeReg (regAt (offsetOf s.platform addr)) (busWord data))
    else .fault .busAccess
  else
    match s.accessFault addr data.length true with
    | some f => .fault f
    | none => .next { s with mem := s.mem.writeBytes addr data }

end Sys2Proof.Machine
end

