-- ==== Sys2Proof/Machine/TableCache.lean ====
section
/-! DEFINITION. The optional table cache TC: its lanes, its barrier and its release (20_memory.md R90 to R93). A
step of an agent that is not enabled changes nothing (R28's hold; log 18). -/

namespace Sys2Proof.Machine

/-- `dst` with the slots that `which` picks copied from `src`. -/
def copySlots (which : TableId → Nat → Bool) (src dst : LookupTables) : LookupTables where
  te0 := Vector.ofFn fun i => if which .te0 i.val then src.te0[i] else dst.te0[i]
  te1 := Vector.ofFn fun i => if which .te1 i.val then src.te1[i] else dst.te1[i]
  te2 := Vector.ofFn fun i => if which .te2 i.val then src.te2[i] else dst.te2[i]
  te3 := Vector.ofFn fun i => if which .te3 i.val then src.te3[i] else dst.te3[i]
  td0 := Vector.ofFn fun i => if which .td0 i.val then src.td0[i] else dst.td0[i]
  td1 := Vector.ofFn fun i => if which .td1 i.val then src.td1[i] else dst.td1[i]
  td2 := Vector.ofFn fun i => if which .td2 i.val then src.td2[i] else dst.td2[i]
  td3 := Vector.ofFn fun i => if which .td3 i.val then src.td3[i] else dst.td3[i]
  td4 := Vector.ofFn fun i => if which .td4 i.val then src.td4[i] else dst.td4[i]
  rcon := Vector.ofFn fun i => if which .rcon i.val then src.rcon[i] else dst.rcon[i]

/-- Slot `e` of table `t` as a word, none where the table has no such slot. -/
def tableSlot (T : LookupTables) (t : TableId) (e : Nat) : Option Word :=
  match t with
  | .te0 => T.te0[e]?
  | .te1 => T.te1[e]?
  | .te2 => T.te2[e]?
  | .te3 => T.te3[e]?
  | .td0 => T.td0[e]?
  | .td1 => T.td1[e]?
  | .td2 => T.td2[e]?
  | .td3 => T.td3[e]?
  | .td4 => T.td4[e]?.map (BitVec.setWidth 32)
  | .rcon => T.rcon[e]?

/-- The slots lane `l` copies: those whose index is `l` modulo P_GROUP_LANES, in every table (R90). -/
def laneShare (p : Platform) (l : Nat) : TableId → Nat → Bool := fun _ e => e % p.groupLanes == l

/-- TC_ARRIVED[l] (R61). -/
def State.arrived (s : State) (l : Nat) : Bool := s.tcArrived.getD l false

/-- Every lane has arrived (R91). -/
def State.allArrived (s : State) : Bool := (List.range s.platform.groupLanes).all s.arrived

/-- Lane `l` has copied its whole share: copying it again changes nothing (R90; log 18). -/
def State.shareCopied (s : State) (l : Nat) : Bool := copySlots (laneShare s.platform l) rom s.tc == s.tc

/-- Lane `l` exists (R12, R61). -/
def State.hasLane (s : State) (l : Nat) : Bool := s.platform.tcache && decide (l < s.platform.groupLanes)

/-- One step of lane `l`, which acts only during population (R25, R288): copy one entry of its share, arrive once its
share is copied (R90), or read a slot too early (R92). What a lane reads goes nowhere (log 18). -/
def State.laneStep (s : State) (l : Nat) (action : LaneAction) : Host.Outcome State Fault Refusal :=
  if s.hasLane l then
    match action with
    | .copy t e =>
      .next <|
        if s.phase = .tcfill ∧ s.arrived l = false ∧ laneShare s.platform l t e then
          { s with tc := copySlots (fun t' e' => t' == t && e' == e) rom s.tc }
        else s
    | .arrive =>
      .next <|
        if s.phase = .tcfill ∧ s.shareCopied l then { s with tcArrived := s.tcArrived.set l true } else s
    | .lookup t e =>
      if s.phase = .tcfill ∧ s.tcValid = false ∧ (tableSlot s.tc t e).isSome then .fault .tcacheHazard else .next s
  else .next s

/-- The release step (R91), which lifts the hold of a command accepted during population (R93). -/
def State.release (s : State) : State :=
  if s.phase = .tcfill ∧ s.allArrived then
    { s with tcValid := true, phase := if s.status.busy then .run else .idle }
  else s

/-- Population with no event pending: the first lane that has not arrived copies its share and arrives; once all
have, the barrier releases (log 18). -/
def State.populate (s : State) : State :=
  match (List.range s.platform.groupLanes).find? fun l => !s.arrived l with
  | some l =>
    { s with
      tc := copySlots (laneShare s.platform l) rom s.tc
      tcArrived := s.tcArrived.set l true }
  | none => s.release

end Sys2Proof.Machine
end

