-- ==== Sys2Proof/Machine/Agents.lean ====
section
/-! DEFINITION. What each agent does when it moves (00_scope.md R25): the block's sequencer, and the events of the
world around it (60_exceptions.md R279). Step.lean only picks which. -/

namespace Sys2Proof.Machine

/-- Which hash command an instruction is, if it is one. -/
def hashKind : Instr → Option HashKind
  | .hashCore => some .core
  | .hash => some .full
  | .nop => none
  | .setkeyEnc _ => none
  | .setkeyDec _ => none
  | .encrypt => none
  | .decrypt => none
  | .aesRound => none

/-- The running command to its end: `exec` from the start of its rule, the rest of it from a later stage. A latched
Illegal word, held through population, completes with ERR = 3 (R93, R108, R110). -/
def State.runCommand (s : State) : Host.Outcome State Fault Refusal :=
  match decode s.cmdl with
  | .error _ => .next (s.finish 3)
  | .ok i =>
    if s.seq.stage = .check then exec i s
    else
      match hashKind i with
      | some c => engineRun c s
      | none => exec i s

/-- One micro-step of the running command (log 1). A command that is no hash command has only one. -/
def State.tickCommand (s : State) : Host.Outcome State Fault Refusal :=
  match decode s.cmdl with
  | .error _ => .next (s.finish 3)
  | .ok i =>
    match hashKind i with
    | some c => (engineTick c s).outcome
    | none => exec i s

/-- The block's move when no event is pending: nothing in IDLE (R305), the running command in RUN, population in
TCFILL, where a command is held (R93). -/
def State.blockStep (s : State) : Host.Outcome State Fault Refusal :=
  match s.phase with
  | .idle => .next s
  | .run => s.runCommand
  | .tcfill => .next s.populate

/-- The sequencer's turn as an event: no step is enabled in IDLE, nor in TCFILL, where a command is held (R93). -/
def State.sequencerStep (s : State) : Host.Outcome State Fault Refusal :=
  match s.phase with
  | .idle => .next s
  | .run => s.tickCommand
  | .tcfill => .next s

/-- One event. -/
def State.eventStep (s : State) (ev : Event) : Host.Outcome State Fault Refusal :=
  match ev with
  | .hostRead addr width => s.busRead addr width
  | .hostWrite addr data => s.busWrite addr data
  | .sequencer => s.sequencerStep
  | .lane l action => s.laneStep l action
  | .barrier => .next s.release
  | .reset => .next s.resetBlock

end Sys2Proof.Machine
end

