-- ==== Sys2Proof/Machine/Step.lean ====
section
/-! DEFINITION. One step of the machine, and the state in which the next step runs a given command word. -/

namespace Sys2Proof.Machine

/-- One step: a fault is kept for good (R276, R302); else the oldest event happens; else the block moves. -/
def step (s : State) : Host.Outcome State Fault Refusal :=
  match s.fault with
  | some f => .fault f
  | none =>
    match s.events with
    | [] => s.blockStep
    | ev :: rest => State.eventStep { s with events := rest } ev

/-- `s` as it stands once a host has written the command word to CMD and it was accepted (R108), with the table cache
released, no fault and no event before it: the block fetches nothing (R31), so this stands for that write (log 2). -/
def State.withFetchWord (s : State) (nbits w : Nat) : State :=
  { s with
    cmdl := tableWord nbits w
    status := s.status.accepted
    phase := .run
    seq := Sequencer.start
    tc := rom
    tcValid := true
    tcArrived := List.replicate s.platform.groupLanes true
    heldMem := none
    fault := none
    events := [] }

end Sys2Proof.Machine
end

