-- ==== Sys2Proof/Safety/ByteAes.lean ====
section
/-! DEFINITION. AES at byte level, written from the transformations of 40_aes_primitives.md R151 and the recurrences of
41_aes_key_schedule.md R170 and R174, without the lookup tables. The machine does not use it: claims compare the
table-driven path with it. -/

namespace Sys2Proof.Machine.ByteAes

/-- SubBytes (R151). -/
def subBytes (b : Block) : Block := Vector.ofFn fun i => sbox b[i]

/-- InvSubBytes (R151). -/
def invSubBytes (b : Block) : Block := Vector.ofFn fun i => invSbox b[i]

/-- ShiftRows: row r of column c + r goes to row r of column c (R151). Byte `4 c + r` is row r of column c. -/
def shiftRows (b : Block) : Block := Vector.ofFn fun i => b[4 * ((i.val / 4 + i.val % 4) % 4) + i.val % 4]

/-- InvShiftRows: row r of column c goes to row r of column c + r (R151). -/
def invShiftRows (b : Block) : Block := Vector.ofFn fun i => b[4 * ((i.val / 4 + (4 - i.val % 4)) % 4) + i.val % 4]

/-- One row of a column times the circulant matrix whose first row is `m`: row `r` has `m` moved right by `r`. -/
def circulantRow (m : Vector Byte 4) (r : Nat) (a0 a1 a2 a3 : Byte) : Byte :=
  gfMul m[(4 - r % 4) % 4] a0 ^^^ gfMul m[(5 - r % 4) % 4] a1 ^^^ gfMul m[(6 - r % 4) % 4] a2 ^^^
    gfMul m[(7 - r % 4) % 4] a3

/-- The first row of MixColumns (R151). -/
def mixRow : Vector Byte 4 := #v[0x02, 0x03, 0x01, 0x01]

/-- The first row of InvMixColumns (R151). -/
def invMixRow : Vector Byte 4 := #v[0x0e, 0x0b, 0x0d, 0x09]

/-- Every column of a Block times a circulant matrix. -/
def circulant (m : Vector Byte 4) (b : Block) : Block :=
  Vector.ofFn fun i =>
    circulantRow m (i.val % 4) b[4 * (i.val / 4)] b[4 * (i.val / 4) + 1] b[4 * (i.val / 4) + 2]
      b[4 * (i.val / 4) + 3]

/-- MixColumns (R151). -/
def mixColumns (b : Block) : Block := circulant mixRow b

/-- InvMixColumns (R151). -/
def invMixColumns (b : Block) : Block := circulant invMixRow b

/-- InvMixColumns of one schedule word, which is a column (R146, R151). -/
def invMixColumnWord (v : Word) : Word :=
  let f := fun r => circulantRow invMixRow r (byte3 v) (byte2 v) (byte1 v) (byte0 v)
  wordOfBytes (f 0) (f 1) (f 2) (f 3)

/-- The single AES round: SubBytes, ShiftRows, MixColumns, then the key (R151, R152). -/
def round (b k : Block) : Block := xorBytes (mixColumns (shiftRows (subBytes b))) k

/-- Round key `r` of a schedule as bytes: schedule word `4 r + c` is column c (R172). -/
def keyOf (w : Vector Word 60) (r : Nat) : Block :=
  Vector.ofFn fun i => putByte (scheduleWord w (4 * r + i.val / 4)) (i.val % 4)

/-- The AES cipher: key, `nr - 1` full rounds, a round without MixColumns (R151, R190). -/
def encrypt (inp : Block) (w : Vector Word 60) (nr : Nat) : Block :=
  let s := (List.range (nr - 1)).foldl (fun s r => round s (keyOf w (r + 1))) (xorBytes inp (keyOf w 0))
  xorBytes (shiftRows (subBytes s)) (keyOf w nr)

/-- The equivalent inverse cipher on a decryption schedule (R151, R191). -/
def decryptEquivalent (inp : Block) (v : Vector Word 60) (nr : Nat) : Block :=
  let s := (List.range (nr - 1)).foldl
    (fun s r => xorBytes (invMixColumns (invShiftRows (invSubBytes s))) (keyOf v (r + 1))) (xorBytes inp (keyOf v 0))
  xorBytes (invShiftRows (invSubBytes s)) (keyOf v nr)

/-- SubWord: the substitution of each byte (R145). -/
def subWord (t : Word) : Word :=
  wordOfBytes (sbox (byte3 t)) (sbox (byte2 t)) (sbox (byte1 t)) (sbox (byte0 t))

/-- RotWord: the first byte moves to the end (R145). -/
def rotWord (t : Word) : Word := wordOfBytes (byte2 t) (byte1 t) (byte0 t) (byte3 t)

/-- `w` begins with KeyExpansion of the first `bits / 8` bytes of `key`: the recurrence of R170, word by word. -/
def IsKeySchedule (key : Bytes 32) (bits : Nat) (w : Vector Word 60) : Prop :=
  let nk := bits / 32
  let nr := roundsOf bits
  (∀ i, i < nk → scheduleWord w i = keyWord key i) ∧
    ∀ i, nk ≤ i → i < 4 * (nr + 1) →
      scheduleWord w i = scheduleWord w (i - nk) ^^^
        (let t := scheduleWord w (i - 1)
         if i % nk = 0 then subWord (rotWord t) ^^^ wordOfBytes (rcByte (i / nk - 1)) 0 0 0
         else if nk = 8 ∧ i % 8 = 4 then subWord t
         else t)

/-- `v` begins with the decryption schedule of `w`: groups reversed, all but the first and the last mixed (R173, R174). -/
def IsDecryptSchedule (w v : Vector Word 60) (nr : Nat) : Prop :=
  ∀ r c, r ≤ nr → c < 4 →
    scheduleWord v (4 * r + c) =
      if 1 ≤ r ∧ r < nr then invMixColumnWord (scheduleWord w (4 * (nr - r) + c))
      else scheduleWord w (4 * (nr - r) + c)

end Sys2Proof.Machine.ByteAes
end

