-- ==== Sys2Proof/Safety/EngineSpec.lean ====
section
/-! DEFINITION. What HASH_CORE computes, as a function of the 200 bytes alone (43_hash_engine.md R216 to R225, R232):
no memory, no counters, the scratchpad as a function from block index to Block, arithmetic on numbers. The machine does
not use it: claims compare the machine with it. -/

namespace Sys2Proof.Machine.EngineSpec

/-- The schedule of a 32-byte key slice (R213). -/
def schedule (key : Bytes 32) : Vector Word 60 := storeSchedule (keyExpansion rom key 256) fun _ => 0

/-- The ten-round pseudo-encryption under a key slice, with byte-level rounds (R151, R153). -/
def pseudo (key : Bytes 32) (b : Block) : Block :=
  (List.range 10).foldl (fun x r => ByteAes.round x (ByteAes.keyOf (schedule key) r)) b

/-- The fill key and the fold-back key (R42). -/
def fillKey (S : Bytes 200) : Bytes 32 := slice S 0 32 (by omega)

/-- The fold-back key (R42). -/
def foldKey (S : Bytes 200) : Bytes 32 := slice S 32 32 (by omega)

/-- Seed block `k` (R42). -/
def seed (S : Bytes 200) (k : Fin 8) : Block := slice S (64 + 16 * k.val) 16 (by omega)

/-- The scratchpad after stage 3: block `8 i + k` is seed block `k` encrypted `i + 1` times (R218). -/
def filled (S : Bytes 200) (j : BitVec 17) : Block :=
  (pseudo (fillKey S))^[j.toNat / 8 + 1] (seed S ⟨j.toNat % 8, by omega⟩)

/-- The value of a lane: the sum of R19. -/
def laneValue (b : Block) (i : Fin 2) : Nat := ((List.range 8).map fun k => (b[8 * i.val + k]?.getD 0).toNat * 256 ^ k).sum

/-- The Block of two lane values, modulo 2^64 (R17, R19). -/
def ofLanes (l0 l1 : Nat) : Block :=
  Vector.ofFn fun i => BitVec.ofNat 8 ((if i.val < 8 then l0 else l1) / 256 ^ (i.val % 8))

/-- `idx(x)` (R220). -/
def index (x : Block) : BitVec 17 := BitVec.ofNat 17 (laneValue x 0 / 16)

/-- The registers a and b and the scratchpad of the mixing loop. -/
structure Mix where
  a : Block
  b : Block
  scratch : BitVec 17 → Block

/-- A scratchpad with one block replaced. -/
def store (m : BitVec 17 → Block) (j : BitVec 17) (x : Block) : BitVec 17 → Block :=
  fun i => if i = j then x else m i

/-- One iteration of the mixing loop (R221 to R223). -/
def mixOnce (m : Mix) : Mix :=
  let c := ByteAes.round (m.scratch (index m.a)) m.a
  let scratch := store m.scratch (index m.a) (xorBytes c m.b)
  let c2 := scratch (index c)
  let product := laneValue c 0 * laneValue c2 0
  let d := ofLanes (laneValue m.a 0 + product / 2 ^ 64) (laneValue m.a 1 + product % 2 ^ 64)
  { a := xorBytes c2 d, b := c, scratch := store scratch (index c) d }

/-- The mixing loop's start: the filled scratchpad, and a and b from the key material, byte by byte (R219). -/
def mixStart (S : Bytes 200) : Mix where
  a := xorBytes (slice S 0 16 (by omega)) (slice S 32 16 (by omega))
  b := xorBytes (slice S 16 16 (by omega)) (slice S 48 16 (by omega))
  scratch := filled S

/-- The scratchpad after stage 5 (R223). -/
def mixed (S : Bytes 200) : BitVec 17 → Block := (mixOnce^[mixIters] (mixStart S)).scratch

/-- Working block `k` after stage 6: the sweep over the blocks `8 i + k` (R225). -/
def folded (S : Bytes 200) (k : Fin 8) : Block :=
  (List.range fillIters).foldl
    (fun x i => pseudo (foldKey S) (xorBytes x (mixed S (BitVec.ofNat 17 (8 * i + k.val))))) (seed S k)

/-- The SpongeState after stage 6: only the seed region changes (R225). -/
def core (S : Bytes 200) : Bytes 200 :=
  Vector.ofFn fun i =>
    if h : 64 ≤ i.val ∧ i.val < 192 then (folded S ⟨(i.val - 64) / 16, by omega⟩)[(i.val - 64) % 16] else S[i]

end Sys2Proof.Machine.EngineSpec
end

