-- ==== Sys2Proof/Safety.lean ====
section
/-! DEFINITION. The terms claims use: the events of a register access, what counts as a safe run and a finished one
(00_scope.md R28, 70_reset_and_hazards.md R321), the state a run is in once a fault has been raised (60_exceptions.md
R276), when a command may run, and the invariants of the machine. -/

namespace Sys2Proof.Machine

/-! Register accesses as events (R101, R102). -/

/-- The four bytes of a 32-bit value on the bus, lowest first (R70). -/
def busBytes (v : Word) : List Byte := [byte0 v, byte1 v, byte2 v, byte3 v]

/-- An aligned 32-bit write of `v` at offset `o` of the register window. -/
def regWrite (p : Platform) (o : Nat) (v : Word) : Event := .hostWrite (pBase p + BitVec.ofNat 64 o) (busBytes v)

/-- An aligned 32-bit read at offset `o` of the register window. -/
def regRead (p : Platform) (o : Nat) : Event := .hostRead (pBase p + BitVec.ofNat 64 o) 4

/-- Whatever comes after it, the event `ev` takes the machine from `s` to `t`. -/
def State.Takes (s : State) (ev : Event) (t : State) : Prop :=
  ∀ rest, step { s with events := ev :: rest } = .next { t with events := rest }

/-- The event `ev` raises the fault `f`. -/
def State.FaultsOn (s : State) (ev : Event) (f : Fault) : Prop :=
  ∀ rest, step { s with events := ev :: rest } = .fault f

/-- A read at offset `o` returns `v` and changes nothing (R73). -/
def State.ReadsAs (s : State) (o : Nat) (v : Word) : Prop :=
  s.Takes (regRead s.platform o) { s with response := some (.word v) }

/-- A write of `v` at offset `o` takes the machine from `s` to `t`. -/
def State.Writes (s : State) (o : Nat) (v : Word) (t : State) : Prop := s.Takes (regWrite s.platform o v) t

/-- A register access at `o` is aligned and inside the window (R72, R101). -/
def isOffset (o : Nat) : Prop := o < 0x400 ∧ o % 4 = 0

/-- The offsets of the operand registers DATA_ADDR, DATA_LEN, SCRATCH_ADDR, KEY, DIN, RKEY, STATE (R45, R101). -/
def operandOffset (o : Nat) : Prop :=
  isOffset o ∧ (0x018 ≤ o ∧ o < 0x030 ∨ 0x040 ≤ o ∧ o < 0x070 ∨ 0x080 ≤ o ∧ o < 0x090 ∨ 0x100 ≤ o ∧ o < 0x1C8)

/-- The offsets of the read-only registers ID, CAP, ROUNDS, DOUT, DIGEST (R101, R255). -/
def readOnlyOffset (o : Nat) : Prop :=
  isOffset o ∧ (o = 0x000 ∨ o = 0x004 ∨ o = 0x014 ∨ 0x070 ≤ o ∧ o < 0x080 ∨ 0x090 ≤ o ∧ o < 0x0B0)

/-- The reserved offsets (R43, R101). -/
def reservedOffset (o : Nat) : Prop :=
  isOffset o ∧ (0x030 ≤ o ∧ o < 0x040 ∨ 0x0B0 ≤ o ∧ o < 0x100 ∨ 0x1C8 ≤ o)

/-- Some byte lies both in `[a, a + m)` and in `[b, b + n)`. -/
def overlap (a m b n : Nat) : Prop := ∃ x, a ≤ x ∧ x < a + m ∧ b ≤ x ∧ x < b + n

/-- The `n` bytes at `addr` are memory: at least one byte, none past 2^64 - 1, none in the register window (R13, R101). -/
def State.inMemory (s : State) (addr : BitVec 64) (n : Nat) : Prop :=
  0 < n ∧ addr.toNat + n ≤ 2 ^ 64 ∧ ¬ overlap addr.toNat n (pBase s.platform).toNat 0x400

/-- R113's table: the legal command words. -/
def legalWords : List (Word × Instr) :=
  [(0x00000000, .nop),
   (0x00000001, .setkeyEnc .bits128), (0x00000101, .setkeyEnc .bits192),
   (0x00000201, .setkeyEnc .bits256), (0x00000301, .setkeyEnc .unsupported),
   (0x00000002, .setkeyDec .bits128), (0x00000102, .setkeyDec .bits192),
   (0x00000202, .setkeyDec .bits256), (0x00000302, .setkeyDec .unsupported),
   (0x00000003, .encrypt), (0x00000004, .decrypt), (0x00000005, .aesRound),
   (0x00000006, .hashCore), (0x00000007, .hash)]

/-- The next event is a write on the bus. -/
def State.seesWrite (s : State) : Prop := ∃ addr data rest, s.events = .hostWrite addr data :: rest

/-- The next event is a bus access whose address and number of bytes meet `P`. -/
def State.accesses (s : State) (P : Nat → Nat → Prop) : Prop :=
  ∃ rest, (∃ addr n, s.events = .hostRead addr n :: rest ∧ P addr.toNat n) ∨
    ∃ addr data, s.events = .hostWrite addr data :: rest ∧ P addr.toNat data.length

/-- The next event is a reset. -/
def State.seesReset (s : State) : Prop := ∃ rest, s.events = .reset :: rest

/-! Runs. -/

/-- The state after one step, with a raised fault latched in FAULT (R63, R276). No step is ever refused. -/
def State.advance (s : State) : State :=
  match step s with
  | .next t => t
  | .fault f => s.latchFault f
  | .refused _ => s

/-- A state from which nothing undefined has happened (R28). -/
def State.Good (s : State) : Prop := s.fault = none

/-- A run has ended: nothing left to do, no command in flight, PHASE = IDLE, no fault (R321). -/
def State.Finished (s : State) : Prop :=
  s.events = [] ∧ s.status.busy = false ∧ s.phase = .idle ∧ s.fault = none

/-- A hash command is in flight, and so uses its scratch window (R78). -/
def State.usesScratch (s : State) : Bool := s.status.busy && s.latchedHash

/-- The scratch window of the hash command in flight, if there is one. -/
def State.scratchInUse (s : State) : List Window := if s.usesScratch then [s.scratchWindow] else []

/-- The scratch windows that hash commands use in the `n` steps from `s` on (R321). -/
def State.scratchUsed : Nat → State → List Window
  | 0, s => s.scratchInUse
  | n + 1, s =>
    s.scratchInUse ++
      match step s with
      | .next t => State.scratchUsed n t
      | .fault _ => []
      | .refused _ => []

/-- What is observed at the end of a run (R321). -/
structure Observation where
  /-- What each host-visible register reads as, by its number in the window: register `i` is at offset `4 i` (R101, R102;
  no internal register, log 28). -/
  register : Nat → Word
  /-- The byte of memory at each address, none inside a scratch window used in the run and none where the address is no
  memory (R13, R101). -/
  memory : Nat → Option Byte

/-- An address is memory, and in none of the windows. -/
def observable (p : Platform) (used : List Window) (x : Nat) : Bool :=
  decide (x < 2 ^ 64) && !(registerWindow p).touches x 1 && used.all fun w => !w.touches x 1

/-- The observation of a state at the end of a run that used these scratch windows (R321). That "the block's registers" are
those a host can read, without EK, DK and CMDL, is the model's choice (log 28). -/
def State.observe (s : State) (used : List Window) : Observation where
  register i := s.readReg (regAt (4 * i))
  memory x := if observable s.platform used x then some (s.mem.read x) else none

/-- The command `i` is in phase RUN, at stage `g` of its rule (R60). -/
def State.Running (s : State) (i : Instr) (g : Stage) : Prop :=
  s.fault = none ∧ s.phase = .run ∧ decode s.cmdl = .ok i ∧ s.seq.stage = g

/-- The status after a command ends with the error code `err` (R271): the valid flags and OVR kept. -/
def Status.ended (t : Status) (err : BitVec 4) : Status := ⟨false, true, t.ovr, err, t.ekValid, t.dkValid⟩

/-- `t` differs from `s` at most in what a hash command writes: STATE, DIGEST, STATUS, the sequencer, the engine's own
registers, memory, and the model's draw counter (R107, R50 to R54). -/
def State.onlyHashEffects (s t : State) : Prop :=
  { t with
    stateBuf := s.stateBuf, digest := s.digest, status := s.status, phase := s.phase, seq := s.seq
    hk := s.hk, text := s.text, a := s.a, b := s.b, c := s.c, d := s.d, e := s.e, hi := s.hi, lo := s.lo
    j := s.j, sponge := s.sponge, mem := s.mem, draws := s.draws } = s

/-! When a command may run, and how it ends. -/

/-- Table lookups give the ROM's entries: there is no table cache, or it is released and equals the ROM (R92). -/
def State.TablesGood (s : State) : Prop := s.platform.tcache = true → s.tcValid = true ∧ s.tc = rom

/-- SCRATCH_ADDR is a multiple of 16 (R79, R211). -/
def State.alignedScratch (s : State) : Prop := s.scratchAddr.toNat % 16 = 0

/-- The platform admits the window (R12, R81). -/
def admitsWindow (p : Platform) (base : BitVec 64) (n : Nat) : Prop :=
  (base, n) ∈ p.admitted ∧ base.toNat + n ≤ 2 ^ 64 ∧ ¬ overlap base.toNat n (pBase p).toNat 0x400

/-- The platform admits the scratch window. -/
def State.scratchOpen (s : State) : Prop := admitsWindow s.platform s.scratchAddr (2 ^ 21)

/-- The data window is empty or admitted (R214). -/
def State.dataOpen (s : State) : Prop := s.dataLen = 0 ∨ admitsWindow s.platform s.dataAddr s.dataLen.toNat

/-- The platform accepts a key for import (R213). -/
def State.importsKey (s : State) (key : Bytes 32) : Prop := key ∉ s.platform.refusedKeys

/-- An address outside the scratch window. -/
def State.outsideScratch (s : State) (x : Nat) : Prop :=
  x < 2 ^ 64 ∧ (x < s.scratchAddr.toNat ∨ s.scratchAddr.toNat + 2 ^ 21 ≤ x)

/-- The bytes HASH reads in stage 1 (R214): its data window as at acceptance (R312). -/
def State.dataBytes (s : State) : List Byte := s.dataMem.readBytes s.dataAddr s.dataLen.toNat

/-- The SpongeState a hash command starts stage 2 from (R214, R230). -/
def State.sponge0 (s : State) : HashKind → Bytes 200
  | .core => s.stateBuf
  | .full => Config.absorb s.dataBytes

/-- The hash command of each kind. -/
def HashKind.instr : HashKind → Instr
  | .core => .hashCore
  | .full => .hash

/-- The command `i` completes with the error code `err` (R270, R271). -/
def State.completesWith (s : State) (i : Instr) (err : BitVec 4) : Prop :=
  ∃ t, exec i s = .next t ∧ t.status.err = err ∧ t.status.busy = false ∧ t.status.done = true ∧
    t.status.ovr = s.status.ovr ∧ t.phase = .idle

/-- A hash command gets to stage 2: its checks 4 and 5 of R278 pass. -/
def State.reachesSeed (s : State) (c : HashKind) : Prop := s.alignedScratch ∧ (c = .full → s.dataOpen)

/-- A hash command gets to stage 6: its checks 4 to 7 of R278 pass. -/
def State.reachesFold (s : State) (c : HashKind) : Prop :=
  s.reachesSeed c ∧ s.importsKey (EngineSpec.fillKey (s.sponge0 c)) ∧ s.scratchOpen

/-- A hash command succeeds: all its checks of R278 pass. -/
def State.hashSucceeds (s : State) (c : HashKind) : Prop :=
  s.reachesFold c ∧ s.importsKey (EngineSpec.foldKey (s.sponge0 c))

/-! Invariants. -/

/-- The host context is consistent (R49). -/
structure State.ContextInv (s : State) : Prop where
  /-- EK_VALID = 1: EK is the schedule of some key of the size that ROUNDS tells. -/
  ek : s.status.ekValid = true →
    ∃ key bits, (bits = 128 ∨ bits = 192 ∨ bits = 256) ∧ s.rounds = BitVec.ofNat 32 (roundsOf bits) ∧
      ByteAes.IsKeySchedule key bits s.ek
  /-- DK_VALID = 1: EK_VALID = 1, and DK is the derivation of the current EK. -/
  dk : s.status.dkValid = true →
    s.status.ekValid = true ∧ ByteAes.IsDecryptSchedule s.ek s.dk s.rounds.toNat
  /-- EK_VALID = 0: ROUNDS = 0. -/
  noKey : s.status.ekValid = false → s.rounds = 0

/-- The table cache is never wrong where it may be read (R61, R91, R92). -/
structure State.CacheInv (s : State) : Prop where
  /-- One TC_ARRIVED flag per lane. -/
  lanes : s.tcArrived.length = s.platform.groupLanes
  /-- After the release TC equals the ROM. -/
  valid : s.platform.tcache = true → s.tcValid = true → s.tc = rom
  /-- A lane that has arrived has copied its share. -/
  arrived : ∀ l, l < s.platform.groupLanes → s.arrived l = true → s.shareCopied l = true
  /-- With a table cache, PHASE is TCFILL exactly until the release. -/
  phase : s.platform.tcache = true → (s.phase = .tcfill ↔ s.tcValid = false)
  /-- Without one, PHASE is never TCFILL. -/
  noCache : s.platform.tcache = false → s.phase ≠ .tcfill

/-- STATUS and PHASE agree (R37, R60, R270, R272). -/
structure State.StatusInv (s : State) : Prop where
  /-- RUN: BUSY = 1. -/
  run : s.phase = .run → s.status.busy = true
  /-- IDLE: BUSY = 0. -/
  idle : s.phase = .idle → s.status.busy = false
  /-- While a command runs or is held, DONE and ERR read 0. -/
  busy : s.status.busy = true → s.status.done = false ∧ s.status.err = 0
  /-- ERR is one of the codes 0 to 5. -/
  err : s.status.err.toNat ≤ 5

/-- A running hash command has passed the checks of the stages behind it (R211, R212). -/
structure State.WindowInv (s : State) : Prop where
  /-- Outside RUN the sequencer stands at the start of a rule. -/
  start : s.phase ≠ .run → s.seq.stage = .check
  /-- Past its check, SCRATCH_ADDR is aligned. -/
  aligned : s.phase = .run → s.latchedHash = true → s.seq.stage ≠ .check → s.alignedScratch
  /-- Past stage 3, the scratch window is admitted. -/
  admitted : s.phase = .run → s.latchedHash = true → 4 ≤ s.seq.stage.number → s.scratchOpen

/-- The sequencer's counters are in R60's ranges. -/
structure State.CounterInv (s : State) : Prop where
  /-- `i` is at most 16383. -/
  i : s.seq.i < fillIters
  /-- `n` is at most 2^19 - 1. -/
  n : s.seq.n < mixIters

end Sys2Proof.Machine
end

