-- ==== Sys2Proof/Certificates/Slice0/Obligations.lean ====
section
/-! DEFINITION. The statements for the provers, family by family. Each docstring names the rules of spec/ it states. -/

open Sys2Proof Sys2Proof.Machine

/-! ## Encoding (30_encoding.md) -/

/-- R104 to R106: decoding an encoded command gives it back, for every command and key size, and a word that decodes
to a command is that command's encoding, so no bit of a legal word is dropped. -/
def Obligations.DecodeAndEncodeAgree : Prop :=
  (∀ i : Instr, decode (encode i) = .ok i) ∧ ∀ (w : Word) (i : Instr), decode w = .ok i → w = encode i

/-- R113: the fourteen legal words and their commands, every other word is Illegal, and the words of the unsupported
size fail with ERR = 1. -/
def Obligations.LegalWordsAreTheFourteen : Prop :=
  (∀ (w : Word) (i : Instr), decode w = .ok i ↔ (w, i) ∈ legalWords) ∧
    (∀ w : Word, (∀ i, (w, i) ∉ legalWords) → ∃ e, decode w = .error e) ∧
    ∀ s : State, s.completesWith (.setkeyEnc .unsupported) 1 ∧ s.completesWith (.setkeyDec .unsupported) 1

/-- R110: the three cases in which a word is Illegal; the Illegal command completes at once with ERR = 3 and changes
nothing else but the latched word (R108). Written during population it is accepted and held like any command (R93, what
is kept of memory is log 27), and completes with ERR = 3 when it runs, by a step of the block or of the sequencer. That
acceptance and completion are one step outside population is log 13, where it leaves the sequencer log 29. -/
def Obligations.IllegalWordsCompleteWithErrorThree : Prop :=
  (∀ w : Word, (∃ e, decode w = .error e) ↔
    8 ≤ (w.extractLsb' 0 8).toNat ∨ w.extractLsb' 10 22 ≠ 0 ∨
      (w.extractLsb' 8 2 ≠ 0 ∧ w.extractLsb' 0 8 ≠ 1 ∧ w.extractLsb' 0 8 ≠ 2)) ∧
    (∀ (s : State) (w : Word) (e : DecodeError), s.Good → s.status.busy = false → decode w = .error e →
      (s.phase ≠ .tcfill →
        s.Writes 0x010 w
          { s with cmdl := w, status := s.status.ended 3, phase := .idle, seq := .start, heldMem := none }) ∧
      (s.phase = .tcfill →
        s.Writes 0x010 w { s with
          cmdl := w
          status := ⟨true, false, s.status.ovr, 0, s.status.ekValid, s.status.dkValid⟩
          seq := .start
          heldMem := some s.mem })) ∧
    ∀ (s : State) (e : DecodeError), s.Good → s.phase = .run → decode s.cmdl = .error e →
      (s.events = [] → step s = .next { s with status := s.status.ended 3, phase := .idle, seq := .start }) ∧
        s.Takes .sequencer { s with status := s.status.ended 3, phase := .idle, seq := .start }

/-- Words written out bit by bit from R104 to R106, one of each command, and one word for each check of R110. -/
def Obligations.WordsWrittenFromTheSpecDecode : Prop :=
  decode (0b00000000000000000000000000000000) = .ok .nop ∧
    decode (0b00000000000000000000000100000001) = .ok (.setkeyEnc .bits192) ∧
    decode (0b00000000000000000000001000000010) = .ok (.setkeyDec .bits256) ∧
    decode (0b00000000000000000000000000000011) = .ok .encrypt ∧
    decode (0b00000000000000000000000000000100) = .ok .decrypt ∧
    decode (0b00000000000000000000000000000101) = .ok .aesRound ∧
    decode (0b00000000000000000000000000000110) = .ok .hashCore ∧
    decode (0b00000000000000000000000000000111) = .ok .hash ∧
    decode (0b00000000000000000000010000000000) = .error .reservedBits ∧
    decode (0b00000000000000000000000000001000) = .error .reservedOpcode ∧
    decode (0b00000000000000000000000100000011) = .error .keySizeNotAllowed

/-! ## Steps: acceptance, running, holding -/

/-- R108: with no event pending, a step in RUN at the start of a rule is `exec` of the command that the latched word
decodes to, on this state; so is an event of the sequencer in RUN where the command is no hash command (that the whole
command is one step is log 1). -/
def Obligations.StepRunsTheLatchedCommand : Prop :=
  (∀ (s : State) (i : Instr), s.Running i .check → s.events = [] → step s = exec i s) ∧
    ∀ (s : State) (i : Instr) (g : Stage) (rest : List Event), s.Running i g → (∀ c : HashKind, i ≠ c.instr) →
      s.events = .sequencer :: rest → step s = exec i { s with events := rest }

/-- R108, R272: a CMD write with BUSY = 0 latches a legal word, sets BUSY, clears DONE and ERR, keeps OVR and the valid
flags, and enters RUN, or stays in TCFILL to be held (log 14, log 27); once in RUN, the next step with no event pending
runs the whole command (that this is one step is log 1, where acceptance puts the sequencer log 29). -/
def Obligations.CommandWriteIsAccepted : Prop :=
  ∀ (s : State) (w : Word) (i : Instr), s.Good → s.status.busy = false → decode w = .ok i →
    ∃ t, s.Writes 0x010 w t ∧
      t = { s with
        cmdl := w
        status := ⟨true, false, s.status.ovr, 0, s.status.ekValid, s.status.dkValid⟩
        phase := if s.phase = .tcfill then .tcfill else .run
        seq := .start
        heldMem := if s.phase = .tcfill then some s.mem else none } ∧
      (s.phase ≠ .tcfill → step { t with events := [] } = exec i { t with events := [] })

/-- R45, R109: while BUSY = 1 a write to CMD or to an operand register sets OVR and changes nothing else. -/
def Obligations.WritesWhileBusyAreLost : Prop :=
  ∀ (s : State) (o : Nat) (v : Word), s.Good → s.status.busy = true → o = 0x010 ∨ operandOffset o →
    s.Writes o v { s with status := { s.status with ovr := true } }

/-- R44, R314: while a command runs or is held, no step but a host write or a reset changes a host-visible register:
the results appear only at the step in which BUSY falls. -/
def Obligations.ResultsAppearOnlyAtCompletion : Prop :=
  ∀ s t : State, step s = .next t → s.status.busy = true → t.status.busy = true → ¬ s.seesWrite → ¬ s.seesReset →
    t.dout = s.dout ∧ t.digest = s.digest ∧ t.stateBuf = s.stateBuf ∧ t.rounds = s.rounds ∧ t.status = s.status ∧
      t.irqEn = s.irqEn ∧ t.key = s.key ∧ t.din = s.din ∧ t.rkey = s.rkey ∧ t.dataAddr = s.dataAddr ∧
      t.dataLen = s.dataLen ∧ t.scratchAddr = s.scratchAddr ∧ t.ek = s.ek ∧ t.dk = s.dk

/-- R93: a command accepted in TCFILL does not complete before the release: a step either leaves it held or, when every
lane has arrived, releases it into RUN; its word, the operand registers, the result registers and the schedules are kept
(what PHASE holds meanwhile is log 14), and so is the memory it was accepted with (log 27). -/
def Obligations.HeldCommandWaitsForTheRelease : Prop :=
  ∀ s t : State, step s = .next t → s.phase = .tcfill → s.status.busy = true → ¬ s.seesReset →
    t.status.busy = true ∧ t.cmdl = s.cmdl ∧ t.dout = s.dout ∧ t.digest = s.digest ∧ t.stateBuf = s.stateBuf ∧
      t.rounds = s.rounds ∧ t.key = s.key ∧ t.din = s.din ∧ t.rkey = s.rkey ∧ t.dataAddr = s.dataAddr ∧
      t.dataLen = s.dataLen ∧ t.scratchAddr = s.scratchAddr ∧ t.ek = s.ek ∧ t.dk = s.dk ∧ t.heldMem = s.heldMem ∧
      (t.phase = .tcfill ∨
        (t.phase = .run ∧ t.tcValid = true ∧ ∀ l, l < s.platform.groupLanes → s.arrived l = true))

/-- R28, R113: no step is refused: every word has its meaning. -/
def Obligations.NoStepIsRefused : Prop := ∀ (s : State) (r : Refusal), step s ≠ .refused r

/-- A micro-step of a hash command (an event of the sequencer, log 1) followed by running the command to its end is the
same as running it to its end; where the micro-step itself ends the command, or raises a fault, so does the whole rest,
with the same state or fault: both ways of stepping are one machine. -/
def Obligations.MicroStepThenRestIsTheWholeRest : Prop :=
  ∀ (s : State) (c : HashKind) (g : Stage), s.Running c.instr g → s.events = [.sequencer] →
    (∀ t, step s = .next t →
      (t.phase = .run ∧ step t = step { s with events := [] }) ∨
        (t.phase = .idle ∧ step { s with events := [] } = .next t)) ∧
    ∀ f, step s = .fault f → step { s with events := [] } = .fault f

/-! ## Registers (10_state.md, 20_memory.md, 30_encoding.md, 44_control.md) -/

/-- R101, R102: what an aligned read returns at every offset of the window, and that it changes nothing (R73), also
where a running command's window overlaps the register window (log 30). -/
def Obligations.ReadsReturnTheRegisters : Prop :=
  ∀ s : State, s.Good →
    s.ReadsAs 0x000 0x4A4F484E ∧
    s.ReadsAs 0x004 (BitVec.ofNat 32 (28 + 2 * s.platform.tcache.toNat + s.platform.hwRound.toNat)) ∧
    s.ReadsAs 0x008 (BitVec.ofNat 32 s.irqEn.toNat) ∧
    s.ReadsAs 0x00C (BitVec.ofNat 32 (s.status.busy.toNat + 2 * s.status.done.toNat + 4 * s.status.ovr.toNat +
      16 * s.status.err.toNat + 256 * s.status.ekValid.toNat + 512 * s.status.dkValid.toNat)) ∧
    s.ReadsAs 0x010 0 ∧
    s.ReadsAs 0x014 s.rounds ∧
    s.ReadsAs 0x018 (BitVec.ofNat 32 s.dataAddr.toNat) ∧
    s.ReadsAs 0x01C (BitVec.ofNat 32 (s.dataAddr.toNat / 2 ^ 32)) ∧
    s.ReadsAs 0x020 (BitVec.ofNat 32 s.dataLen.toNat) ∧
    s.ReadsAs 0x024 (BitVec.ofNat 32 (s.dataLen.toNat / 2 ^ 32)) ∧
    s.ReadsAs 0x028 (BitVec.ofNat 32 s.scratchAddr.toNat) ∧
    s.ReadsAs 0x02C (BitVec.ofNat 32 (s.scratchAddr.toNat / 2 ^ 32)) ∧
    (∀ o, reservedOffset o → s.ReadsAs o 0) ∧
    (∀ i : Fin 8, ∃ w, s.ReadsAs (0x040 + 4 * i) w ∧ ∀ k : Fin 4, w.extractLsb' (8 * k) 8 = s.key[4 * i.val + k.val]) ∧
    (∀ i : Fin 4, ∃ w, s.ReadsAs (0x060 + 4 * i) w ∧ ∀ k : Fin 4, w.extractLsb' (8 * k) 8 = s.din[4 * i.val + k.val]) ∧
    (∀ i : Fin 4, ∃ w, s.ReadsAs (0x070 + 4 * i) w ∧ ∀ k : Fin 4, w.extractLsb' (8 * k) 8 = s.dout[4 * i.val + k.val]) ∧
    (∀ i : Fin 4, ∃ w, s.ReadsAs (0x080 + 4 * i) w ∧ ∀ k : Fin 4, w.extractLsb' (8 * k) 8 = s.rkey[4 * i.val + k.val]) ∧
    (∀ i : Fin 8, ∃ w, s.ReadsAs (0x090 + 4 * i) w ∧
      ∀ k : Fin 4, w.extractLsb' (8 * k) 8 = s.digest[4 * i.val + k.val]) ∧
    (∀ i : Fin 50, ∃ w, s.ReadsAs (0x100 + 4 * i) w ∧
      ∀ k : Fin 4, w.extractLsb' (8 * k) 8 = s.stateBuf[4 * i.val + k.val])

/-- R70, R102, R310: with BUSY = 0 a write to an operand register sets exactly the bits or bytes of that register, byte
`4i` of a buffer from bits 7:0 and so on, leaves every other piece of state alone, and reads back. -/
def Obligations.OperandWritesSetTheirRegister : Prop :=
  ∀ (s : State) (v : Word), s.Good → s.status.busy = false →
    s.Writes 0x018 v { s with dataAddr := s.dataAddr.extractLsb' 32 32 ++ v } ∧
    s.Writes 0x01C v { s with dataAddr := v ++ s.dataAddr.extractLsb' 0 32 } ∧
    s.Writes 0x020 v { s with dataLen := s.dataLen.extractLsb' 32 32 ++ v } ∧
    s.Writes 0x024 v { s with dataLen := v ++ s.dataLen.extractLsb' 0 32 } ∧
    s.Writes 0x028 v { s with scratchAddr := s.scratchAddr.extractLsb' 32 32 ++ v } ∧
    s.Writes 0x02C v { s with scratchAddr := v ++ s.scratchAddr.extractLsb' 0 32 } ∧
    (∀ i : Fin 8, ∃ key, s.Writes (0x040 + 4 * i) v { s with key := key } ∧
      (∀ k : Fin 4, key[4 * i.val + k.val] = v.extractLsb' (8 * k) 8) ∧
      ∀ p : Fin 32, p.val / 4 ≠ i → key[p] = s.key[p]) ∧
    (∀ i : Fin 4, ∃ din, s.Writes (0x060 + 4 * i) v { s with din := din } ∧
      (∀ k : Fin 4, din[4 * i.val + k.val] = v.extractLsb' (8 * k) 8) ∧
      ∀ p : Fin 16, p.val / 4 ≠ i → din[p] = s.din[p]) ∧
    (∀ i : Fin 4, ∃ rkey, s.Writes (0x080 + 4 * i) v { s with rkey := rkey } ∧
      (∀ k : Fin 4, rkey[4 * i.val + k.val] = v.extractLsb' (8 * k) 8) ∧
      ∀ p : Fin 16, p.val / 4 ≠ i → rkey[p] = s.rkey[p]) ∧
    (∀ i : Fin 50, ∃ buf, s.Writes (0x100 + 4 * i) v { s with stateBuf := buf } ∧
      (∀ k : Fin 4, buf[4 * i.val + k.val] = v.extractLsb' (8 * k) 8) ∧
      ∀ p : Fin 200, p.val / 4 ≠ i → buf[p] = s.stateBuf[p]) ∧
    ∀ o, operandOffset o → ∃ t, s.Writes o v t ∧ t.ReadsAs o v

/-- R253: a write to CTRL sets IRQ_EN from bit 0, whatever BUSY is, never sets OVR, and moves `irq` at once. -/
def Obligations.ControlWriteSetsInterruptEnable : Prop :=
  ∀ (s : State) (v : Word), s.Good →
    s.Writes 0x008 v { s with irqEn := v.getLsbD 0 } ∧
      State.irq { s with irqEn := v.getLsbD 0 } = (v.getLsbD 0 && s.status.done)

/-- R254: a write to STATUS clears DONE by bit 1 and OVR by bit 2, whatever BUSY is, and nothing else; a write of 0
changes nothing; a write of 2 lowers `irq`. -/
def Obligations.StatusWriteClearsDoneAndOverrun : Prop :=
  ∀ (s : State) (v : Word), s.Good →
    s.Writes 0x00C v { s with status := { s.status with
      done := if v.getLsbD 1 then false else s.status.done
      ovr := if v.getLsbD 2 then false else s.status.ovr } } ∧
    s.Writes 0x00C 0 s ∧
    ∃ t, s.Writes 0x00C 2 t ∧ t.irq = false ∧ t.status.err = s.status.err

/-- R255, R43: a write to a read-only or reserved offset changes no state, OVR included, whatever BUSY is; a reserved
offset and CMD read 0. -/
def Obligations.ReadOnlyAndReservedWritesAreIgnored : Prop :=
  ∀ (s : State) (o : Nat) (v : Word), s.Good →
    (readOnlyOffset o ∨ reservedOffset o → s.Writes o v s) ∧ (reservedOffset o → s.ReadsAs o 0) ∧ s.ReadsAs 0x010 0

/-- R34, R35, R251, R252: no step changes the platform, so CAP and ID read the same in every state of a run. -/
def Obligations.IdentificationAndCapabilityNeverChange : Prop :=
  ∀ s t : State, step s = .next t →
    t.platform = s.platform ∧
      (t.Good → t.ReadsAs 0x000 0x4A4F484E ∧
        t.ReadsAs 0x004 (BitVec.ofNat 32 (28 + 2 * s.platform.tcache.toNat + s.platform.hwRound.toNat)))

/-- R72: a host access to the register window that is not four bytes wide, or not at a multiple of 4, raises
BUS_ACCESS, whatever else the machine is doing. -/
def Obligations.UnalignedRegisterAccessFaults : Prop :=
  ∀ (s : State) (addr : BitVec 64), s.Good →
    (pBase s.platform).toNat ≤ addr.toNat → addr.toNat < (pBase s.platform).toNat + 0x400 →
    (∀ width, width ≠ 4 ∨ addr.toNat % 4 ≠ 0 → s.FaultsOn (.hostRead addr width) .busAccess) ∧
      ∀ data : List Byte, data.length ≠ 4 ∨ addr.toNat % 4 ≠ 0 → s.FaultsOn (.hostWrite addr data) .busAccess

/-! ## Memory and races (20_memory.md) -/

/-- R74, R76, R77, R87: a host access to memory that meets no window of a running hash command reads or writes exactly
its bytes. -/
def Obligations.HostMemoryAccessReadsAndWritesItsBytes : Prop :=
  ∀ (s : State) (addr : BitVec 64) (n : Nat), s.Good → s.mem.wf → s.inMemory addr n →
    (s.phase = .run → s.latchedHash = true → ¬ overlap addr.toNat n s.scratchAddr.toNat (2 ^ 21)) →
    (∃ bytes : List Byte, s.Takes (.hostRead addr n) { s with response := some (.bytes bytes) } ∧ bytes.length = n ∧
      ∀ k, k < n → bytes[k]? = some (s.mem.read (addr.toNat + k))) ∧
    ∀ data : List Byte, data.length = n →
      (s.phase = .run → s.latched = some .hash → ¬ overlap addr.toNat n s.dataAddr.toNat s.dataLen.toNat) →
      ∃ m : Memory, s.Takes (.hostWrite addr data) { s with mem := m } ∧ m.wf ∧
        ∀ x, x < 2 ^ 64 →
          m.read x = if addr.toNat ≤ x ∧ x < addr.toNat + n then data.getD (x - addr.toNat) 0 else s.mem.read x

/-- R87: while a hash command is in RUN, a bus access to its scratch window raises SCRATCH_RACE; while a HASH is in RUN,
a bus write to its data window raises DATA_RACE, and a read of it is allowed, each where the access does not meet the
scratch window too; where it meets both windows the read and the write raise SCRATCH_RACE, which is the model's choice
(log 24). -/
def Obligations.RacesAreFaults : Prop :=
  ∀ (s : State) (addr : BitVec 64) (data : List Byte), s.Good → s.phase = .run → s.inMemory addr data.length →
    (s.latchedHash = true → overlap addr.toNat data.length s.scratchAddr.toNat (2 ^ 21) →
      s.FaultsOn (.hostRead addr data.length) .scratchRace ∧ s.FaultsOn (.hostWrite addr data) .scratchRace) ∧
    (s.latched = some .hash → overlap addr.toNat data.length s.dataAddr.toNat s.dataLen.toNat →
      ¬ overlap addr.toNat data.length s.scratchAddr.toNat (2 ^ 21) →
      s.FaultsOn (.hostWrite addr data) .dataRace ∧
        ∃ t, s.Takes (.hostRead addr data.length) t)

/-- R74, R77, R86, R300, R301: a step that is no bus write changes a byte of memory only inside the scratch window of
the hash command in flight; the platform admits that window, unless the change is the draw of a window whose command a
reset abandons (log 10) or ends with an error (log 9). So in a run whose bus writes all go to registers, no byte outside
the scratch windows used in it changes (R321). -/
def Obligations.BlockWritesOnlyItsScratchWindow : Prop :=
  (∀ s t : State, step s = .next t → s.StatusInv → s.WindowInv → s.mem.wf → ¬ s.seesWrite →
    ∀ x, x < 2 ^ 64 → t.mem.read x ≠ s.mem.read x →
      s.latchedHash = true ∧ s.status.busy = true ∧ ¬ s.outsideScratch x ∧
        (s.scratchOpen ∨ s.seesReset ∨ (t.status.busy = false ∧ t.status.err ≠ 0))) ∧
  ∀ (n : Nat) (s t : State), Sys2Proof.core.run n s = .next t → s.StatusInv → s.WindowInv → s.mem.wf →
    (∀ addr data, .hostWrite addr data ∈ s.events →
      overlap addr.toNat (max data.length 1) (pBase s.platform).toNat 0x400) →
    (t.observe (s.scratchUsed n)).memory = (s.observe (s.scratchUsed n)).memory

/-! ## Reset and faults (60_exceptions.md, 70_reset_and_hazards.md) -/

/-- R64: the values the spec gives for the state right after reset, on every platform. -/
def Obligations.ResetStateHoldsTheSpecifiedValues : Prop :=
  ∀ p : Platform,
    let s := State.resetOn p
    s.ReadsAs 0x000 0x4A4F484E ∧
    s.ReadsAs 0x004 (BitVec.ofNat 32 (28 + 2 * p.tcache.toNat + p.hwRound.toNat)) ∧
    s.irqEn = false ∧ s.status = ⟨false, false, false, 0, false, false⟩ ∧ s.rounds = 0 ∧
    s.dataAddr = 0 ∧ s.dataLen = 0 ∧ s.scratchAddr = 0 ∧
    (∀ k : Fin 32, s.key[k] = 0) ∧ (∀ k : Fin 16, s.din[k] = 0) ∧ (∀ k : Fin 16, s.rkey[k] = 0) ∧
    (∀ k : Fin 16, s.dout[k] = 0) ∧ (∀ k : Fin 32, s.digest[k] = 0) ∧ (∀ k : Fin 200, s.stateBuf[k] = 0) ∧
    s.cmdl = 0 ∧ s.phase = (if p.tcache then .tcfill else .idle) ∧ s.tcValid = false ∧
    (∀ l, s.arrived l = false) ∧ s.irq = false ∧ s.fault = none ∧ s.platform = p ∧
    State.reset = State.resetOn Config.platform

/-- R300, R301: reset, asserted in any state, gives every register its reset value and abandons the running command:
DONE is not set, the host context is lost; memory keeps every byte, but for the scratch window of a hash command that
was in flight (log 10). Of what has no reset value in the spec, the registers of log 5 are left out, and three more
take the model's own values: the stage and the counters i, k, n (log 5), no held memory (log 27), no bus response
(log 25). -/
def Obligations.ResetAbandonsTheCommand : Prop :=
  ∀ s : State, s.Good → s.mem.wf →
    ∃ t, s.Takes .reset t ∧
      { t with
        ek := s.ek, dk := s.dk, hk := s.hk, text := s.text, a := s.a, b := s.b, c := s.c, d := s.d, e := s.e
        hi := s.hi, lo := s.lo, j := s.j, sponge := s.sponge, ksave := s.ksave, bsave := s.bsave, tc := s.tc
        mem := s.mem, events := s.events, draws := s.draws } =
      { State.resetOn s.platform with
        ek := s.ek, dk := s.dk, hk := s.hk, text := s.text, a := s.a, b := s.b, c := s.c, d := s.d, e := s.e
        hi := s.hi, lo := s.lo, j := s.j, sponge := s.sponge, ksave := s.ksave, bsave := s.bsave, tc := s.tc
        mem := s.mem, events := s.events, draws := s.draws } ∧
      t.mem.wf ∧
      (s.status.busy = false ∨ s.latchedHash = false → t.mem = s.mem) ∧
      ∀ x, s.outsideScratch x → t.mem.read x = s.mem.read x

/-- R276, R302: a raised fault is set in FAULT, no step follows it, and nothing clears it, not even reset (how a
raised fault comes into FAULT is log 15). -/
def Obligations.FaultsArePermanent : Prop :=
  (∀ (s : State) (f : Fault), step s = .fault f → s.advance.fault = some f ∧ step s.advance = .fault f) ∧
    (∀ (s : State) (f : Fault), s.fault = some f → ∀ events, step { s with events := events } = .fault f) ∧
    ∀ s : State, s.resetBlock.fault = s.fault

/-- R277: where a step raises a fault, and of which kind: a register access that is not aligned, a window the platform
refuses, a race, a table read before the release; and a bus access past the end of the address space (log 16; an access that
straddles the register window is log 17). -/
def Obligations.FaultKindsHaveTheirCauses : Prop :=
  ∀ (s : State) (f : Fault), s.Good → step s = .fault f →
    (f = .busAccess → s.accesses fun addr n =>
      (n ≠ 4 ∨ addr % 4 ≠ 0) ∧ overlap addr (max n 1) (pBase s.platform).toNat 0x400) ∧
    (f = .memNotAdmitted → s.phase = .run ∧ s.latchedHash = true ∧ (¬ s.scratchOpen ∨ ¬ s.dataOpen)) ∧
    (f = .scratchRace → s.phase = .run ∧ s.latchedHash = true ∧
      s.accesses fun addr n => overlap addr n s.scratchAddr.toNat (2 ^ 21)) ∧
    (f = .dataRace → s.phase = .run ∧ s.latched = some .hash ∧ s.seesWrite ∧
      s.accesses fun addr n => overlap addr n s.dataAddr.toNat s.dataLen.toNat) ∧
    (f = .tcacheHazard → s.platform.tcache = true ∧ s.tcValid = false) ∧
    (f = .outsideMemory → s.accesses fun addr n => 2 ^ 64 < addr + n)

/-! ## The table cache (20_memory.md) -/

/-- R91, R93: the release is enabled only during population and only when every lane has arrived; it sets TC_VALID and
ends TCFILL, with RUN for a held command and IDLE without one (log 14); after it TC is not written until a reset (a step
that is not enabled changes nothing, log 18). -/
def Obligations.BarrierReleasesWhenAllLanesArrived : Prop :=
  (∀ s : State, s.Good → s.phase = .tcfill →
    ((∀ l, l < s.platform.groupLanes → s.arrived l = true) →
      s.Takes .barrier { s with tcValid := true, phase := if s.status.busy then .run else .idle }) ∧
    ((∃ l, l < s.platform.groupLanes ∧ s.arrived l = false) → s.Takes .barrier s)) ∧
  (∀ s : State, s.Good → s.phase ≠ .tcfill → s.Takes .barrier s) ∧
  ∀ s t : State, step s = .next t → s.CacheInv → s.platform.tcache = true → s.tcValid = true → ¬ s.seesReset →
    t.tcValid = true ∧ t.tc = s.tc

/-- R90, R25, R288: a lane's step copies one entry of its own share from the ROM; its arrival is enabled only once its
share is copied; outside population no step of a lane is enabled (a step that is not enabled changes nothing, log 18). -/
def Obligations.LanesCopyTheirShareThenArrive : Prop :=
  (∀ (s : State) (l : Nat) (action : LaneAction), s.Good → s.phase ≠ .tcfill → s.Takes (.lane l action) s) ∧
  ∀ (s : State) (l : Nat), s.Good → s.platform.tcache = true → s.phase = .tcfill → l < s.platform.groupLanes →
    (∀ (t : TableId) (e : Nat), s.arrived l = false → e % s.platform.groupLanes = l →
      ∃ u, s.Takes (.lane l (.copy t e)) u ∧ { u with tc := s.tc } = s ∧ tableSlot u.tc t e = tableSlot rom t e ∧
        ∀ t' e', (t', e') ≠ (t, e) → tableSlot u.tc t' e' = tableSlot s.tc t' e') ∧
    (∀ (t : TableId) (e : Nat), e % s.platform.groupLanes ≠ l → s.Takes (.lane l (.copy t e)) s) ∧
    ((∀ (t : TableId) (e : Nat), e % s.platform.groupLanes = l → tableSlot s.tc t e = tableSlot rom t e) →
      s.Takes (.lane l .arrive) { s with tcArrived := s.tcArrived.set l true }) ∧
    ((∃ (t : TableId) (e : Nat), e % s.platform.groupLanes = l ∧ tableSlot s.tc t e ≠ tableSlot rom t e) →
      s.Takes (.lane l .arrive) s)

/-- R92: a read of TC while TC_VALID = 0 raises TCACHE_HAZARD; after the release every slot of TC holds the ROM's entry,
and a lane's lookup changes nothing, because no lane acts any more (R25; that it changes nothing is the model's choice,
log 18); the block's own commands never read early, and their lookups are the ROM's. -/
def Obligations.EarlyTableReadIsAHazard : Prop :=
  (∀ (s : State) (l : Nat) (t : TableId) (e : Nat) (w : Word), s.Good → s.platform.tcache = true →
    l < s.platform.groupLanes → tableSlot rom t e = some w → s.CacheInv →
    (s.tcValid = false → s.FaultsOn (.lane l (.lookup t e)) .tcacheHazard) ∧
      (s.tcValid = true → tableSlot s.tc t e = some w ∧ s.Takes (.lane l (.lookup t e)) s)) ∧
  ∀ s : State, s.CacheInv → s.phase = .run →
    s.tables = rom ∧ ∀ ev rest, s.Good → s.events = [] ∨ s.events = ev :: rest ∧ ev = .sequencer →
      step s ≠ .fault .tcacheHazard

/-- R303: with no event pending, population ends after at most one step per lane and one for the release: TC equals the
ROM, and PHASE is IDLE, or RUN for a held command (the order of the lanes is log 18). -/
def Obligations.PopulationEnds : Prop :=
  ∀ s : State, s.Good → s.events = [] → s.phase = .tcfill → s.CacheInv →
    ∃ n t, n ≤ s.platform.groupLanes + 1 ∧ Sys2Proof.core.run n s = .next t ∧ t.tcValid = true ∧ t.tc = rom ∧
      t.phase = (if s.status.busy then .run else .idle) ∧
      { t with tc := s.tc, tcValid := s.tcValid, tcArrived := s.tcArrived, phase := s.phase } = s

/-! ## Commands: NOP, keys, blocks -/

/-- R250: NOP sets ERR = 0, BUSY = 0, DONE = 1 and PHASE = IDLE (R271) and changes nothing else (that the sequencer goes
back to the start of a rule is log 29). -/
def Obligations.NopOnlySetsStatus : Prop :=
  ∀ s : State, exec .nop s = .next { s with status := s.status.ended 0, phase := .idle, seq := .start }

/-- R176, R177: SETKEY_ENC of the unsupported size ends with ERR = 1 and changes nothing but STATUS; of another size it
writes the key's schedule to EK, Nr to ROUNDS, sets EK_VALID, clears DK_VALID, and changes nothing else but its own
latch (log 7) and the place of the sequencer (log 29). -/
def Obligations.SetkeyEncExpandsTheKey : Prop :=
  (∀ s : State, exec (.setkeyEnc .unsupported) s =
    .next { s with status := s.status.ended 1, phase := .idle, seq := .start }) ∧
  ∀ (s : State) (k : KeySize) (bits nr : Nat), (k, bits, nr) ∈
      [(KeySize.bits128, 128, 10), (KeySize.bits192, 192, 12), (KeySize.bits256, 256, 14)] → s.TablesGood →
    ∃ t, exec (.setkeyEnc k) s = .next t ∧ ByteAes.IsKeySchedule s.key bits t.ek ∧ t.rounds = BitVec.ofNat 32 nr ∧
      t.status = ⟨false, true, s.status.ovr, 0, true, false⟩ ∧ t.phase = .idle ∧
      { t with
        ek := s.ek, rounds := s.rounds, status := s.status, phase := s.phase, seq := s.seq
        ksave := s.ksave, draws := s.draws } = s

/-- R176, R178: SETKEY_DEC of the unsupported size ends with ERR = 1 and changes nothing but STATUS; of another size it
writes the key's schedule to EK and its derivation to DK, Nr to ROUNDS, sets both valid flags, and changes nothing else
but its own latch (log 7) and the place of the sequencer (log 29). -/
def Obligations.SetkeyDecDerivesTheSchedule : Prop :=
  (∀ s : State, exec (.setkeyDec .unsupported) s =
    .next { s with status := s.status.ended 1, phase := .idle, seq := .start }) ∧
  ∀ (s : State) (k : KeySize) (bits nr : Nat), (k, bits, nr) ∈
      [(KeySize.bits128, 128, 10), (KeySize.bits192, 192, 12), (KeySize.bits256, 256, 14)] → s.TablesGood →
    ∃ t, exec (.setkeyDec k) s = .next t ∧ ByteAes.IsKeySchedule s.key bits t.ek ∧
      ByteAes.IsDecryptSchedule t.ek t.dk nr ∧ t.rounds = BitVec.ofNat 32 nr ∧
      t.status = ⟨false, true, s.status.ovr, 0, true, true⟩ ∧ t.phase = .idle ∧
      { t with
        ek := s.ek, dk := s.dk, rounds := s.rounds, status := s.status, phase := s.phase, seq := s.seq
        ksave := s.ksave, draws := s.draws } = s

/-- R192: ENCRYPT without a key ends with ERR = 4 and leaves DOUT; with one it writes the AES encryption of DIN under EK
to DOUT and changes nothing else but its own latch (log 7) and the place of the sequencer (log 29). -/
def Obligations.EncryptWritesTheCipherOfDin : Prop :=
  ∀ s : State,
    (s.status.ekValid = false →
      exec .encrypt s = .next { s with status := s.status.ended 4, phase := .idle, seq := .start }) ∧
    (s.status.ekValid = true → s.TablesGood →
      ∃ t, exec .encrypt s = .next t ∧ t.dout = ByteAes.encrypt s.din s.ek s.rounds.toNat ∧
        t.status = s.status.ended 0 ∧ t.phase = .idle ∧
        { t with
          dout := s.dout, status := s.status, phase := s.phase, seq := s.seq, bsave := s.bsave, draws := s.draws } = s)

/-- R193: DECRYPT without a decryption schedule ends with ERR = 4 and leaves DOUT; with one it writes the equivalent
inverse cipher of DIN under DK to DOUT and changes nothing else but its own latch (log 7) and the place of the sequencer
(log 29). -/
def Obligations.DecryptWritesTheInverseCipherOfDin : Prop :=
  ∀ s : State,
    (s.status.dkValid = false →
      exec .decrypt s = .next { s with status := s.status.ended 4, phase := .idle, seq := .start }) ∧
    (s.status.dkValid = true → s.TablesGood →
      ∃ t, exec .decrypt s = .next t ∧ t.dout = ByteAes.decryptEquivalent s.din s.dk s.rounds.toNat ∧
        t.status = s.status.ended 0 ∧ t.phase = .idle ∧
        { t with
          dout := s.dout, status := s.status, phase := s.phase, seq := s.seq, bsave := s.bsave, draws := s.draws } = s)

/-- R194: AES_ROUND writes one AES round of DIN keyed by RKEY to DOUT, in every key state, and changes nothing else but
its own latch (log 7) and the place of the sequencer (log 29). -/
def Obligations.AesRoundWritesOneRoundOfDin : Prop :=
  ∀ s : State, s.TablesGood →
    ∃ t, exec .aesRound s = .next t ∧ t.dout = ByteAes.round s.din s.rkey ∧ t.status = s.status.ended 0 ∧
      t.phase = .idle ∧
      { t with
        dout := s.dout, status := s.status, phase := s.phase, seq := s.seq, bsave := s.bsave, draws := s.draws } = s

/-- R175: for every key size, key and block, InvCipher with the derived schedule undoes Cipher. -/
def Obligations.DecryptionInvertsEncryption : Prop :=
  ∀ (bits : Nat) (key : Bytes 32) (block : Block) (above above' : Nat → Word),
    bits = 128 ∨ bits = 192 ∨ bits = 256 →
    let w := keyExpansion rom key bits
    let nr := roundsOf bits
    invCipher rom (cipher rom block (storeSchedule w above) nr) (storeSchedule (deriveDecrypt rom w nr) above') nr =
      block

/-- R193, R175: with both schedules set, ENCRYPT and then DECRYPT of its result give the block back. -/
def Obligations.DecryptAfterEncryptGivesTheBlockBack : Prop :=
  ∀ s : State, s.ContextInv → s.TablesGood → s.status.dkValid = true →
    ∃ t u, exec .encrypt s = .next t ∧ exec .decrypt { t with din := t.dout } = .next u ∧ u.dout = s.din

/-- R179: EK and DK change only in a step that completes a SETKEY command of a supported size, or in a reset. -/
def Obligations.OnlySetkeyOrResetChangesTheSchedules : Prop :=
  ∀ s t : State, step s = .next t → t.ek ≠ s.ek ∨ t.dk ≠ s.dk →
    s.seesReset ∨ (s.phase = .run ∧ t.status.err = 0 ∧ t.status.busy = false ∧
      ∃ k : KeySize, k ≠ .unsupported ∧ (s.latched = some (.setkeyEnc k) ∨ s.latched = some (.setkeyDec k)))

/-! ## The AES tables (40_aes_primitives.md) -/

/-- R133 to R135: the table S is the affine map of the field inverse, the table Si is its inverse, and `inv` is the
inverse. -/
def Obligations.SubstitutionTablesFollowTheFormula : Prop :=
  (∀ x : Byte, sbox x = sboxFormula x ∧ invSbox (sbox x) = x) ∧
    ∀ x : Byte, x ≠ 0 → gfMul x (gfInv x) = 1

/-- R151: the four table-driven rounds on the ROM are the byte-level transformations. -/
def Obligations.TableRoundsAreTheByteLevelRounds : Prop :=
  ∀ b k : Block,
    blockOfColumns (encRound rom (columnsOf b) (columnsOf k)) =
      xorBytes (ByteAes.mixColumns (ByteAes.shiftRows (ByteAes.subBytes b))) k ∧
    blockOfColumns (encFinal rom (columnsOf b) (columnsOf k)) = xorBytes (ByteAes.shiftRows (ByteAes.subBytes b)) k ∧
    blockOfColumns (decRound rom (columnsOf b) (columnsOf k)) =
      xorBytes (ByteAes.invMixColumns (ByteAes.invShiftRows (ByteAes.invSubBytes b))) k ∧
    blockOfColumns (decFinal rom (columnsOf b) (columnsOf k)) =
      xorBytes (ByteAes.invShiftRows (ByteAes.invSubBytes b)) k

/-- R14, R195, R234: a command's outcome is the same on two platforms that differ only in P_HW_ROUND, P_TCACHE,
P_GROUP_LANES and P_UNROLL. -/
def Obligations.StrategiesChangeNoResult : Prop :=
  ∀ (i : Instr) (s : State) (p : Platform), p.basePage = s.platform.basePage → p.admitted = s.platform.admitted →
    p.refusedKeys = s.platform.refusedKeys → s.TablesGood → State.TablesGood { s with platform := p } →
    exec i { s with platform := p } =
      match exec i s with
      | .next t => .next { t with platform := p }
      | .fault f => .fault f
      | .refused r => .refused r

/-! ## The hash engine (43_hash_engine.md) -/

/-- R220: the scratchpad index is bits 20:4 of lane 0: the little-endian value of bytes 0 to 2, divided by 16, modulo
2^17; nothing else of the block affects it. -/
def Obligations.ScratchIndexIsBitsOfTheLowLane : Prop :=
  ∀ x : Block, (scratchIndex x).toNat = (EngineSpec.laneValue x 0 / 16) % 2 ^ 17 ∧
    (scratchIndex x).toNat = ((x[0].toNat + 2 ^ 8 * x[1].toNat + 2 ^ 16 * x[2].toNat) / 16) % 2 ^ 17

/-- R79, R211: a hash command with SCRATCH_ADDR no multiple of 16 ends with ERR = 5 and changes no register but STATUS;
no byte outside its scratch window changes, and the window is unspecified as after every hash command (R86; log 9; the
place of the sequencer is log 29). -/
def Obligations.MisalignedScratchEndsWithErrorFive : Prop :=
  ∀ (s : State) (c : HashKind), ¬ s.alignedScratch → s.mem.wf →
    ∃ t, exec c.instr s = .next t ∧ t.status = s.status.ended 5 ∧ t.phase = .idle ∧ t.mem.wf ∧
      (∀ x, s.outsideScratch x → t.mem.read x = s.mem.read x) ∧
      { t with status := s.status, phase := s.phase, seq := s.seq, mem := s.mem, draws := s.draws } = s

/-- R227: a refused key ends a hash command with ERR = 2: STATE receives the state at the start of stage 2 (for
HASH_CORE its own value), DIGEST keeps its value, and no byte outside the scratch window changes (the window is a draw by
R86, log 9), whether the fill key is refused in stage 2 or the fold-back key in stage 6. -/
def Obligations.RefusedKeyFailsTheCommand : Prop :=
  ∀ (s : State) (c : HashKind), s.TablesGood → s.mem.wf → s.reachesSeed c →
    (¬ s.importsKey (EngineSpec.fillKey (s.sponge0 c)) →
      ∃ t, exec c.instr s = .next t ∧ t.stateBuf = s.sponge0 c ∧ t.digest = s.digest ∧ t.status = s.status.ended 2 ∧
        t.phase = .idle ∧ t.mem.wf ∧ (∀ x, s.outsideScratch x → t.mem.read x = s.mem.read x) ∧ s.onlyHashEffects t) ∧
    (s.reachesFold c → ¬ s.importsKey (EngineSpec.foldKey (s.sponge0 c)) →
      ∃ t, exec c.instr s = .next t ∧ t.stateBuf = s.sponge0 c ∧ t.digest = s.digest ∧ t.status = s.status.ended 2 ∧
        t.phase = .idle ∧ t.mem.wf ∧ (∀ x, s.outsideScratch x → t.mem.read x = s.mem.read x) ∧ s.onlyHashEffects t)

/-- R278: the checks of a command come in this order, and the first that applies decides how it ends: key size, key
present, scratch alignment, data window, fill key, scratch window, fold-back key. -/
def Obligations.ChecksComeInTheSpecsOrder : Prop :=
  ∀ s : State, s.TablesGood → s.mem.wf →
    s.completesWith .nop 0 ∧ s.completesWith .aesRound 0 ∧
    (∀ k : KeySize, s.completesWith (.setkeyEnc k) (if k = .unsupported then 1 else 0) ∧
      s.completesWith (.setkeyDec k) (if k = .unsupported then 1 else 0)) ∧
    s.completesWith .encrypt (if s.status.ekValid then 0 else 4) ∧
    s.completesWith .decrypt (if s.status.dkValid then 0 else 4) ∧
    ∀ c : HashKind,
      (¬ s.alignedScratch → s.completesWith c.instr 5) ∧
      (s.alignedScratch → c = .full → ¬ s.dataOpen → exec c.instr s = .fault .memNotAdmitted) ∧
      (s.reachesSeed c → ¬ s.importsKey (EngineSpec.fillKey (s.sponge0 c)) → s.completesWith c.instr 2) ∧
      (s.reachesSeed c → s.importsKey (EngineSpec.fillKey (s.sponge0 c)) → ¬ s.scratchOpen →
        exec c.instr s = .fault .memNotAdmitted) ∧
      (s.reachesFold c → ¬ s.importsKey (EngineSpec.foldKey (s.sponge0 c)) → s.completesWith c.instr 2) ∧
      (s.hashSucceeds c → s.completesWith c.instr 0)

/-- R218: one micro-step of stage 3, in iteration `i` on block `k`, encrypts `text[k]` in place and writes it to
scratchpad block `8i + k`, no other block; then comes the next block, iteration or stage (that one event of the sequencer
is one turn of the inner loop is log 1, the counters of the stage entered log 29). -/
def Obligations.FillTurnWritesOneBlock : Prop :=
  ∀ (s : State) (c : HashKind), s.Running c.instr .fill → s.TablesGood → s.mem.wf → s.scratchOpen → s.CounterInv →
    ∃ t, s.Takes .sequencer t ∧
      t.text = s.text.set s.seq.k.val (pseudoEncrypt rom s.text[s.seq.k] s.hk) ∧
      (∀ j : BitVec 17, t.scrRead j =
        if j.toNat = 8 * s.seq.i + s.seq.k.val then pseudoEncrypt rom s.text[s.seq.k] s.hk else s.scrRead j) ∧
      (∀ x, s.outsideScratch x → t.mem.read x = s.mem.read x) ∧ t.mem.wf ∧
      t.seq = (if s.seq.k ≠ 7 then ⟨.fill, s.seq.i, s.seq.k + 1, s.seq.n⟩
        else if s.seq.i < 16383 then ⟨.fill, s.seq.i + 1, 0, s.seq.n⟩ else ⟨.derive, 0, 0, 0⟩) ∧
      { t with text := s.text, mem := s.mem, seq := s.seq } = s

/-- R221 to R223: one iteration of stage 5 takes a, b and the scratchpad through both mixing steps, as computed on
numbers by `EngineSpec.mixOnce`, and changes no other memory; hi, lo and j are unspecified after it (R53, log 26; that
one event of the sequencer is one iteration is log 1, the counters of the stage entered log 29). -/
def Obligations.MixIterationFollowsBothSteps : Prop :=
  ∀ (s : State) (c : HashKind), s.Running c.instr .mix → s.TablesGood → s.mem.wf → s.scratchOpen → s.CounterInv →
    ∃ t, s.Takes .sequencer t ∧ (⟨t.a, t.b, t.scrRead⟩ : EngineSpec.Mix) = EngineSpec.mixOnce ⟨s.a, s.b, s.scrRead⟩ ∧
      (∀ x, s.outsideScratch x → t.mem.read x = s.mem.read x) ∧ t.mem.wf ∧
      t.seq = (if s.seq.n < 2 ^ 19 - 1 then { s.seq with n := s.seq.n + 1 } else ⟨.rekey, 0, 0, 0⟩) ∧
      { t with
        a := s.a, b := s.b, c := s.c, d := s.d, e := s.e, hi := s.hi, lo := s.lo, j := s.j, mem := s.mem
        seq := s.seq, draws := s.draws } = s

/-- R225: one micro-step of stage 6's sweep, in iteration `i` on block `k`, XORs `text[k]` with scratchpad block `8i + k`
and encrypts it in place; it writes no memory (that one event of the sequencer is one turn of the sweep is log 1, the
counters of the stage entered log 29). -/
def Obligations.FoldTurnReadsOneBlock : Prop :=
  ∀ (s : State) (c : HashKind), s.Running c.instr .fold → s.TablesGood → s.CounterInv →
    ∃ t, s.Takes .sequencer t ∧
      t.text = s.text.set s.seq.k.val
        (pseudoEncrypt rom (xorBytes s.text[s.seq.k] (s.scrRead (BitVec.ofNat 17 (8 * s.seq.i + s.seq.k.val)))) s.hk) ∧
      t.seq = (if s.seq.k ≠ 7 then ⟨.fold, s.seq.i, s.seq.k + 1, s.seq.n⟩
        else if s.seq.i < 16383 then ⟨.fold, s.seq.i + 1, 0, s.seq.n⟩ else ⟨.writeBack, 0, 0, 0⟩) ∧
      { t with text := s.text, seq := s.seq } = s

/-- R230: HASH_CORE, its checks passed, completes with ERR = 0; STATE becomes the function of itself that stages 2 to 6
compute; DIGEST, the host context and every byte outside the scratch window are unchanged. -/
def Obligations.HashCoreComputesItsFunction : Prop :=
  ∀ s : State, s.TablesGood → s.mem.wf → s.hashSucceeds .core →
    ∃ t, exec .hashCore s = .next t ∧ t.stateBuf = EngineSpec.core s.stateBuf ∧ t.digest = s.digest ∧
      t.status = s.status.ended 0 ∧ t.phase = .idle ∧ t.mem.wf ∧
      (∀ x, s.outsideScratch x → t.mem.read x = s.mem.read x) ∧ s.onlyHashEffects t

/-- R231: HASH, its checks passed, completes with ERR = 0; STATE becomes the permutation of the core function of the
absorbed data, DIGEST the selected finisher of it; the host context and every byte outside the scratch window are
unchanged. -/
def Obligations.HashComputesItsFunction : Prop :=
  ∀ s : State, s.TablesGood → s.mem.wf → s.hashSucceeds .full →
    let final := Config.permute (EngineSpec.core (Config.absorb s.dataBytes))
    ∃ t, exec .hash s = .next t ∧ t.stateBuf = final ∧
      t.digest = Config.finisher (final[0].extractLsb' 0 2) final 200 ∧
      t.status = s.status.ended 0 ∧ t.phase = .idle ∧ t.mem.wf ∧
      (∀ x, s.outsideScratch x → t.mem.read x = s.mem.read x) ∧ s.onlyHashEffects t

/-- R233: the bytes the scratch window holds at acceptance affect no result: with any other bytes there, the command
ends the same way and leaves the same state, memory apart, and the same observation outside its window (R321). -/
def Obligations.PriorScratchContentDoesNotMatter : Prop :=
  ∀ (s : State) (m : Memory) (c : HashKind), s.mem.wf → m.wf →
    (∀ x, s.outsideScratch x → m.read x = s.mem.read x) →
    (c = .full → State.dataBytes { s with mem := m } = s.dataBytes) →
    match exec c.instr s with
    | .next t => ∃ m', exec c.instr { s with mem := m } = .next { t with mem := m' } ∧
        (∀ x, s.outsideScratch x → m'.read x = t.mem.read x) ∧
        State.observe { t with mem := m' } [s.scratchWindow] = t.observe [s.scratchWindow]
    | .fault f => exec c.instr { s with mem := m } = .fault f
    | .refused _ => False

/-! ## What every command leaves alone, and how every command ends -/

/-- R107, R271: a command's next state has BUSY = 0, DONE = 1, PHASE = IDLE and OVR kept; no command changes CTRL, an
operand register other than STATE, the table cache, FAULT or the events to come; only SETKEY writes the host context,
only a block command DOUT, only HASH DIGEST, only a hash command STATE and memory. -/
def Obligations.CommandsWriteOnlyTheirRegisters : Prop :=
  ∀ (i : Instr) (s t : State), exec i s = .next t →
    (t.status.busy = false ∧ t.status.done = true ∧ t.status.ovr = s.status.ovr ∧ t.phase = .idle) ∧
    (t.irqEn = s.irqEn ∧ t.key = s.key ∧ t.din = s.din ∧ t.rkey = s.rkey ∧ t.dataAddr = s.dataAddr ∧
      t.dataLen = s.dataLen ∧ t.scratchAddr = s.scratchAddr ∧ t.cmdl = s.cmdl ∧ t.tc = s.tc ∧ t.tcValid = s.tcValid ∧
      t.tcArrived = s.tcArrived ∧ t.fault = s.fault ∧ t.events = s.events ∧ t.response = s.response ∧
      t.platform = s.platform ∧ t.heldMem = s.heldMem) ∧
    ((∀ k, i ≠ .setkeyEnc k) → (∀ k, i ≠ .setkeyDec k) → t.ek = s.ek ∧ t.rounds = s.rounds ∧ t.ksave = s.ksave ∧
      t.status.ekValid = s.status.ekValid ∧ t.status.dkValid = s.status.dkValid) ∧
    ((∀ k, i ≠ .setkeyDec k) → t.dk = s.dk) ∧
    (i ≠ .encrypt → i ≠ .decrypt → i ≠ .aesRound → t.dout = s.dout ∧ t.bsave = s.bsave) ∧
    (i ≠ .hash → t.digest = s.digest) ∧
    (i ≠ .hashCore → i ≠ .hash → t.stateBuf = s.stateBuf ∧ t.mem = s.mem ∧ t.hk = s.hk ∧ t.text = s.text ∧ t.a = s.a ∧
      t.b = s.b ∧ t.c = s.c ∧ t.d = s.d ∧ t.e = s.e ∧ t.hi = s.hi ∧ t.lo = s.lo ∧ t.j = s.j ∧ t.sponge = s.sponge)

/-- R281: `irq` is IRQ_EN and DONE; a completion raises it if IRQ_EN is set, with an error or without; a write of 2 to
STATUS and the acceptance of the next command lower it; OVR does not matter. -/
def Obligations.InterruptIsEnabledDone : Prop :=
  (∀ s : State, s.irq = (s.irqEn && s.status.done)) ∧
    (∀ (i : Instr) (s t : State), exec i s = .next t → t.irq = s.irqEn) ∧
    (∀ s : State, s.Good → ∃ t, s.Writes 0x00C 2 t ∧ t.irq = false) ∧
    (∀ (s : State) (w : Word) (i : Instr), s.Good → s.status.busy = false → decode w = .ok i →
      ∃ t, s.Writes 0x010 w t ∧ t.irq = false) ∧
    ∀ s : State, State.irq { s with status := s.status.overrun } = s.irq

/-! ## Invariants -/

/-- R49: every step keeps the host context consistent: EK_VALID = 1 means EK is the schedule of a key of the size that
ROUNDS tells, DK_VALID = 1 that DK derives from EK, EK_VALID = 0 that ROUNDS = 0. -/
def Obligations.ContextStaysConsistent : Prop :=
  ∀ s t : State, step s = .next t → s.CacheInv → s.ContextInv → t.ContextInv

/-- R61, R91, R92: every step keeps the table cache right: equal to the ROM once released, an arrived lane's share
copied, TCFILL exactly until the release. -/
def Obligations.TableCacheStaysRight : Prop := ∀ s t : State, step s = .next t → s.CacheInv → t.CacheInv

/-- R37, R60, R270, R272: every step keeps STATUS and PHASE in agreement, DONE and ERR at 0 while BUSY, and ERR one of
the codes 0 to 5. -/
def Obligations.StatusAndPhaseStayInAgreement : Prop := ∀ s t : State, step s = .next t → s.StatusInv → t.StatusInv

/-- R79, R211, R212: every step keeps a running hash command behind its checks: aligned past its check, admitted past
stage 3; outside RUN the sequencer stands at the start of a rule (log 29). -/
def Obligations.RunningHashStaysChecked : Prop :=
  ∀ s t : State, step s = .next t → s.StatusInv → s.WindowInv → t.WindowInv

/-- R60: every step keeps the sequencer's counters in their ranges. -/
def Obligations.CountersStayInRange : Prop := ∀ s t : State, step s = .next t → s.CounterInv → t.CounterInv

/-- Every step keeps memory in its one canonical form, so that equal memories are equal data, and so the memory a held
command was accepted with (log 27). -/
def Obligations.MemoryStaysCanonical : Prop :=
  ∀ s t : State, step s = .next t → s.mem.wf →
    t.mem.wf ∧ ((∀ m, s.heldMem = some m → m.wf) → ∀ m, t.heldMem = some m → m.wf)

/-- The state right after reset meets every invariant, on every platform. -/
def Obligations.ResetMeetsTheInvariants : Prop :=
  ∀ p : Platform, (State.resetOn p).ContextInv ∧ (State.resetOn p).CacheInv ∧ (State.resetOn p).StatusInv ∧
    (State.resetOn p).WindowInv ∧ (State.resetOn p).CounterInv ∧ (State.resetOn p).mem.wf ∧
    (State.resetOn p).heldMem = none
end

