-- ==== Sys2Proof/Laws/Aes.lean ====
section
/-! SUPPORT. What the lookup tables hold, in terms of the substitution and the field (40_aes_primitives.md R136 to
R146): one law per table and per word-level helper, so that no later proof unfolds the ROM. -/

namespace Sys2Proof.Machine

/-! Words and their bytes (R18, R144). -/

/-- The bits of a word made of four bytes. -/
theorem getLsbD_wordOfBytes (p q r s : Byte) (i : Nat) :
    (wordOfBytes p q r s).getLsbD i =
      if i < 8 then s.getLsbD i
      else if i < 16 then r.getLsbD (i - 8)
      else if i < 24 then q.getLsbD (i - 16)
      else p.getLsbD (i - 24) := by
  simp only [wordOfBytes, BitVec.getLsbD_append, Nat.sub_sub]
  split
  · rfl
  · by_cases h1 : i < 16
    · simp [h1, show i - 8 < 8 by omega]
    · by_cases h2 : i < 24
      · simp [h1, h2, show ¬ i - 8 < 8 by omega, show i - 16 < 8 by omega]
      · simp [h1, h2, show ¬ i - 8 < 8 by omega, show ¬ i - 16 < 8 by omega]

@[simp] theorem byte3_wordOfBytes (p q r s : Byte) : byte3 (wordOfBytes p q r s) = p := by
  apply BitVec.eq_of_getLsbD_eq
  intro i hi
  simp only [byte3, BitVec.getLsbD_extractLsb', getLsbD_wordOfBytes, hi, decide_true, Bool.true_and]
  simp [show ¬ 24 + i < 8 by omega, show ¬ 24 + i < 16 by omega, show ¬ 24 + i < 24 by omega]

@[simp] theorem byte2_wordOfBytes (p q r s : Byte) : byte2 (wordOfBytes p q r s) = q := by
  apply BitVec.eq_of_getLsbD_eq
  intro i hi
  simp only [byte2, BitVec.getLsbD_extractLsb', getLsbD_wordOfBytes, hi, decide_true, Bool.true_and]
  simp [show ¬ 16 + i < 8 by omega, show ¬ 16 + i < 16 by omega, show 16 + i < 24 by omega]

@[simp] theorem byte1_wordOfBytes (p q r s : Byte) : byte1 (wordOfBytes p q r s) = r := by
  apply BitVec.eq_of_getLsbD_eq
  intro i hi
  simp only [byte1, BitVec.getLsbD_extractLsb', getLsbD_wordOfBytes, hi, decide_true, Bool.true_and]
  simp [show ¬ 8 + i < 8 by omega, show 8 + i < 16 by omega]

@[simp] theorem byte0_wordOfBytes (p q r s : Byte) : byte0 (wordOfBytes p q r s) = s := by
  apply BitVec.eq_of_getLsbD_eq
  intro i hi
  simp only [byte0, BitVec.getLsbD_extractLsb', getLsbD_wordOfBytes, hi, decide_true, Bool.true_and]
  simp [hi]

/-- A word is its four bytes. -/
theorem wordOfBytes_bytes (w : Word) : wordOfBytes (byte3 w) (byte2 w) (byte1 w) (byte0 w) = w := by
  apply BitVec.eq_of_getLsbD_eq
  intro i hi
  simp only [getLsbD_wordOfBytes, byte3, byte2, byte1, byte0, BitVec.getLsbD_extractLsb']
  split
  · next h => simp [h]
  · split
    · next h => simp [show i - 8 < 8 by omega, show 8 + (i - 8) = i by omega]
    · split
      · next h => simp [show i - 16 < 8 by omega, show 16 + (i - 16) = i by omega]
      · next h => simp [show i - 24 < 8 by omega, show 24 + (i - 24) = i by omega]

/-- Two words with the same bytes are equal. -/
theorem word_ext {v w : Word} (h3 : byte3 v = byte3 w) (h2 : byte2 v = byte2 w) (h1 : byte1 v = byte1 w)
    (h0 : byte0 v = byte0 w) : v = w := by
  rw [← wordOfBytes_bytes v, ← wordOfBytes_bytes w, h3, h2, h1, h0]

theorem byte3_xor (v w : Word) : byte3 (v ^^^ w) = byte3 v ^^^ byte3 w := by
  apply BitVec.eq_of_getLsbD_eq
  intro i hi
  simp [byte3, hi]

theorem byte2_xor (v w : Word) : byte2 (v ^^^ w) = byte2 v ^^^ byte2 w := by
  apply BitVec.eq_of_getLsbD_eq
  intro i hi
  simp [byte2, hi]

theorem byte1_xor (v w : Word) : byte1 (v ^^^ w) = byte1 v ^^^ byte1 w := by
  apply BitVec.eq_of_getLsbD_eq
  intro i hi
  simp [byte1, hi]

theorem byte0_xor (v w : Word) : byte0 (v ^^^ w) = byte0 v ^^^ byte0 w := by
  apply BitVec.eq_of_getLsbD_eq
  intro i hi
  simp [byte0, hi]

/-- Exclusive OR of words is byte by byte. -/
theorem wordOfBytes_xor (p q r s p' q' r' s' : Byte) :
    wordOfBytes p q r s ^^^ wordOfBytes p' q' r' s' = wordOfBytes (p ^^^ p') (q ^^^ q') (r ^^^ r') (s ^^^ s') := by
  apply word_ext <;> simp [byte3_xor, byte2_xor, byte1_xor, byte0_xor]

theorem rotateRight_8_wordOfBytes (p q r s : Byte) :
    (wordOfBytes p q r s).rotateRight 8 = wordOfBytes s p q r := by
  apply BitVec.eq_of_getLsbD_eq
  intro i hi
  simp only [BitVec.getLsbD_rotateRight, getLsbD_wordOfBytes]
  have hs : 8 % 32 = 8 := rfl
  simp only [hs, Bool.cond_decide, hi, decide_true, Bool.true_and]
  repeat' split
  all_goals first
    | omega
    | (congr 1; done)
    | (congr 1; omega)

theorem rotateRight_16_wordOfBytes (p q r s : Byte) :
    (wordOfBytes p q r s).rotateRight 16 = wordOfBytes r s p q := by
  apply BitVec.eq_of_getLsbD_eq
  intro i hi
  simp only [BitVec.getLsbD_rotateRight, getLsbD_wordOfBytes]
  have hs : 16 % 32 = 16 := rfl
  simp only [hs, Bool.cond_decide, hi, decide_true, Bool.true_and]
  repeat' split
  all_goals first
    | omega
    | (congr 1; done)
    | (congr 1; omega)

theorem rotateRight_24_wordOfBytes (p q r s : Byte) :
    (wordOfBytes p q r s).rotateRight 24 = wordOfBytes q r s p := by
  apply BitVec.eq_of_getLsbD_eq
  intro i hi
  simp only [BitVec.getLsbD_rotateRight, getLsbD_wordOfBytes]
  have hs : 24 % 32 = 24 := rfl
  simp only [hs, Bool.cond_decide, hi, decide_true, Bool.true_and]
  repeat' split
  all_goals first
    | omega
    | (congr 1; done)
    | (congr 1; omega)

theorem wordOfBytes_and_high (p q r s : Byte) :
    wordOfBytes p q r s &&& 0xff000000 = wordOfBytes p 0 0 0 := by
  have hm : (0xff000000 : Word) = wordOfBytes 0xff 0 0 0 := by decide
  rw [hm]
  apply BitVec.eq_of_getLsbD_eq
  intro i hi
  simp only [BitVec.getLsbD_and, getLsbD_wordOfBytes]
  have hff : ∀ k, k < 8 → (0xff : Byte).getLsbD k = true := by decide
  repeat' split
  all_goals first
    | (rw [hff _ (by omega), Bool.and_true])
    | simp

theorem wordOfBytes_and_second (p q r s : Byte) :
    wordOfBytes p q r s &&& 0x00ff0000 = wordOfBytes 0 q 0 0 := by
  have hm : (0x00ff0000 : Word) = wordOfBytes 0 0xff 0 0 := by decide
  rw [hm]
  apply BitVec.eq_of_getLsbD_eq
  intro i hi
  simp only [BitVec.getLsbD_and, getLsbD_wordOfBytes]
  have hff : ∀ k, k < 8 → (0xff : Byte).getLsbD k = true := by decide
  repeat' split
  all_goals first
    | (rw [hff _ (by omega), Bool.and_true])
    | simp

theorem wordOfBytes_and_third (p q r s : Byte) :
    wordOfBytes p q r s &&& 0x0000ff00 = wordOfBytes 0 0 r 0 := by
  have hm : (0x0000ff00 : Word) = wordOfBytes 0 0 0xff 0 := by decide
  rw [hm]
  apply BitVec.eq_of_getLsbD_eq
  intro i hi
  simp only [BitVec.getLsbD_and, getLsbD_wordOfBytes]
  have hff : ∀ k, k < 8 → (0xff : Byte).getLsbD k = true := by decide
  repeat' split
  all_goals first
    | (rw [hff _ (by omega), Bool.and_true])
    | simp

theorem wordOfBytes_and_low (p q r s : Byte) :
    wordOfBytes p q r s &&& 0x000000ff = wordOfBytes 0 0 0 s := by
  have hm : (0x000000ff : Word) = wordOfBytes 0 0 0 0xff := by decide
  rw [hm]
  apply BitVec.eq_of_getLsbD_eq
  intro i hi
  simp only [BitVec.getLsbD_and, getLsbD_wordOfBytes]
  have hff : ∀ k, k < 8 → (0xff : Byte).getLsbD k = true := by decide
  repeat' split
  all_goals first
    | (rw [hff _ (by omega), Bool.and_true])
    | simp

/-! The ROM (R136 to R141). -/

@[simp] theorem entry_tableOf {α : Type} (f : Byte → α) (x : Byte) : entry (tableOf f) x = f x := by
  simp [entry, tableOf, allBytes]

@[simp] theorem entry_rom_te0 (x : Byte) : entry rom.te0 x = te0Entry x := by simp only [rom, entry_tableOf]

@[simp] theorem entry_rom_te1 (x : Byte) : entry rom.te1 x = (te0Entry x).rotateRight 8 := by simp only [rom, entry_tableOf]

@[simp] theorem entry_rom_te2 (x : Byte) : entry rom.te2 x = (te0Entry x).rotateRight 16 := by simp only [rom, entry_tableOf]

@[simp] theorem entry_rom_te3 (x : Byte) : entry rom.te3 x = (te0Entry x).rotateRight 24 := by simp only [rom, entry_tableOf]

@[simp] theorem entry_rom_td0 (x : Byte) : entry rom.td0 x = td0Entry x := by simp only [rom, entry_tableOf]

@[simp] theorem entry_rom_td1 (x : Byte) : entry rom.td1 x = (td0Entry x).rotateRight 8 := by simp only [rom, entry_tableOf]

@[simp] theorem entry_rom_td2 (x : Byte) : entry rom.td2 x = (td0Entry x).rotateRight 16 := by simp only [rom, entry_tableOf]

@[simp] theorem entry_rom_td3 (x : Byte) : entry rom.td3 x = (td0Entry x).rotateRight 24 := by simp only [rom, entry_tableOf]

@[simp] theorem entry_rom_td4 (x : Byte) : entry rom.td4 x = invSbox x := by simp only [rom, entry_tableOf]

/-- RCON (R141). -/
theorem rom_rcon {i : Nat} (h : i < 10) : rom.rcon[i]?.getD 0 = wordOfBytes (rcByte i) 0 0 0 := by
  simp only [rom]
  simp [h]

/-- The masked lookups (R143): the substitution of four bytes, each in its own place. -/
theorem maskedWord_rom (x3 x2 x1 x0 : Byte) :
    maskedWord rom x3 x2 x1 x0 = wordOfBytes (sbox x3) (sbox x2) (sbox x1) (sbox x0) := by
  simp only [maskedWord, entry_rom_te0, entry_rom_te1, entry_rom_te2, entry_rom_te3, te0Entry,
    rotateRight_8_wordOfBytes, rotateRight_16_wordOfBytes, rotateRight_24_wordOfBytes, wordOfBytes_and_high,
    wordOfBytes_and_second, wordOfBytes_and_third, wordOfBytes_and_low, wordOfBytes_xor]
  simp

/-- SubRotWord is SubWord of RotWord (R145). -/
theorem subRotWord_rom (t : Word) : subRotWord rom t = ByteAes.subWord (ByteAes.rotWord t) := by
  simp [subRotWord, maskedWord_rom, ByteAes.subWord, ByteAes.rotWord]

/-- SubWordOnly is SubWord (R145). -/
theorem subWordOnly_rom (t : Word) : subWordOnly rom t = ByteAes.subWord t := by
  simp [subWordOnly, maskedWord_rom, ByteAes.subWord]

/-- The forward substitution of the double lookup (R146). -/
theorem forwardSub_rom (x : Byte) : forwardSub rom x = sbox x := by
  simp [forwardSub, te0Entry, rotateRight_8_wordOfBytes]

/-- Si undoes S (R133). -/
theorem invSbox_sbox (x : Byte) : invSbox (sbox x) = x := by
  have h : ∀ n, n < 256 → invSbox (sbox (BitVec.ofNat 8 n)) = BitVec.ofNat 8 n := by decide +kernel
  have := h x.toNat x.isLt
  rwa [BitVec.ofNat_toNat, BitVec.setWidth_eq] at this

/-- The product's loop is additive in the factor whose bits it takes. -/
theorem gfMulLoop_xor (n : Nat) (a b c r s : Byte) :
    gfMulLoop n a (b ^^^ c) (r ^^^ s) = gfMulLoop n a b r ^^^ gfMulLoop n a c s := by
  induction n generalizing a b c r s with
  | zero => rfl
  | succ n ih =>
    simp only [gfMulLoop, BitVec.ushiftRight_xor_distrib, BitVec.getLsbD_xor]
    rw [← ih]
    congr 1
    cases b.getLsbD 0 <;> cases c.getLsbD 0 <;> simp
    · exact BitVec.xor_assoc _ _ _
    · rw [BitVec.xor_assoc, BitVec.xor_comm s a, ← BitVec.xor_assoc]
    · rw [BitVec.xor_assoc, BitVec.xor_comm s a, ← BitVec.xor_assoc a a s, BitVec.xor_self, BitVec.zero_xor]

/-- Multiplication distributes over addition (R130). -/
theorem gfMul_xor (a b c : Byte) : gfMul a (b ^^^ c) = gfMul a b ^^^ gfMul a c := by
  have := gfMulLoop_xor 8 a b c 0 0
  simpa [gfMul] using this

/-- InvMixWord is InvMixColumns of the column (R146). -/
theorem invMixWord_rom (v : Word) : invMixWord rom v = ByteAes.invMixColumnWord v := by
  simp only [invMixWord, forwardSub_rom, entry_rom_td0, entry_rom_td1, entry_rom_td2, entry_rom_td3, td0Entry,
    invSbox_sbox, rotateRight_8_wordOfBytes, rotateRight_16_wordOfBytes, rotateRight_24_wordOfBytes, wordOfBytes_xor,
    ByteAes.invMixColumnWord, ByteAes.circulantRow, ByteAes.invMixRow]
  rfl

end Sys2Proof.Machine
end

