-- ==== Sys2Proof/Laws/State.lean ====
section
/-! SUPPORT. What each named update of the state does to each field, one lemma per field, so that no proof unfolds a
record update. -/

namespace Sys2Proof.Machine

/-! `finish`. -/

@[simp] theorem State.finish_irqEn (s : State) (err : BitVec 4) :
    (s.finish err).irqEn = s.irqEn := by simp only [State.finish]

@[simp] theorem State.finish_status (s : State) (err : BitVec 4) :
    (s.finish err).status = s.status.finished err := by simp only [State.finish]

@[simp] theorem State.finish_rounds (s : State) (err : BitVec 4) :
    (s.finish err).rounds = s.rounds := by simp only [State.finish]

@[simp] theorem State.finish_dataAddr (s : State) (err : BitVec 4) :
    (s.finish err).dataAddr = s.dataAddr := by simp only [State.finish]

@[simp] theorem State.finish_dataLen (s : State) (err : BitVec 4) :
    (s.finish err).dataLen = s.dataLen := by simp only [State.finish]

@[simp] theorem State.finish_scratchAddr (s : State) (err : BitVec 4) :
    (s.finish err).scratchAddr = s.scratchAddr := by simp only [State.finish]

@[simp] theorem State.finish_key (s : State) (err : BitVec 4) :
    (s.finish err).key = s.key := by simp only [State.finish]

@[simp] theorem State.finish_din (s : State) (err : BitVec 4) :
    (s.finish err).din = s.din := by simp only [State.finish]

@[simp] theorem State.finish_rkey (s : State) (err : BitVec 4) :
    (s.finish err).rkey = s.rkey := by simp only [State.finish]

@[simp] theorem State.finish_dout (s : State) (err : BitVec 4) :
    (s.finish err).dout = s.dout := by simp only [State.finish]

@[simp] theorem State.finish_digest (s : State) (err : BitVec 4) :
    (s.finish err).digest = s.digest := by simp only [State.finish]

@[simp] theorem State.finish_stateBuf (s : State) (err : BitVec 4) :
    (s.finish err).stateBuf = s.stateBuf := by simp only [State.finish]

@[simp] theorem State.finish_ek (s : State) (err : BitVec 4) :
    (s.finish err).ek = s.ek := by simp only [State.finish]

@[simp] theorem State.finish_dk (s : State) (err : BitVec 4) :
    (s.finish err).dk = s.dk := by simp only [State.finish]

@[simp] theorem State.finish_hk (s : State) (err : BitVec 4) :
    (s.finish err).hk = s.hk := by simp only [State.finish]

@[simp] theorem State.finish_text (s : State) (err : BitVec 4) :
    (s.finish err).text = s.text := by simp only [State.finish]

@[simp] theorem State.finish_a (s : State) (err : BitVec 4) :
    (s.finish err).a = s.a := by simp only [State.finish]

@[simp] theorem State.finish_b (s : State) (err : BitVec 4) :
    (s.finish err).b = s.b := by simp only [State.finish]

@[simp] theorem State.finish_c (s : State) (err : BitVec 4) :
    (s.finish err).c = s.c := by simp only [State.finish]

@[simp] theorem State.finish_d (s : State) (err : BitVec 4) :
    (s.finish err).d = s.d := by simp only [State.finish]

@[simp] theorem State.finish_e (s : State) (err : BitVec 4) :
    (s.finish err).e = s.e := by simp only [State.finish]

@[simp] theorem State.finish_hi (s : State) (err : BitVec 4) :
    (s.finish err).hi = s.hi := by simp only [State.finish]

@[simp] theorem State.finish_lo (s : State) (err : BitVec 4) :
    (s.finish err).lo = s.lo := by simp only [State.finish]

@[simp] theorem State.finish_j (s : State) (err : BitVec 4) :
    (s.finish err).j = s.j := by simp only [State.finish]

@[simp] theorem State.finish_sponge (s : State) (err : BitVec 4) :
    (s.finish err).sponge = s.sponge := by simp only [State.finish]

@[simp] theorem State.finish_ksave (s : State) (err : BitVec 4) :
    (s.finish err).ksave = s.ksave := by simp only [State.finish]

@[simp] theorem State.finish_bsave (s : State) (err : BitVec 4) :
    (s.finish err).bsave = s.bsave := by simp only [State.finish]

@[simp] theorem State.finish_cmdl (s : State) (err : BitVec 4) :
    (s.finish err).cmdl = s.cmdl := by simp only [State.finish]

@[simp] theorem State.finish_phase (s : State) (err : BitVec 4) :
    (s.finish err).phase = .idle := by simp only [State.finish]

@[simp] theorem State.finish_seq (s : State) (err : BitVec 4) :
    (s.finish err).seq = Sequencer.start := by simp only [State.finish]

@[simp] theorem State.finish_tc (s : State) (err : BitVec 4) :
    (s.finish err).tc = s.tc := by simp only [State.finish]

@[simp] theorem State.finish_tcValid (s : State) (err : BitVec 4) :
    (s.finish err).tcValid = s.tcValid := by simp only [State.finish]

@[simp] theorem State.finish_tcArrived (s : State) (err : BitVec 4) :
    (s.finish err).tcArrived = s.tcArrived := by simp only [State.finish]

@[simp] theorem State.finish_mem (s : State) (err : BitVec 4) :
    (s.finish err).mem = s.mem := by simp only [State.finish]

@[simp] theorem State.finish_heldMem (s : State) (err : BitVec 4) :
    (s.finish err).heldMem = s.heldMem := by simp only [State.finish]

@[simp] theorem State.finish_fault (s : State) (err : BitVec 4) :
    (s.finish err).fault = s.fault := by simp only [State.finish]

@[simp] theorem State.finish_platform (s : State) (err : BitVec 4) :
    (s.finish err).platform = s.platform := by simp only [State.finish]

@[simp] theorem State.finish_events (s : State) (err : BitVec 4) :
    (s.finish err).events = s.events := by simp only [State.finish]

@[simp] theorem State.finish_response (s : State) (err : BitVec 4) :
    (s.finish err).response = s.response := by simp only [State.finish]

@[simp] theorem State.finish_draws (s : State) (err : BitVec 4) :
    (s.finish err).draws = s.draws := by simp only [State.finish]

/-! `latchFault`. -/

@[simp] theorem State.latchFault_irqEn (s : State) (f : Fault) :
    (s.latchFault f).irqEn = s.irqEn := by simp only [State.latchFault]

@[simp] theorem State.latchFault_status (s : State) (f : Fault) :
    (s.latchFault f).status = s.status := by simp only [State.latchFault]

@[simp] theorem State.latchFault_rounds (s : State) (f : Fault) :
    (s.latchFault f).rounds = s.rounds := by simp only [State.latchFault]

@[simp] theorem State.latchFault_dataAddr (s : State) (f : Fault) :
    (s.latchFault f).dataAddr = s.dataAddr := by simp only [State.latchFault]

@[simp] theorem State.latchFault_dataLen (s : State) (f : Fault) :
    (s.latchFault f).dataLen = s.dataLen := by simp only [State.latchFault]

@[simp] theorem State.latchFault_scratchAddr (s : State) (f : Fault) :
    (s.latchFault f).scratchAddr = s.scratchAddr := by simp only [State.latchFault]

@[simp] theorem State.latchFault_key (s : State) (f : Fault) :
    (s.latchFault f).key = s.key := by simp only [State.latchFault]

@[simp] theorem State.latchFault_din (s : State) (f : Fault) :
    (s.latchFault f).din = s.din := by simp only [State.latchFault]

@[simp] theorem State.latchFault_rkey (s : State) (f : Fault) :
    (s.latchFault f).rkey = s.rkey := by simp only [State.latchFault]

@[simp] theorem State.latchFault_dout (s : State) (f : Fault) :
    (s.latchFault f).dout = s.dout := by simp only [State.latchFault]

@[simp] theorem State.latchFault_digest (s : State) (f : Fault) :
    (s.latchFault f).digest = s.digest := by simp only [State.latchFault]

@[simp] theorem State.latchFault_stateBuf (s : State) (f : Fault) :
    (s.latchFault f).stateBuf = s.stateBuf := by simp only [State.latchFault]

@[simp] theorem State.latchFault_ek (s : State) (f : Fault) :
    (s.latchFault f).ek = s.ek := by simp only [State.latchFault]

@[simp] theorem State.latchFault_dk (s : State) (f : Fault) :
    (s.latchFault f).dk = s.dk := by simp only [State.latchFault]

@[simp] theorem State.latchFault_hk (s : State) (f : Fault) :
    (s.latchFault f).hk = s.hk := by simp only [State.latchFault]

@[simp] theorem State.latchFault_text (s : State) (f : Fault) :
    (s.latchFault f).text = s.text := by simp only [State.latchFault]

@[simp] theorem State.latchFault_a (s : State) (f : Fault) :
    (s.latchFault f).a = s.a := by simp only [State.latchFault]

@[simp] theorem State.latchFault_b (s : State) (f : Fault) :
    (s.latchFault f).b = s.b := by simp only [State.latchFault]

@[simp] theorem State.latchFault_c (s : State) (f : Fault) :
    (s.latchFault f).c = s.c := by simp only [State.latchFault]

@[simp] theorem State.latchFault_d (s : State) (f : Fault) :
    (s.latchFault f).d = s.d := by simp only [State.latchFault]

@[simp] theorem State.latchFault_e (s : State) (f : Fault) :
    (s.latchFault f).e = s.e := by simp only [State.latchFault]

@[simp] theorem State.latchFault_hi (s : State) (f : Fault) :
    (s.latchFault f).hi = s.hi := by simp only [State.latchFault]

@[simp] theorem State.latchFault_lo (s : State) (f : Fault) :
    (s.latchFault f).lo = s.lo := by simp only [State.latchFault]

@[simp] theorem State.latchFault_j (s : State) (f : Fault) :
    (s.latchFault f).j = s.j := by simp only [State.latchFault]

@[simp] theorem State.latchFault_sponge (s : State) (f : Fault) :
    (s.latchFault f).sponge = s.sponge := by simp only [State.latchFault]

@[simp] theorem State.latchFault_ksave (s : State) (f : Fault) :
    (s.latchFault f).ksave = s.ksave := by simp only [State.latchFault]

@[simp] theorem State.latchFault_bsave (s : State) (f : Fault) :
    (s.latchFault f).bsave = s.bsave := by simp only [State.latchFault]

@[simp] theorem State.latchFault_cmdl (s : State) (f : Fault) :
    (s.latchFault f).cmdl = s.cmdl := by simp only [State.latchFault]

@[simp] theorem State.latchFault_phase (s : State) (f : Fault) :
    (s.latchFault f).phase = s.phase := by simp only [State.latchFault]

@[simp] theorem State.latchFault_seq (s : State) (f : Fault) :
    (s.latchFault f).seq = s.seq := by simp only [State.latchFault]

@[simp] theorem State.latchFault_tc (s : State) (f : Fault) :
    (s.latchFault f).tc = s.tc := by simp only [State.latchFault]

@[simp] theorem State.latchFault_tcValid (s : State) (f : Fault) :
    (s.latchFault f).tcValid = s.tcValid := by simp only [State.latchFault]

@[simp] theorem State.latchFault_tcArrived (s : State) (f : Fault) :
    (s.latchFault f).tcArrived = s.tcArrived := by simp only [State.latchFault]

@[simp] theorem State.latchFault_mem (s : State) (f : Fault) :
    (s.latchFault f).mem = s.mem := by simp only [State.latchFault]

@[simp] theorem State.latchFault_heldMem (s : State) (f : Fault) :
    (s.latchFault f).heldMem = s.heldMem := by simp only [State.latchFault]

@[simp] theorem State.latchFault_fault (s : State) (f : Fault) :
    (s.latchFault f).fault = some f := by simp only [State.latchFault]

@[simp] theorem State.latchFault_platform (s : State) (f : Fault) :
    (s.latchFault f).platform = s.platform := by simp only [State.latchFault]

@[simp] theorem State.latchFault_events (s : State) (f : Fault) :
    (s.latchFault f).events = s.events := by simp only [State.latchFault]

@[simp] theorem State.latchFault_response (s : State) (f : Fault) :
    (s.latchFault f).response = s.response := by simp only [State.latchFault]

@[simp] theorem State.latchFault_draws (s : State) (f : Fault) :
    (s.latchFault f).draws = s.draws := by simp only [State.latchFault]

/-! `enter`. -/

@[simp] theorem State.enter_irqEn (s : State) (stage : Stage) :
    (s.enter stage).irqEn = s.irqEn := by simp only [State.enter]

@[simp] theorem State.enter_status (s : State) (stage : Stage) :
    (s.enter stage).status = s.status := by simp only [State.enter]

@[simp] theorem State.enter_rounds (s : State) (stage : Stage) :
    (s.enter stage).rounds = s.rounds := by simp only [State.enter]

@[simp] theorem State.enter_dataAddr (s : State) (stage : Stage) :
    (s.enter stage).dataAddr = s.dataAddr := by simp only [State.enter]

@[simp] theorem State.enter_dataLen (s : State) (stage : Stage) :
    (s.enter stage).dataLen = s.dataLen := by simp only [State.enter]

@[simp] theorem State.enter_scratchAddr (s : State) (stage : Stage) :
    (s.enter stage).scratchAddr = s.scratchAddr := by simp only [State.enter]

@[simp] theorem State.enter_key (s : State) (stage : Stage) :
    (s.enter stage).key = s.key := by simp only [State.enter]

@[simp] theorem State.enter_din (s : State) (stage : Stage) :
    (s.enter stage).din = s.din := by simp only [State.enter]

@[simp] theorem State.enter_rkey (s : State) (stage : Stage) :
    (s.enter stage).rkey = s.rkey := by simp only [State.enter]

@[simp] theorem State.enter_dout (s : State) (stage : Stage) :
    (s.enter stage).dout = s.dout := by simp only [State.enter]

@[simp] theorem State.enter_digest (s : State) (stage : Stage) :
    (s.enter stage).digest = s.digest := by simp only [State.enter]

@[simp] theorem State.enter_stateBuf (s : State) (stage : Stage) :
    (s.enter stage).stateBuf = s.stateBuf := by simp only [State.enter]

@[simp] theorem State.enter_ek (s : State) (stage : Stage) :
    (s.enter stage).ek = s.ek := by simp only [State.enter]

@[simp] theorem State.enter_dk (s : State) (stage : Stage) :
    (s.enter stage).dk = s.dk := by simp only [State.enter]

@[simp] theorem State.enter_hk (s : State) (stage : Stage) :
    (s.enter stage).hk = s.hk := by simp only [State.enter]

@[simp] theorem State.enter_text (s : State) (stage : Stage) :
    (s.enter stage).text = s.text := by simp only [State.enter]

@[simp] theorem State.enter_a (s : State) (stage : Stage) :
    (s.enter stage).a = s.a := by simp only [State.enter]

@[simp] theorem State.enter_b (s : State) (stage : Stage) :
    (s.enter stage).b = s.b := by simp only [State.enter]

@[simp] theorem State.enter_c (s : State) (stage : Stage) :
    (s.enter stage).c = s.c := by simp only [State.enter]

@[simp] theorem State.enter_d (s : State) (stage : Stage) :
    (s.enter stage).d = s.d := by simp only [State.enter]

@[simp] theorem State.enter_e (s : State) (stage : Stage) :
    (s.enter stage).e = s.e := by simp only [State.enter]

@[simp] theorem State.enter_hi (s : State) (stage : Stage) :
    (s.enter stage).hi = s.hi := by simp only [State.enter]

@[simp] theorem State.enter_lo (s : State) (stage : Stage) :
    (s.enter stage).lo = s.lo := by simp only [State.enter]

@[simp] theorem State.enter_j (s : State) (stage : Stage) :
    (s.enter stage).j = s.j := by simp only [State.enter]

@[simp] theorem State.enter_sponge (s : State) (stage : Stage) :
    (s.enter stage).sponge = s.sponge := by simp only [State.enter]

@[simp] theorem State.enter_ksave (s : State) (stage : Stage) :
    (s.enter stage).ksave = s.ksave := by simp only [State.enter]

@[simp] theorem State.enter_bsave (s : State) (stage : Stage) :
    (s.enter stage).bsave = s.bsave := by simp only [State.enter]

@[simp] theorem State.enter_cmdl (s : State) (stage : Stage) :
    (s.enter stage).cmdl = s.cmdl := by simp only [State.enter]

@[simp] theorem State.enter_phase (s : State) (stage : Stage) :
    (s.enter stage).phase = s.phase := by simp only [State.enter]

@[simp] theorem State.enter_seq (s : State) (stage : Stage) :
    (s.enter stage).seq = ⟨stage, 0, 0, 0⟩ := by simp only [State.enter]

@[simp] theorem State.enter_tc (s : State) (stage : Stage) :
    (s.enter stage).tc = s.tc := by simp only [State.enter]

@[simp] theorem State.enter_tcValid (s : State) (stage : Stage) :
    (s.enter stage).tcValid = s.tcValid := by simp only [State.enter]

@[simp] theorem State.enter_tcArrived (s : State) (stage : Stage) :
    (s.enter stage).tcArrived = s.tcArrived := by simp only [State.enter]

@[simp] theorem State.enter_mem (s : State) (stage : Stage) :
    (s.enter stage).mem = s.mem := by simp only [State.enter]

@[simp] theorem State.enter_heldMem (s : State) (stage : Stage) :
    (s.enter stage).heldMem = s.heldMem := by simp only [State.enter]

@[simp] theorem State.enter_fault (s : State) (stage : Stage) :
    (s.enter stage).fault = s.fault := by simp only [State.enter]

@[simp] theorem State.enter_platform (s : State) (stage : Stage) :
    (s.enter stage).platform = s.platform := by simp only [State.enter]

@[simp] theorem State.enter_events (s : State) (stage : Stage) :
    (s.enter stage).events = s.events := by simp only [State.enter]

@[simp] theorem State.enter_response (s : State) (stage : Stage) :
    (s.enter stage).response = s.response := by simp only [State.enter]

@[simp] theorem State.enter_draws (s : State) (stage : Stage) :
    (s.enter stage).draws = s.draws := by simp only [State.enter]

/-! `scrWrite`. -/

@[simp] theorem State.scrWrite_irqEn (s : State) (i : BitVec 17) (v : Block) :
    (s.scrWrite i v).irqEn = s.irqEn := by simp only [State.scrWrite]

@[simp] theorem State.scrWrite_status (s : State) (i : BitVec 17) (v : Block) :
    (s.scrWrite i v).status = s.status := by simp only [State.scrWrite]

@[simp] theorem State.scrWrite_rounds (s : State) (i : BitVec 17) (v : Block) :
    (s.scrWrite i v).rounds = s.rounds := by simp only [State.scrWrite]

@[simp] theorem State.scrWrite_dataAddr (s : State) (i : BitVec 17) (v : Block) :
    (s.scrWrite i v).dataAddr = s.dataAddr := by simp only [State.scrWrite]

@[simp] theorem State.scrWrite_dataLen (s : State) (i : BitVec 17) (v : Block) :
    (s.scrWrite i v).dataLen = s.dataLen := by simp only [State.scrWrite]

@[simp] theorem State.scrWrite_scratchAddr (s : State) (i : BitVec 17) (v : Block) :
    (s.scrWrite i v).scratchAddr = s.scratchAddr := by simp only [State.scrWrite]

@[simp] theorem State.scrWrite_key (s : State) (i : BitVec 17) (v : Block) :
    (s.scrWrite i v).key = s.key := by simp only [State.scrWrite]

@[simp] theorem State.scrWrite_din (s : State) (i : BitVec 17) (v : Block) :
    (s.scrWrite i v).din = s.din := by simp only [State.scrWrite]

@[simp] theorem State.scrWrite_rkey (s : State) (i : BitVec 17) (v : Block) :
    (s.scrWrite i v).rkey = s.rkey := by simp only [State.scrWrite]

@[simp] theorem State.scrWrite_dout (s : State) (i : BitVec 17) (v : Block) :
    (s.scrWrite i v).dout = s.dout := by simp only [State.scrWrite]

@[simp] theorem State.scrWrite_digest (s : State) (i : BitVec 17) (v : Block) :
    (s.scrWrite i v).digest = s.digest := by simp only [State.scrWrite]

@[simp] theorem State.scrWrite_stateBuf (s : State) (i : BitVec 17) (v : Block) :
    (s.scrWrite i v).stateBuf = s.stateBuf := by simp only [State.scrWrite]

@[simp] theorem State.scrWrite_ek (s : State) (i : BitVec 17) (v : Block) :
    (s.scrWrite i v).ek = s.ek := by simp only [State.scrWrite]

@[simp] theorem State.scrWrite_dk (s : State) (i : BitVec 17) (v : Block) :
    (s.scrWrite i v).dk = s.dk := by simp only [State.scrWrite]

@[simp] theorem State.scrWrite_hk (s : State) (i : BitVec 17) (v : Block) :
    (s.scrWrite i v).hk = s.hk := by simp only [State.scrWrite]

@[simp] theorem State.scrWrite_text (s : State) (i : BitVec 17) (v : Block) :
    (s.scrWrite i v).text = s.text := by simp only [State.scrWrite]

@[simp] theorem State.scrWrite_a (s : State) (i : BitVec 17) (v : Block) :
    (s.scrWrite i v).a = s.a := by simp only [State.scrWrite]

@[simp] theorem State.scrWrite_b (s : State) (i : BitVec 17) (v : Block) :
    (s.scrWrite i v).b = s.b := by simp only [State.scrWrite]

@[simp] theorem State.scrWrite_c (s : State) (i : BitVec 17) (v : Block) :
    (s.scrWrite i v).c = s.c := by simp only [State.scrWrite]

@[simp] theorem State.scrWrite_d (s : State) (i : BitVec 17) (v : Block) :
    (s.scrWrite i v).d = s.d := by simp only [State.scrWrite]

@[simp] theorem State.scrWrite_e (s : State) (i : BitVec 17) (v : Block) :
    (s.scrWrite i v).e = s.e := by simp only [State.scrWrite]

@[simp] theorem State.scrWrite_hi (s : State) (i : BitVec 17) (v : Block) :
    (s.scrWrite i v).hi = s.hi := by simp only [State.scrWrite]

@[simp] theorem State.scrWrite_lo (s : State) (i : BitVec 17) (v : Block) :
    (s.scrWrite i v).lo = s.lo := by simp only [State.scrWrite]

@[simp] theorem State.scrWrite_j (s : State) (i : BitVec 17) (v : Block) :
    (s.scrWrite i v).j = s.j := by simp only [State.scrWrite]

@[simp] theorem State.scrWrite_sponge (s : State) (i : BitVec 17) (v : Block) :
    (s.scrWrite i v).sponge = s.sponge := by simp only [State.scrWrite]

@[simp] theorem State.scrWrite_ksave (s : State) (i : BitVec 17) (v : Block) :
    (s.scrWrite i v).ksave = s.ksave := by simp only [State.scrWrite]

@[simp] theorem State.scrWrite_bsave (s : State) (i : BitVec 17) (v : Block) :
    (s.scrWrite i v).bsave = s.bsave := by simp only [State.scrWrite]

@[simp] theorem State.scrWrite_cmdl (s : State) (i : BitVec 17) (v : Block) :
    (s.scrWrite i v).cmdl = s.cmdl := by simp only [State.scrWrite]

@[simp] theorem State.scrWrite_phase (s : State) (i : BitVec 17) (v : Block) :
    (s.scrWrite i v).phase = s.phase := by simp only [State.scrWrite]

@[simp] theorem State.scrWrite_seq (s : State) (i : BitVec 17) (v : Block) :
    (s.scrWrite i v).seq = s.seq := by simp only [State.scrWrite]

@[simp] theorem State.scrWrite_tc (s : State) (i : BitVec 17) (v : Block) :
    (s.scrWrite i v).tc = s.tc := by simp only [State.scrWrite]

@[simp] theorem State.scrWrite_tcValid (s : State) (i : BitVec 17) (v : Block) :
    (s.scrWrite i v).tcValid = s.tcValid := by simp only [State.scrWrite]

@[simp] theorem State.scrWrite_tcArrived (s : State) (i : BitVec 17) (v : Block) :
    (s.scrWrite i v).tcArrived = s.tcArrived := by simp only [State.scrWrite]

@[simp] theorem State.scrWrite_mem (s : State) (i : BitVec 17) (v : Block) :
    (s.scrWrite i v).mem = s.mem.writeBlock (s.scratchBlockAddr i) v := by simp only [State.scrWrite]

@[simp] theorem State.scrWrite_heldMem (s : State) (i : BitVec 17) (v : Block) :
    (s.scrWrite i v).heldMem = s.heldMem := by simp only [State.scrWrite]

@[simp] theorem State.scrWrite_fault (s : State) (i : BitVec 17) (v : Block) :
    (s.scrWrite i v).fault = s.fault := by simp only [State.scrWrite]

@[simp] theorem State.scrWrite_platform (s : State) (i : BitVec 17) (v : Block) :
    (s.scrWrite i v).platform = s.platform := by simp only [State.scrWrite]

@[simp] theorem State.scrWrite_events (s : State) (i : BitVec 17) (v : Block) :
    (s.scrWrite i v).events = s.events := by simp only [State.scrWrite]

@[simp] theorem State.scrWrite_response (s : State) (i : BitVec 17) (v : Block) :
    (s.scrWrite i v).response = s.response := by simp only [State.scrWrite]

@[simp] theorem State.scrWrite_draws (s : State) (i : BitVec 17) (v : Block) :
    (s.scrWrite i v).draws = s.draws := by simp only [State.scrWrite]

/-! `releaseEngine`. -/

@[simp] theorem State.releaseEngine_irqEn (s : State) :
    s.releaseEngine.irqEn = s.irqEn := by simp only [State.releaseEngine]

@[simp] theorem State.releaseEngine_status (s : State) :
    s.releaseEngine.status = s.status := by simp only [State.releaseEngine]

@[simp] theorem State.releaseEngine_rounds (s : State) :
    s.releaseEngine.rounds = s.rounds := by simp only [State.releaseEngine]

@[simp] theorem State.releaseEngine_dataAddr (s : State) :
    s.releaseEngine.dataAddr = s.dataAddr := by simp only [State.releaseEngine]

@[simp] theorem State.releaseEngine_dataLen (s : State) :
    s.releaseEngine.dataLen = s.dataLen := by simp only [State.releaseEngine]

@[simp] theorem State.releaseEngine_scratchAddr (s : State) :
    s.releaseEngine.scratchAddr = s.scratchAddr := by simp only [State.releaseEngine]

@[simp] theorem State.releaseEngine_key (s : State) :
    s.releaseEngine.key = s.key := by simp only [State.releaseEngine]

@[simp] theorem State.releaseEngine_din (s : State) :
    s.releaseEngine.din = s.din := by simp only [State.releaseEngine]

@[simp] theorem State.releaseEngine_rkey (s : State) :
    s.releaseEngine.rkey = s.rkey := by simp only [State.releaseEngine]

@[simp] theorem State.releaseEngine_dout (s : State) :
    s.releaseEngine.dout = s.dout := by simp only [State.releaseEngine]

@[simp] theorem State.releaseEngine_digest (s : State) :
    s.releaseEngine.digest = s.digest := by simp only [State.releaseEngine]

@[simp] theorem State.releaseEngine_stateBuf (s : State) :
    s.releaseEngine.stateBuf = s.stateBuf := by simp only [State.releaseEngine]

@[simp] theorem State.releaseEngine_ek (s : State) :
    s.releaseEngine.ek = s.ek := by simp only [State.releaseEngine]

@[simp] theorem State.releaseEngine_dk (s : State) :
    s.releaseEngine.dk = s.dk := by simp only [State.releaseEngine]

@[simp] theorem State.releaseEngine_hk (s : State) :
    s.releaseEngine.hk = Vector.ofFn fun i => Config.free 32 s.draws i.val := by simp only [State.releaseEngine]

@[simp] theorem State.releaseEngine_text (s : State) :
    s.releaseEngine.text = Vector.ofFn fun k => s.freeBytes 16 (16 * k.val) := by simp only [State.releaseEngine]

@[simp] theorem State.releaseEngine_a (s : State) :
    s.releaseEngine.a = s.freeBytes 16 128 := by simp only [State.releaseEngine]

@[simp] theorem State.releaseEngine_b (s : State) :
    s.releaseEngine.b = s.freeBytes 16 144 := by simp only [State.releaseEngine]

@[simp] theorem State.releaseEngine_c (s : State) :
    s.releaseEngine.c = s.freeBytes 16 160 := by simp only [State.releaseEngine]

@[simp] theorem State.releaseEngine_d (s : State) :
    s.releaseEngine.d = s.freeBytes 16 176 := by simp only [State.releaseEngine]

@[simp] theorem State.releaseEngine_e (s : State) :
    s.releaseEngine.e = s.freeBytes 16 192 := by simp only [State.releaseEngine]

@[simp] theorem State.releaseEngine_hi (s : State) :
    s.releaseEngine.hi = Config.free 64 s.draws 0 := by simp only [State.releaseEngine]

@[simp] theorem State.releaseEngine_lo (s : State) :
    s.releaseEngine.lo = Config.free 64 s.draws 1 := by simp only [State.releaseEngine]

@[simp] theorem State.releaseEngine_j (s : State) :
    s.releaseEngine.j = Config.free 17 s.draws 0 := by simp only [State.releaseEngine]

@[simp] theorem State.releaseEngine_sponge (s : State) :
    s.releaseEngine.sponge = s.freeBytes 200 208 := by simp only [State.releaseEngine]

@[simp] theorem State.releaseEngine_ksave (s : State) :
    s.releaseEngine.ksave = s.ksave := by simp only [State.releaseEngine]

@[simp] theorem State.releaseEngine_bsave (s : State) :
    s.releaseEngine.bsave = s.bsave := by simp only [State.releaseEngine]

@[simp] theorem State.releaseEngine_cmdl (s : State) :
    s.releaseEngine.cmdl = s.cmdl := by simp only [State.releaseEngine]

@[simp] theorem State.releaseEngine_phase (s : State) :
    s.releaseEngine.phase = s.phase := by simp only [State.releaseEngine]

@[simp] theorem State.releaseEngine_seq (s : State) :
    s.releaseEngine.seq = s.seq := by simp only [State.releaseEngine]

@[simp] theorem State.releaseEngine_tc (s : State) :
    s.releaseEngine.tc = s.tc := by simp only [State.releaseEngine]

@[simp] theorem State.releaseEngine_tcValid (s : State) :
    s.releaseEngine.tcValid = s.tcValid := by simp only [State.releaseEngine]

@[simp] theorem State.releaseEngine_tcArrived (s : State) :
    s.releaseEngine.tcArrived = s.tcArrived := by simp only [State.releaseEngine]

@[simp] theorem State.releaseEngine_mem (s : State) :
    s.releaseEngine.mem = s.mem := by simp only [State.releaseEngine]

@[simp] theorem State.releaseEngine_heldMem (s : State) :
    s.releaseEngine.heldMem = s.heldMem := by simp only [State.releaseEngine]

@[simp] theorem State.releaseEngine_fault (s : State) :
    s.releaseEngine.fault = s.fault := by simp only [State.releaseEngine]

@[simp] theorem State.releaseEngine_platform (s : State) :
    s.releaseEngine.platform = s.platform := by simp only [State.releaseEngine]

@[simp] theorem State.releaseEngine_events (s : State) :
    s.releaseEngine.events = s.events := by simp only [State.releaseEngine]

@[simp] theorem State.releaseEngine_response (s : State) :
    s.releaseEngine.response = s.response := by simp only [State.releaseEngine]

@[simp] theorem State.releaseEngine_draws (s : State) :
    s.releaseEngine.draws = s.draws + 1 := by simp only [State.releaseEngine]

/-! `releaseMix`. -/

@[simp] theorem State.releaseMix_irqEn (s : State) :
    s.releaseMix.irqEn = s.irqEn := by simp only [State.releaseMix]

@[simp] theorem State.releaseMix_status (s : State) :
    s.releaseMix.status = s.status := by simp only [State.releaseMix]

@[simp] theorem State.releaseMix_rounds (s : State) :
    s.releaseMix.rounds = s.rounds := by simp only [State.releaseMix]

@[simp] theorem State.releaseMix_dataAddr (s : State) :
    s.releaseMix.dataAddr = s.dataAddr := by simp only [State.releaseMix]

@[simp] theorem State.releaseMix_dataLen (s : State) :
    s.releaseMix.dataLen = s.dataLen := by simp only [State.releaseMix]

@[simp] theorem State.releaseMix_scratchAddr (s : State) :
    s.releaseMix.scratchAddr = s.scratchAddr := by simp only [State.releaseMix]

@[simp] theorem State.releaseMix_key (s : State) :
    s.releaseMix.key = s.key := by simp only [State.releaseMix]

@[simp] theorem State.releaseMix_din (s : State) :
    s.releaseMix.din = s.din := by simp only [State.releaseMix]

@[simp] theorem State.releaseMix_rkey (s : State) :
    s.releaseMix.rkey = s.rkey := by simp only [State.releaseMix]

@[simp] theorem State.releaseMix_dout (s : State) :
    s.releaseMix.dout = s.dout := by simp only [State.releaseMix]

@[simp] theorem State.releaseMix_digest (s : State) :
    s.releaseMix.digest = s.digest := by simp only [State.releaseMix]

@[simp] theorem State.releaseMix_stateBuf (s : State) :
    s.releaseMix.stateBuf = s.stateBuf := by simp only [State.releaseMix]

@[simp] theorem State.releaseMix_ek (s : State) :
    s.releaseMix.ek = s.ek := by simp only [State.releaseMix]

@[simp] theorem State.releaseMix_dk (s : State) :
    s.releaseMix.dk = s.dk := by simp only [State.releaseMix]

@[simp] theorem State.releaseMix_hk (s : State) :
    s.releaseMix.hk = s.hk := by simp only [State.releaseMix]

@[simp] theorem State.releaseMix_text (s : State) :
    s.releaseMix.text = s.text := by simp only [State.releaseMix]

@[simp] theorem State.releaseMix_a (s : State) :
    s.releaseMix.a = s.a := by simp only [State.releaseMix]

@[simp] theorem State.releaseMix_b (s : State) :
    s.releaseMix.b = s.b := by simp only [State.releaseMix]

@[simp] theorem State.releaseMix_c (s : State) :
    s.releaseMix.c = s.c := by simp only [State.releaseMix]

@[simp] theorem State.releaseMix_d (s : State) :
    s.releaseMix.d = s.d := by simp only [State.releaseMix]

@[simp] theorem State.releaseMix_e (s : State) :
    s.releaseMix.e = s.e := by simp only [State.releaseMix]

@[simp] theorem State.releaseMix_hi (s : State) :
    s.releaseMix.hi = Config.free 64 s.draws 0 := by simp only [State.releaseMix]

@[simp] theorem State.releaseMix_lo (s : State) :
    s.releaseMix.lo = Config.free 64 s.draws 1 := by simp only [State.releaseMix]

@[simp] theorem State.releaseMix_j (s : State) :
    s.releaseMix.j = Config.free 17 s.draws 0 := by simp only [State.releaseMix]

@[simp] theorem State.releaseMix_sponge (s : State) :
    s.releaseMix.sponge = s.sponge := by simp only [State.releaseMix]

@[simp] theorem State.releaseMix_ksave (s : State) :
    s.releaseMix.ksave = s.ksave := by simp only [State.releaseMix]

@[simp] theorem State.releaseMix_bsave (s : State) :
    s.releaseMix.bsave = s.bsave := by simp only [State.releaseMix]

@[simp] theorem State.releaseMix_cmdl (s : State) :
    s.releaseMix.cmdl = s.cmdl := by simp only [State.releaseMix]

@[simp] theorem State.releaseMix_phase (s : State) :
    s.releaseMix.phase = s.phase := by simp only [State.releaseMix]

@[simp] theorem State.releaseMix_seq (s : State) :
    s.releaseMix.seq = s.seq := by simp only [State.releaseMix]

@[simp] theorem State.releaseMix_tc (s : State) :
    s.releaseMix.tc = s.tc := by simp only [State.releaseMix]

@[simp] theorem State.releaseMix_tcValid (s : State) :
    s.releaseMix.tcValid = s.tcValid := by simp only [State.releaseMix]

@[simp] theorem State.releaseMix_tcArrived (s : State) :
    s.releaseMix.tcArrived = s.tcArrived := by simp only [State.releaseMix]

@[simp] theorem State.releaseMix_mem (s : State) :
    s.releaseMix.mem = s.mem := by simp only [State.releaseMix]

@[simp] theorem State.releaseMix_heldMem (s : State) :
    s.releaseMix.heldMem = s.heldMem := by simp only [State.releaseMix]

@[simp] theorem State.releaseMix_fault (s : State) :
    s.releaseMix.fault = s.fault := by simp only [State.releaseMix]

@[simp] theorem State.releaseMix_platform (s : State) :
    s.releaseMix.platform = s.platform := by simp only [State.releaseMix]

@[simp] theorem State.releaseMix_events (s : State) :
    s.releaseMix.events = s.events := by simp only [State.releaseMix]

@[simp] theorem State.releaseMix_response (s : State) :
    s.releaseMix.response = s.response := by simp only [State.releaseMix]

@[simp] theorem State.releaseMix_draws (s : State) :
    s.releaseMix.draws = s.draws + 1 := by simp only [State.releaseMix]

/-! `drawFirst`. -/

@[simp] theorem State.drawFirst_irqEn (s : State) (n : Nat) :
    (s.drawFirst n).irqEn = s.irqEn := by simp only [State.drawFirst]

@[simp] theorem State.drawFirst_status (s : State) (n : Nat) :
    (s.drawFirst n).status = s.status := by simp only [State.drawFirst]

@[simp] theorem State.drawFirst_rounds (s : State) (n : Nat) :
    (s.drawFirst n).rounds = s.rounds := by simp only [State.drawFirst]

@[simp] theorem State.drawFirst_dataAddr (s : State) (n : Nat) :
    (s.drawFirst n).dataAddr = s.dataAddr := by simp only [State.drawFirst]

@[simp] theorem State.drawFirst_dataLen (s : State) (n : Nat) :
    (s.drawFirst n).dataLen = s.dataLen := by simp only [State.drawFirst]

@[simp] theorem State.drawFirst_scratchAddr (s : State) (n : Nat) :
    (s.drawFirst n).scratchAddr = s.scratchAddr := by simp only [State.drawFirst]

@[simp] theorem State.drawFirst_key (s : State) (n : Nat) :
    (s.drawFirst n).key = s.key := by simp only [State.drawFirst]

@[simp] theorem State.drawFirst_din (s : State) (n : Nat) :
    (s.drawFirst n).din = s.din := by simp only [State.drawFirst]

@[simp] theorem State.drawFirst_rkey (s : State) (n : Nat) :
    (s.drawFirst n).rkey = s.rkey := by simp only [State.drawFirst]

@[simp] theorem State.drawFirst_dout (s : State) (n : Nat) :
    (s.drawFirst n).dout = s.dout := by simp only [State.drawFirst]

@[simp] theorem State.drawFirst_digest (s : State) (n : Nat) :
    (s.drawFirst n).digest = s.digest := by simp only [State.drawFirst]

@[simp] theorem State.drawFirst_stateBuf (s : State) (n : Nat) :
    (s.drawFirst n).stateBuf = s.stateBuf := by simp only [State.drawFirst]

@[simp] theorem State.drawFirst_ek (s : State) (n : Nat) :
    (s.drawFirst n).ek = s.ek := by simp only [State.drawFirst]

@[simp] theorem State.drawFirst_dk (s : State) (n : Nat) :
    (s.drawFirst n).dk = s.dk := by simp only [State.drawFirst]

@[simp] theorem State.drawFirst_hk (s : State) (n : Nat) :
    (s.drawFirst n).hk = s.hk := by simp only [State.drawFirst]

@[simp] theorem State.drawFirst_text (s : State) (n : Nat) :
    (s.drawFirst n).text = s.text := by simp only [State.drawFirst]

@[simp] theorem State.drawFirst_a (s : State) (n : Nat) :
    (s.drawFirst n).a = s.a := by simp only [State.drawFirst]

@[simp] theorem State.drawFirst_b (s : State) (n : Nat) :
    (s.drawFirst n).b = s.b := by simp only [State.drawFirst]

@[simp] theorem State.drawFirst_c (s : State) (n : Nat) :
    (s.drawFirst n).c = s.c := by simp only [State.drawFirst]

@[simp] theorem State.drawFirst_d (s : State) (n : Nat) :
    (s.drawFirst n).d = s.d := by simp only [State.drawFirst]

@[simp] theorem State.drawFirst_e (s : State) (n : Nat) :
    (s.drawFirst n).e = s.e := by simp only [State.drawFirst]

@[simp] theorem State.drawFirst_hi (s : State) (n : Nat) :
    (s.drawFirst n).hi = s.hi := by simp only [State.drawFirst]

@[simp] theorem State.drawFirst_lo (s : State) (n : Nat) :
    (s.drawFirst n).lo = s.lo := by simp only [State.drawFirst]

@[simp] theorem State.drawFirst_j (s : State) (n : Nat) :
    (s.drawFirst n).j = s.j := by simp only [State.drawFirst]

@[simp] theorem State.drawFirst_sponge (s : State) (n : Nat) :
    (s.drawFirst n).sponge = s.sponge := by simp only [State.drawFirst]

@[simp] theorem State.drawFirst_ksave (s : State) (n : Nat) :
    (s.drawFirst n).ksave = s.ksave := by simp only [State.drawFirst]

@[simp] theorem State.drawFirst_bsave (s : State) (n : Nat) :
    (s.drawFirst n).bsave = s.bsave := by simp only [State.drawFirst]

@[simp] theorem State.drawFirst_cmdl (s : State) (n : Nat) :
    (s.drawFirst n).cmdl = s.cmdl := by simp only [State.drawFirst]

@[simp] theorem State.drawFirst_phase (s : State) (n : Nat) :
    (s.drawFirst n).phase = s.phase := by simp only [State.drawFirst]

@[simp] theorem State.drawFirst_seq (s : State) (n : Nat) :
    (s.drawFirst n).seq = s.seq := by simp only [State.drawFirst]

@[simp] theorem State.drawFirst_tc (s : State) (n : Nat) :
    (s.drawFirst n).tc = s.tc := by simp only [State.drawFirst]

@[simp] theorem State.drawFirst_tcValid (s : State) (n : Nat) :
    (s.drawFirst n).tcValid = s.tcValid := by simp only [State.drawFirst]

@[simp] theorem State.drawFirst_tcArrived (s : State) (n : Nat) :
    (s.drawFirst n).tcArrived = s.tcArrived := by simp only [State.drawFirst]

@[simp] theorem State.drawFirst_mem (s : State) (n : Nat) :
    (s.drawFirst n).mem = s.mem.drawBytes s.scratchAddr.toNat s.draws n := by simp only [State.drawFirst]

@[simp] theorem State.drawFirst_heldMem (s : State) (n : Nat) :
    (s.drawFirst n).heldMem = s.heldMem := by simp only [State.drawFirst]

@[simp] theorem State.drawFirst_fault (s : State) (n : Nat) :
    (s.drawFirst n).fault = s.fault := by simp only [State.drawFirst]

@[simp] theorem State.drawFirst_platform (s : State) (n : Nat) :
    (s.drawFirst n).platform = s.platform := by simp only [State.drawFirst]

@[simp] theorem State.drawFirst_events (s : State) (n : Nat) :
    (s.drawFirst n).events = s.events := by simp only [State.drawFirst]

@[simp] theorem State.drawFirst_response (s : State) (n : Nat) :
    (s.drawFirst n).response = s.response := by simp only [State.drawFirst]

@[simp] theorem State.drawFirst_draws (s : State) (n : Nat) :
    (s.drawFirst n).draws = s.draws + 1 := by simp only [State.drawFirst]

/-! `drawWindow`. -/

@[simp] theorem State.drawWindow_irqEn (s : State) :
    s.drawWindow.irqEn = s.irqEn := by simp [State.drawWindow]

@[simp] theorem State.drawWindow_status (s : State) :
    s.drawWindow.status = s.status := by simp [State.drawWindow]

@[simp] theorem State.drawWindow_rounds (s : State) :
    s.drawWindow.rounds = s.rounds := by simp [State.drawWindow]

@[simp] theorem State.drawWindow_dataAddr (s : State) :
    s.drawWindow.dataAddr = s.dataAddr := by simp [State.drawWindow]

@[simp] theorem State.drawWindow_dataLen (s : State) :
    s.drawWindow.dataLen = s.dataLen := by simp [State.drawWindow]

@[simp] theorem State.drawWindow_scratchAddr (s : State) :
    s.drawWindow.scratchAddr = s.scratchAddr := by simp [State.drawWindow]

@[simp] theorem State.drawWindow_key (s : State) :
    s.drawWindow.key = s.key := by simp [State.drawWindow]

@[simp] theorem State.drawWindow_din (s : State) :
    s.drawWindow.din = s.din := by simp [State.drawWindow]

@[simp] theorem State.drawWindow_rkey (s : State) :
    s.drawWindow.rkey = s.rkey := by simp [State.drawWindow]

@[simp] theorem State.drawWindow_dout (s : State) :
    s.drawWindow.dout = s.dout := by simp [State.drawWindow]

@[simp] theorem State.drawWindow_digest (s : State) :
    s.drawWindow.digest = s.digest := by simp [State.drawWindow]

@[simp] theorem State.drawWindow_stateBuf (s : State) :
    s.drawWindow.stateBuf = s.stateBuf := by simp [State.drawWindow]

@[simp] theorem State.drawWindow_ek (s : State) :
    s.drawWindow.ek = s.ek := by simp [State.drawWindow]

@[simp] theorem State.drawWindow_dk (s : State) :
    s.drawWindow.dk = s.dk := by simp [State.drawWindow]

@[simp] theorem State.drawWindow_hk (s : State) :
    s.drawWindow.hk = s.hk := by simp [State.drawWindow]

@[simp] theorem State.drawWindow_text (s : State) :
    s.drawWindow.text = s.text := by simp [State.drawWindow]

@[simp] theorem State.drawWindow_a (s : State) :
    s.drawWindow.a = s.a := by simp [State.drawWindow]

@[simp] theorem State.drawWindow_b (s : State) :
    s.drawWindow.b = s.b := by simp [State.drawWindow]

@[simp] theorem State.drawWindow_c (s : State) :
    s.drawWindow.c = s.c := by simp [State.drawWindow]

@[simp] theorem State.drawWindow_d (s : State) :
    s.drawWindow.d = s.d := by simp [State.drawWindow]

@[simp] theorem State.drawWindow_e (s : State) :
    s.drawWindow.e = s.e := by simp [State.drawWindow]

@[simp] theorem State.drawWindow_hi (s : State) :
    s.drawWindow.hi = s.hi := by simp [State.drawWindow]

@[simp] theorem State.drawWindow_lo (s : State) :
    s.drawWindow.lo = s.lo := by simp [State.drawWindow]

@[simp] theorem State.drawWindow_j (s : State) :
    s.drawWindow.j = s.j := by simp [State.drawWindow]

@[simp] theorem State.drawWindow_sponge (s : State) :
    s.drawWindow.sponge = s.sponge := by simp [State.drawWindow]

@[simp] theorem State.drawWindow_ksave (s : State) :
    s.drawWindow.ksave = s.ksave := by simp [State.drawWindow]

@[simp] theorem State.drawWindow_bsave (s : State) :
    s.drawWindow.bsave = s.bsave := by simp [State.drawWindow]

@[simp] theorem State.drawWindow_cmdl (s : State) :
    s.drawWindow.cmdl = s.cmdl := by simp [State.drawWindow]

@[simp] theorem State.drawWindow_phase (s : State) :
    s.drawWindow.phase = s.phase := by simp [State.drawWindow]

@[simp] theorem State.drawWindow_seq (s : State) :
    s.drawWindow.seq = s.seq := by simp [State.drawWindow]

@[simp] theorem State.drawWindow_tc (s : State) :
    s.drawWindow.tc = s.tc := by simp [State.drawWindow]

@[simp] theorem State.drawWindow_tcValid (s : State) :
    s.drawWindow.tcValid = s.tcValid := by simp [State.drawWindow]

@[simp] theorem State.drawWindow_tcArrived (s : State) :
    s.drawWindow.tcArrived = s.tcArrived := by simp [State.drawWindow]

@[simp] theorem State.drawWindow_mem (s : State) :
    s.drawWindow.mem = s.mem.drawBytes s.scratchAddr.toNat s.draws scratchBytes := by simp [State.drawWindow]

@[simp] theorem State.drawWindow_heldMem (s : State) :
    s.drawWindow.heldMem = s.heldMem := by simp [State.drawWindow]

@[simp] theorem State.drawWindow_fault (s : State) :
    s.drawWindow.fault = s.fault := by simp [State.drawWindow]

@[simp] theorem State.drawWindow_platform (s : State) :
    s.drawWindow.platform = s.platform := by simp [State.drawWindow]

@[simp] theorem State.drawWindow_events (s : State) :
    s.drawWindow.events = s.events := by simp [State.drawWindow]

@[simp] theorem State.drawWindow_response (s : State) :
    s.drawWindow.response = s.response := by simp [State.drawWindow]

@[simp] theorem State.drawWindow_draws (s : State) :
    s.drawWindow.draws = s.draws + 1 := by simp [State.drawWindow]

/-! `releaseKeyLatch`. -/

@[simp] theorem State.releaseKeyLatch_irqEn (s : State) :
    s.releaseKeyLatch.irqEn = s.irqEn := by simp only [State.releaseKeyLatch]

@[simp] theorem State.releaseKeyLatch_status (s : State) :
    s.releaseKeyLatch.status = s.status := by simp only [State.releaseKeyLatch]

@[simp] theorem State.releaseKeyLatch_rounds (s : State) :
    s.releaseKeyLatch.rounds = s.rounds := by simp only [State.releaseKeyLatch]

@[simp] theorem State.releaseKeyLatch_dataAddr (s : State) :
    s.releaseKeyLatch.dataAddr = s.dataAddr := by simp only [State.releaseKeyLatch]

@[simp] theorem State.releaseKeyLatch_dataLen (s : State) :
    s.releaseKeyLatch.dataLen = s.dataLen := by simp only [State.releaseKeyLatch]

@[simp] theorem State.releaseKeyLatch_scratchAddr (s : State) :
    s.releaseKeyLatch.scratchAddr = s.scratchAddr := by simp only [State.releaseKeyLatch]

@[simp] theorem State.releaseKeyLatch_key (s : State) :
    s.releaseKeyLatch.key = s.key := by simp only [State.releaseKeyLatch]

@[simp] theorem State.releaseKeyLatch_din (s : State) :
    s.releaseKeyLatch.din = s.din := by simp only [State.releaseKeyLatch]

@[simp] theorem State.releaseKeyLatch_rkey (s : State) :
    s.releaseKeyLatch.rkey = s.rkey := by simp only [State.releaseKeyLatch]

@[simp] theorem State.releaseKeyLatch_dout (s : State) :
    s.releaseKeyLatch.dout = s.dout := by simp only [State.releaseKeyLatch]

@[simp] theorem State.releaseKeyLatch_digest (s : State) :
    s.releaseKeyLatch.digest = s.digest := by simp only [State.releaseKeyLatch]

@[simp] theorem State.releaseKeyLatch_stateBuf (s : State) :
    s.releaseKeyLatch.stateBuf = s.stateBuf := by simp only [State.releaseKeyLatch]

@[simp] theorem State.releaseKeyLatch_ek (s : State) :
    s.releaseKeyLatch.ek = s.ek := by simp only [State.releaseKeyLatch]

@[simp] theorem State.releaseKeyLatch_dk (s : State) :
    s.releaseKeyLatch.dk = s.dk := by simp only [State.releaseKeyLatch]

@[simp] theorem State.releaseKeyLatch_hk (s : State) :
    s.releaseKeyLatch.hk = s.hk := by simp only [State.releaseKeyLatch]

@[simp] theorem State.releaseKeyLatch_text (s : State) :
    s.releaseKeyLatch.text = s.text := by simp only [State.releaseKeyLatch]

@[simp] theorem State.releaseKeyLatch_a (s : State) :
    s.releaseKeyLatch.a = s.a := by simp only [State.releaseKeyLatch]

@[simp] theorem State.releaseKeyLatch_b (s : State) :
    s.releaseKeyLatch.b = s.b := by simp only [State.releaseKeyLatch]

@[simp] theorem State.releaseKeyLatch_c (s : State) :
    s.releaseKeyLatch.c = s.c := by simp only [State.releaseKeyLatch]

@[simp] theorem State.releaseKeyLatch_d (s : State) :
    s.releaseKeyLatch.d = s.d := by simp only [State.releaseKeyLatch]

@[simp] theorem State.releaseKeyLatch_e (s : State) :
    s.releaseKeyLatch.e = s.e := by simp only [State.releaseKeyLatch]

@[simp] theorem State.releaseKeyLatch_hi (s : State) :
    s.releaseKeyLatch.hi = s.hi := by simp only [State.releaseKeyLatch]

@[simp] theorem State.releaseKeyLatch_lo (s : State) :
    s.releaseKeyLatch.lo = s.lo := by simp only [State.releaseKeyLatch]

@[simp] theorem State.releaseKeyLatch_j (s : State) :
    s.releaseKeyLatch.j = s.j := by simp only [State.releaseKeyLatch]

@[simp] theorem State.releaseKeyLatch_sponge (s : State) :
    s.releaseKeyLatch.sponge = s.sponge := by simp only [State.releaseKeyLatch]

@[simp] theorem State.releaseKeyLatch_ksave (s : State) :
    s.releaseKeyLatch.ksave = s.freeBytes 32 408 := by simp only [State.releaseKeyLatch]

@[simp] theorem State.releaseKeyLatch_bsave (s : State) :
    s.releaseKeyLatch.bsave = s.bsave := by simp only [State.releaseKeyLatch]

@[simp] theorem State.releaseKeyLatch_cmdl (s : State) :
    s.releaseKeyLatch.cmdl = s.cmdl := by simp only [State.releaseKeyLatch]

@[simp] theorem State.releaseKeyLatch_phase (s : State) :
    s.releaseKeyLatch.phase = s.phase := by simp only [State.releaseKeyLatch]

@[simp] theorem State.releaseKeyLatch_seq (s : State) :
    s.releaseKeyLatch.seq = s.seq := by simp only [State.releaseKeyLatch]

@[simp] theorem State.releaseKeyLatch_tc (s : State) :
    s.releaseKeyLatch.tc = s.tc := by simp only [State.releaseKeyLatch]

@[simp] theorem State.releaseKeyLatch_tcValid (s : State) :
    s.releaseKeyLatch.tcValid = s.tcValid := by simp only [State.releaseKeyLatch]

@[simp] theorem State.releaseKeyLatch_tcArrived (s : State) :
    s.releaseKeyLatch.tcArrived = s.tcArrived := by simp only [State.releaseKeyLatch]

@[simp] theorem State.releaseKeyLatch_mem (s : State) :
    s.releaseKeyLatch.mem = s.mem := by simp only [State.releaseKeyLatch]

@[simp] theorem State.releaseKeyLatch_heldMem (s : State) :
    s.releaseKeyLatch.heldMem = s.heldMem := by simp only [State.releaseKeyLatch]

@[simp] theorem State.releaseKeyLatch_fault (s : State) :
    s.releaseKeyLatch.fault = s.fault := by simp only [State.releaseKeyLatch]

@[simp] theorem State.releaseKeyLatch_platform (s : State) :
    s.releaseKeyLatch.platform = s.platform := by simp only [State.releaseKeyLatch]

@[simp] theorem State.releaseKeyLatch_events (s : State) :
    s.releaseKeyLatch.events = s.events := by simp only [State.releaseKeyLatch]

@[simp] theorem State.releaseKeyLatch_response (s : State) :
    s.releaseKeyLatch.response = s.response := by simp only [State.releaseKeyLatch]

@[simp] theorem State.releaseKeyLatch_draws (s : State) :
    s.releaseKeyLatch.draws = s.draws + 1 := by simp only [State.releaseKeyLatch]

/-! `releaseBlockLatch`. -/

@[simp] theorem State.releaseBlockLatch_irqEn (s : State) :
    s.releaseBlockLatch.irqEn = s.irqEn := by simp only [State.releaseBlockLatch]

@[simp] theorem State.releaseBlockLatch_status (s : State) :
    s.releaseBlockLatch.status = s.status := by simp only [State.releaseBlockLatch]

@[simp] theorem State.releaseBlockLatch_rounds (s : State) :
    s.releaseBlockLatch.rounds = s.rounds := by simp only [State.releaseBlockLatch]

@[simp] theorem State.releaseBlockLatch_dataAddr (s : State) :
    s.releaseBlockLatch.dataAddr = s.dataAddr := by simp only [State.releaseBlockLatch]

@[simp] theorem State.releaseBlockLatch_dataLen (s : State) :
    s.releaseBlockLatch.dataLen = s.dataLen := by simp only [State.releaseBlockLatch]

@[simp] theorem State.releaseBlockLatch_scratchAddr (s : State) :
    s.releaseBlockLatch.scratchAddr = s.scratchAddr := by simp only [State.releaseBlockLatch]

@[simp] theorem State.releaseBlockLatch_key (s : State) :
    s.releaseBlockLatch.key = s.key := by simp only [State.releaseBlockLatch]

@[simp] theorem State.releaseBlockLatch_din (s : State) :
    s.releaseBlockLatch.din = s.din := by simp only [State.releaseBlockLatch]

@[simp] theorem State.releaseBlockLatch_rkey (s : State) :
    s.releaseBlockLatch.rkey = s.rkey := by simp only [State.releaseBlockLatch]

@[simp] theorem State.releaseBlockLatch_dout (s : State) :
    s.releaseBlockLatch.dout = s.dout := by simp only [State.releaseBlockLatch]

@[simp] theorem State.releaseBlockLatch_digest (s : State) :
    s.releaseBlockLatch.digest = s.digest := by simp only [State.releaseBlockLatch]

@[simp] theorem State.releaseBlockLatch_stateBuf (s : State) :
    s.releaseBlockLatch.stateBuf = s.stateBuf := by simp only [State.releaseBlockLatch]

@[simp] theorem State.releaseBlockLatch_ek (s : State) :
    s.releaseBlockLatch.ek = s.ek := by simp only [State.releaseBlockLatch]

@[simp] theorem State.releaseBlockLatch_dk (s : State) :
    s.releaseBlockLatch.dk = s.dk := by simp only [State.releaseBlockLatch]

@[simp] theorem State.releaseBlockLatch_hk (s : State) :
    s.releaseBlockLatch.hk = s.hk := by simp only [State.releaseBlockLatch]

@[simp] theorem State.releaseBlockLatch_text (s : State) :
    s.releaseBlockLatch.text = s.text := by simp only [State.releaseBlockLatch]

@[simp] theorem State.releaseBlockLatch_a (s : State) :
    s.releaseBlockLatch.a = s.a := by simp only [State.releaseBlockLatch]

@[simp] theorem State.releaseBlockLatch_b (s : State) :
    s.releaseBlockLatch.b = s.b := by simp only [State.releaseBlockLatch]

@[simp] theorem State.releaseBlockLatch_c (s : State) :
    s.releaseBlockLatch.c = s.c := by simp only [State.releaseBlockLatch]

@[simp] theorem State.releaseBlockLatch_d (s : State) :
    s.releaseBlockLatch.d = s.d := by simp only [State.releaseBlockLatch]

@[simp] theorem State.releaseBlockLatch_e (s : State) :
    s.releaseBlockLatch.e = s.e := by simp only [State.releaseBlockLatch]

@[simp] theorem State.releaseBlockLatch_hi (s : State) :
    s.releaseBlockLatch.hi = s.hi := by simp only [State.releaseBlockLatch]

@[simp] theorem State.releaseBlockLatch_lo (s : State) :
    s.releaseBlockLatch.lo = s.lo := by simp only [State.releaseBlockLatch]

@[simp] theorem State.releaseBlockLatch_j (s : State) :
    s.releaseBlockLatch.j = s.j := by simp only [State.releaseBlockLatch]

@[simp] theorem State.releaseBlockLatch_sponge (s : State) :
    s.releaseBlockLatch.sponge = s.sponge := by simp only [State.releaseBlockLatch]

@[simp] theorem State.releaseBlockLatch_ksave (s : State) :
    s.releaseBlockLatch.ksave = s.ksave := by simp only [State.releaseBlockLatch]

@[simp] theorem State.releaseBlockLatch_bsave (s : State) :
    s.releaseBlockLatch.bsave = s.freeBytes 16 440 := by simp only [State.releaseBlockLatch]

@[simp] theorem State.releaseBlockLatch_cmdl (s : State) :
    s.releaseBlockLatch.cmdl = s.cmdl := by simp only [State.releaseBlockLatch]

@[simp] theorem State.releaseBlockLatch_phase (s : State) :
    s.releaseBlockLatch.phase = s.phase := by simp only [State.releaseBlockLatch]

@[simp] theorem State.releaseBlockLatch_seq (s : State) :
    s.releaseBlockLatch.seq = s.seq := by simp only [State.releaseBlockLatch]

@[simp] theorem State.releaseBlockLatch_tc (s : State) :
    s.releaseBlockLatch.tc = s.tc := by simp only [State.releaseBlockLatch]

@[simp] theorem State.releaseBlockLatch_tcValid (s : State) :
    s.releaseBlockLatch.tcValid = s.tcValid := by simp only [State.releaseBlockLatch]

@[simp] theorem State.releaseBlockLatch_tcArrived (s : State) :
    s.releaseBlockLatch.tcArrived = s.tcArrived := by simp only [State.releaseBlockLatch]

@[simp] theorem State.releaseBlockLatch_mem (s : State) :
    s.releaseBlockLatch.mem = s.mem := by simp only [State.releaseBlockLatch]

@[simp] theorem State.releaseBlockLatch_heldMem (s : State) :
    s.releaseBlockLatch.heldMem = s.heldMem := by simp only [State.releaseBlockLatch]

@[simp] theorem State.releaseBlockLatch_fault (s : State) :
    s.releaseBlockLatch.fault = s.fault := by simp only [State.releaseBlockLatch]

@[simp] theorem State.releaseBlockLatch_platform (s : State) :
    s.releaseBlockLatch.platform = s.platform := by simp only [State.releaseBlockLatch]

@[simp] theorem State.releaseBlockLatch_events (s : State) :
    s.releaseBlockLatch.events = s.events := by simp only [State.releaseBlockLatch]

@[simp] theorem State.releaseBlockLatch_response (s : State) :
    s.releaseBlockLatch.response = s.response := by simp only [State.releaseBlockLatch]

@[simp] theorem State.releaseBlockLatch_draws (s : State) :
    s.releaseBlockLatch.draws = s.draws + 1 := by simp only [State.releaseBlockLatch]

/-! `setEncryptKey`. -/

@[simp] theorem State.setEncryptKey_irqEn (s : State) (bits : Nat) :
    (s.setEncryptKey bits).irqEn = s.irqEn := by simp only [State.setEncryptKey]

@[simp] theorem State.setEncryptKey_status (s : State) (bits : Nat) :
    (s.setEncryptKey bits).status = s.status.withKeys true false := by simp only [State.setEncryptKey]

@[simp] theorem State.setEncryptKey_rounds (s : State) (bits : Nat) :
    (s.setEncryptKey bits).rounds = BitVec.ofNat 32 (roundsOf bits) := by simp only [State.setEncryptKey]

@[simp] theorem State.setEncryptKey_dataAddr (s : State) (bits : Nat) :
    (s.setEncryptKey bits).dataAddr = s.dataAddr := by simp only [State.setEncryptKey]

@[simp] theorem State.setEncryptKey_dataLen (s : State) (bits : Nat) :
    (s.setEncryptKey bits).dataLen = s.dataLen := by simp only [State.setEncryptKey]

@[simp] theorem State.setEncryptKey_scratchAddr (s : State) (bits : Nat) :
    (s.setEncryptKey bits).scratchAddr = s.scratchAddr := by simp only [State.setEncryptKey]

@[simp] theorem State.setEncryptKey_key (s : State) (bits : Nat) :
    (s.setEncryptKey bits).key = s.key := by simp only [State.setEncryptKey]

@[simp] theorem State.setEncryptKey_din (s : State) (bits : Nat) :
    (s.setEncryptKey bits).din = s.din := by simp only [State.setEncryptKey]

@[simp] theorem State.setEncryptKey_rkey (s : State) (bits : Nat) :
    (s.setEncryptKey bits).rkey = s.rkey := by simp only [State.setEncryptKey]

@[simp] theorem State.setEncryptKey_dout (s : State) (bits : Nat) :
    (s.setEncryptKey bits).dout = s.dout := by simp only [State.setEncryptKey]

@[simp] theorem State.setEncryptKey_digest (s : State) (bits : Nat) :
    (s.setEncryptKey bits).digest = s.digest := by simp only [State.setEncryptKey]

@[simp] theorem State.setEncryptKey_stateBuf (s : State) (bits : Nat) :
    (s.setEncryptKey bits).stateBuf = s.stateBuf := by simp only [State.setEncryptKey]

@[simp] theorem State.setEncryptKey_ek (s : State) (bits : Nat) :
    (s.setEncryptKey bits).ek = storeSchedule (keyExpansion s.tables s.key bits) fun i => Config.free 32 s.draws i := by simp only [State.setEncryptKey]

@[simp] theorem State.setEncryptKey_dk (s : State) (bits : Nat) :
    (s.setEncryptKey bits).dk = s.dk := by simp only [State.setEncryptKey]

@[simp] theorem State.setEncryptKey_hk (s : State) (bits : Nat) :
    (s.setEncryptKey bits).hk = s.hk := by simp only [State.setEncryptKey]

@[simp] theorem State.setEncryptKey_text (s : State) (bits : Nat) :
    (s.setEncryptKey bits).text = s.text := by simp only [State.setEncryptKey]

@[simp] theorem State.setEncryptKey_a (s : State) (bits : Nat) :
    (s.setEncryptKey bits).a = s.a := by simp only [State.setEncryptKey]

@[simp] theorem State.setEncryptKey_b (s : State) (bits : Nat) :
    (s.setEncryptKey bits).b = s.b := by simp only [State.setEncryptKey]

@[simp] theorem State.setEncryptKey_c (s : State) (bits : Nat) :
    (s.setEncryptKey bits).c = s.c := by simp only [State.setEncryptKey]

@[simp] theorem State.setEncryptKey_d (s : State) (bits : Nat) :
    (s.setEncryptKey bits).d = s.d := by simp only [State.setEncryptKey]

@[simp] theorem State.setEncryptKey_e (s : State) (bits : Nat) :
    (s.setEncryptKey bits).e = s.e := by simp only [State.setEncryptKey]

@[simp] theorem State.setEncryptKey_hi (s : State) (bits : Nat) :
    (s.setEncryptKey bits).hi = s.hi := by simp only [State.setEncryptKey]

@[simp] theorem State.setEncryptKey_lo (s : State) (bits : Nat) :
    (s.setEncryptKey bits).lo = s.lo := by simp only [State.setEncryptKey]

@[simp] theorem State.setEncryptKey_j (s : State) (bits : Nat) :
    (s.setEncryptKey bits).j = s.j := by simp only [State.setEncryptKey]

@[simp] theorem State.setEncryptKey_sponge (s : State) (bits : Nat) :
    (s.setEncryptKey bits).sponge = s.sponge := by simp only [State.setEncryptKey]

@[simp] theorem State.setEncryptKey_ksave (s : State) (bits : Nat) :
    (s.setEncryptKey bits).ksave = s.key := by simp only [State.setEncryptKey]

@[simp] theorem State.setEncryptKey_bsave (s : State) (bits : Nat) :
    (s.setEncryptKey bits).bsave = s.bsave := by simp only [State.setEncryptKey]

@[simp] theorem State.setEncryptKey_cmdl (s : State) (bits : Nat) :
    (s.setEncryptKey bits).cmdl = s.cmdl := by simp only [State.setEncryptKey]

@[simp] theorem State.setEncryptKey_phase (s : State) (bits : Nat) :
    (s.setEncryptKey bits).phase = s.phase := by simp only [State.setEncryptKey]

@[simp] theorem State.setEncryptKey_seq (s : State) (bits : Nat) :
    (s.setEncryptKey bits).seq = s.seq := by simp only [State.setEncryptKey]

@[simp] theorem State.setEncryptKey_tc (s : State) (bits : Nat) :
    (s.setEncryptKey bits).tc = s.tc := by simp only [State.setEncryptKey]

@[simp] theorem State.setEncryptKey_tcValid (s : State) (bits : Nat) :
    (s.setEncryptKey bits).tcValid = s.tcValid := by simp only [State.setEncryptKey]

@[simp] theorem State.setEncryptKey_tcArrived (s : State) (bits : Nat) :
    (s.setEncryptKey bits).tcArrived = s.tcArrived := by simp only [State.setEncryptKey]

@[simp] theorem State.setEncryptKey_mem (s : State) (bits : Nat) :
    (s.setEncryptKey bits).mem = s.mem := by simp only [State.setEncryptKey]

@[simp] theorem State.setEncryptKey_heldMem (s : State) (bits : Nat) :
    (s.setEncryptKey bits).heldMem = s.heldMem := by simp only [State.setEncryptKey]

@[simp] theorem State.setEncryptKey_fault (s : State) (bits : Nat) :
    (s.setEncryptKey bits).fault = s.fault := by simp only [State.setEncryptKey]

@[simp] theorem State.setEncryptKey_platform (s : State) (bits : Nat) :
    (s.setEncryptKey bits).platform = s.platform := by simp only [State.setEncryptKey]

@[simp] theorem State.setEncryptKey_events (s : State) (bits : Nat) :
    (s.setEncryptKey bits).events = s.events := by simp only [State.setEncryptKey]

@[simp] theorem State.setEncryptKey_response (s : State) (bits : Nat) :
    (s.setEncryptKey bits).response = s.response := by simp only [State.setEncryptKey]

@[simp] theorem State.setEncryptKey_draws (s : State) (bits : Nat) :
    (s.setEncryptKey bits).draws = s.draws := by simp only [State.setEncryptKey]

/-! `setDecryptKey`. -/

@[simp] theorem State.setDecryptKey_irqEn (s : State) (bits : Nat) :
    (s.setDecryptKey bits).irqEn = s.irqEn := by simp only [State.setDecryptKey]

@[simp] theorem State.setDecryptKey_status (s : State) (bits : Nat) :
    (s.setDecryptKey bits).status = s.status.withKeys true true := by simp only [State.setDecryptKey]

@[simp] theorem State.setDecryptKey_rounds (s : State) (bits : Nat) :
    (s.setDecryptKey bits).rounds = s.rounds := by simp only [State.setDecryptKey]

@[simp] theorem State.setDecryptKey_dataAddr (s : State) (bits : Nat) :
    (s.setDecryptKey bits).dataAddr = s.dataAddr := by simp only [State.setDecryptKey]

@[simp] theorem State.setDecryptKey_dataLen (s : State) (bits : Nat) :
    (s.setDecryptKey bits).dataLen = s.dataLen := by simp only [State.setDecryptKey]

@[simp] theorem State.setDecryptKey_scratchAddr (s : State) (bits : Nat) :
    (s.setDecryptKey bits).scratchAddr = s.scratchAddr := by simp only [State.setDecryptKey]

@[simp] theorem State.setDecryptKey_key (s : State) (bits : Nat) :
    (s.setDecryptKey bits).key = s.key := by simp only [State.setDecryptKey]

@[simp] theorem State.setDecryptKey_din (s : State) (bits : Nat) :
    (s.setDecryptKey bits).din = s.din := by simp only [State.setDecryptKey]

@[simp] theorem State.setDecryptKey_rkey (s : State) (bits : Nat) :
    (s.setDecryptKey bits).rkey = s.rkey := by simp only [State.setDecryptKey]

@[simp] theorem State.setDecryptKey_dout (s : State) (bits : Nat) :
    (s.setDecryptKey bits).dout = s.dout := by simp only [State.setDecryptKey]

@[simp] theorem State.setDecryptKey_digest (s : State) (bits : Nat) :
    (s.setDecryptKey bits).digest = s.digest := by simp only [State.setDecryptKey]

@[simp] theorem State.setDecryptKey_stateBuf (s : State) (bits : Nat) :
    (s.setDecryptKey bits).stateBuf = s.stateBuf := by simp only [State.setDecryptKey]

@[simp] theorem State.setDecryptKey_ek (s : State) (bits : Nat) :
    (s.setDecryptKey bits).ek = s.ek := by simp only [State.setDecryptKey]

@[simp] theorem State.setDecryptKey_dk (s : State) (bits : Nat) :
    (s.setDecryptKey bits).dk = storeSchedule (deriveDecrypt s.tables (keyExpansion s.tables s.ksave bits) (roundsOf bits)) fun i => Config.free 32 s.draws (60 + i) := by simp only [State.setDecryptKey]

@[simp] theorem State.setDecryptKey_hk (s : State) (bits : Nat) :
    (s.setDecryptKey bits).hk = s.hk := by simp only [State.setDecryptKey]

@[simp] theorem State.setDecryptKey_text (s : State) (bits : Nat) :
    (s.setDecryptKey bits).text = s.text := by simp only [State.setDecryptKey]

@[simp] theorem State.setDecryptKey_a (s : State) (bits : Nat) :
    (s.setDecryptKey bits).a = s.a := by simp only [State.setDecryptKey]

@[simp] theorem State.setDecryptKey_b (s : State) (bits : Nat) :
    (s.setDecryptKey bits).b = s.b := by simp only [State.setDecryptKey]

@[simp] theorem State.setDecryptKey_c (s : State) (bits : Nat) :
    (s.setDecryptKey bits).c = s.c := by simp only [State.setDecryptKey]

@[simp] theorem State.setDecryptKey_d (s : State) (bits : Nat) :
    (s.setDecryptKey bits).d = s.d := by simp only [State.setDecryptKey]

@[simp] theorem State.setDecryptKey_e (s : State) (bits : Nat) :
    (s.setDecryptKey bits).e = s.e := by simp only [State.setDecryptKey]

@[simp] theorem State.setDecryptKey_hi (s : State) (bits : Nat) :
    (s.setDecryptKey bits).hi = s.hi := by simp only [State.setDecryptKey]

@[simp] theorem State.setDecryptKey_lo (s : State) (bits : Nat) :
    (s.setDecryptKey bits).lo = s.lo := by simp only [State.setDecryptKey]

@[simp] theorem State.setDecryptKey_j (s : State) (bits : Nat) :
    (s.setDecryptKey bits).j = s.j := by simp only [State.setDecryptKey]

@[simp] theorem State.setDecryptKey_sponge (s : State) (bits : Nat) :
    (s.setDecryptKey bits).sponge = s.sponge := by simp only [State.setDecryptKey]

@[simp] theorem State.setDecryptKey_ksave (s : State) (bits : Nat) :
    (s.setDecryptKey bits).ksave = s.ksave := by simp only [State.setDecryptKey]

@[simp] theorem State.setDecryptKey_bsave (s : State) (bits : Nat) :
    (s.setDecryptKey bits).bsave = s.bsave := by simp only [State.setDecryptKey]

@[simp] theorem State.setDecryptKey_cmdl (s : State) (bits : Nat) :
    (s.setDecryptKey bits).cmdl = s.cmdl := by simp only [State.setDecryptKey]

@[simp] theorem State.setDecryptKey_phase (s : State) (bits : Nat) :
    (s.setDecryptKey bits).phase = s.phase := by simp only [State.setDecryptKey]

@[simp] theorem State.setDecryptKey_seq (s : State) (bits : Nat) :
    (s.setDecryptKey bits).seq = s.seq := by simp only [State.setDecryptKey]

@[simp] theorem State.setDecryptKey_tc (s : State) (bits : Nat) :
    (s.setDecryptKey bits).tc = s.tc := by simp only [State.setDecryptKey]

@[simp] theorem State.setDecryptKey_tcValid (s : State) (bits : Nat) :
    (s.setDecryptKey bits).tcValid = s.tcValid := by simp only [State.setDecryptKey]

@[simp] theorem State.setDecryptKey_tcArrived (s : State) (bits : Nat) :
    (s.setDecryptKey bits).tcArrived = s.tcArrived := by simp only [State.setDecryptKey]

@[simp] theorem State.setDecryptKey_mem (s : State) (bits : Nat) :
    (s.setDecryptKey bits).mem = s.mem := by simp only [State.setDecryptKey]

@[simp] theorem State.setDecryptKey_heldMem (s : State) (bits : Nat) :
    (s.setDecryptKey bits).heldMem = s.heldMem := by simp only [State.setDecryptKey]

@[simp] theorem State.setDecryptKey_fault (s : State) (bits : Nat) :
    (s.setDecryptKey bits).fault = s.fault := by simp only [State.setDecryptKey]

@[simp] theorem State.setDecryptKey_platform (s : State) (bits : Nat) :
    (s.setDecryptKey bits).platform = s.platform := by simp only [State.setDecryptKey]

@[simp] theorem State.setDecryptKey_events (s : State) (bits : Nat) :
    (s.setDecryptKey bits).events = s.events := by simp only [State.setDecryptKey]

@[simp] theorem State.setDecryptKey_response (s : State) (bits : Nat) :
    (s.setDecryptKey bits).response = s.response := by simp only [State.setDecryptKey]

@[simp] theorem State.setDecryptKey_draws (s : State) (bits : Nat) :
    (s.setDecryptKey bits).draws = s.draws := by simp only [State.setDecryptKey]

/-! `loadText`. -/

@[simp] theorem State.loadText_irqEn (s : State) :
    s.loadText.irqEn = s.irqEn := by simp only [State.loadText]

@[simp] theorem State.loadText_status (s : State) :
    s.loadText.status = s.status := by simp only [State.loadText]

@[simp] theorem State.loadText_rounds (s : State) :
    s.loadText.rounds = s.rounds := by simp only [State.loadText]

@[simp] theorem State.loadText_dataAddr (s : State) :
    s.loadText.dataAddr = s.dataAddr := by simp only [State.loadText]

@[simp] theorem State.loadText_dataLen (s : State) :
    s.loadText.dataLen = s.dataLen := by simp only [State.loadText]

@[simp] theorem State.loadText_scratchAddr (s : State) :
    s.loadText.scratchAddr = s.scratchAddr := by simp only [State.loadText]

@[simp] theorem State.loadText_key (s : State) :
    s.loadText.key = s.key := by simp only [State.loadText]

@[simp] theorem State.loadText_din (s : State) :
    s.loadText.din = s.din := by simp only [State.loadText]

@[simp] theorem State.loadText_rkey (s : State) :
    s.loadText.rkey = s.rkey := by simp only [State.loadText]

@[simp] theorem State.loadText_dout (s : State) :
    s.loadText.dout = s.dout := by simp only [State.loadText]

@[simp] theorem State.loadText_digest (s : State) :
    s.loadText.digest = s.digest := by simp only [State.loadText]

@[simp] theorem State.loadText_stateBuf (s : State) :
    s.loadText.stateBuf = s.stateBuf := by simp only [State.loadText]

@[simp] theorem State.loadText_ek (s : State) :
    s.loadText.ek = s.ek := by simp only [State.loadText]

@[simp] theorem State.loadText_dk (s : State) :
    s.loadText.dk = s.dk := by simp only [State.loadText]

@[simp] theorem State.loadText_hk (s : State) :
    s.loadText.hk = s.hk := by simp only [State.loadText]

@[simp] theorem State.loadText_text (s : State) :
    s.loadText.text = Vector.ofFn fun k => slice s.sponge (64 + 16 * k.val) 16 (by omega) := by simp only [State.loadText]

@[simp] theorem State.loadText_a (s : State) :
    s.loadText.a = s.a := by simp only [State.loadText]

@[simp] theorem State.loadText_b (s : State) :
    s.loadText.b = s.b := by simp only [State.loadText]

@[simp] theorem State.loadText_c (s : State) :
    s.loadText.c = s.c := by simp only [State.loadText]

@[simp] theorem State.loadText_d (s : State) :
    s.loadText.d = s.d := by simp only [State.loadText]

@[simp] theorem State.loadText_e (s : State) :
    s.loadText.e = s.e := by simp only [State.loadText]

@[simp] theorem State.loadText_hi (s : State) :
    s.loadText.hi = s.hi := by simp only [State.loadText]

@[simp] theorem State.loadText_lo (s : State) :
    s.loadText.lo = s.lo := by simp only [State.loadText]

@[simp] theorem State.loadText_j (s : State) :
    s.loadText.j = s.j := by simp only [State.loadText]

@[simp] theorem State.loadText_sponge (s : State) :
    s.loadText.sponge = s.sponge := by simp only [State.loadText]

@[simp] theorem State.loadText_ksave (s : State) :
    s.loadText.ksave = s.ksave := by simp only [State.loadText]

@[simp] theorem State.loadText_bsave (s : State) :
    s.loadText.bsave = s.bsave := by simp only [State.loadText]

@[simp] theorem State.loadText_cmdl (s : State) :
    s.loadText.cmdl = s.cmdl := by simp only [State.loadText]

@[simp] theorem State.loadText_phase (s : State) :
    s.loadText.phase = s.phase := by simp only [State.loadText]

@[simp] theorem State.loadText_seq (s : State) :
    s.loadText.seq = s.seq := by simp only [State.loadText]

@[simp] theorem State.loadText_tc (s : State) :
    s.loadText.tc = s.tc := by simp only [State.loadText]

@[simp] theorem State.loadText_tcValid (s : State) :
    s.loadText.tcValid = s.tcValid := by simp only [State.loadText]

@[simp] theorem State.loadText_tcArrived (s : State) :
    s.loadText.tcArrived = s.tcArrived := by simp only [State.loadText]

@[simp] theorem State.loadText_mem (s : State) :
    s.loadText.mem = s.mem := by simp only [State.loadText]

@[simp] theorem State.loadText_heldMem (s : State) :
    s.loadText.heldMem = s.heldMem := by simp only [State.loadText]

@[simp] theorem State.loadText_fault (s : State) :
    s.loadText.fault = s.fault := by simp only [State.loadText]

@[simp] theorem State.loadText_platform (s : State) :
    s.loadText.platform = s.platform := by simp only [State.loadText]

@[simp] theorem State.loadText_events (s : State) :
    s.loadText.events = s.events := by simp only [State.loadText]

@[simp] theorem State.loadText_response (s : State) :
    s.loadText.response = s.response := by simp only [State.loadText]

@[simp] theorem State.loadText_draws (s : State) :
    s.loadText.draws = s.draws := by simp only [State.loadText]

/-! `fillBlock`. -/

@[simp] theorem State.fillBlock_irqEn (s : State) :
    s.fillBlock.irqEn = s.irqEn := by simp [State.fillBlock]

@[simp] theorem State.fillBlock_status (s : State) :
    s.fillBlock.status = s.status := by simp [State.fillBlock]

@[simp] theorem State.fillBlock_rounds (s : State) :
    s.fillBlock.rounds = s.rounds := by simp [State.fillBlock]

@[simp] theorem State.fillBlock_dataAddr (s : State) :
    s.fillBlock.dataAddr = s.dataAddr := by simp [State.fillBlock]

@[simp] theorem State.fillBlock_dataLen (s : State) :
    s.fillBlock.dataLen = s.dataLen := by simp [State.fillBlock]

@[simp] theorem State.fillBlock_scratchAddr (s : State) :
    s.fillBlock.scratchAddr = s.scratchAddr := by simp [State.fillBlock]

@[simp] theorem State.fillBlock_key (s : State) :
    s.fillBlock.key = s.key := by simp [State.fillBlock]

@[simp] theorem State.fillBlock_din (s : State) :
    s.fillBlock.din = s.din := by simp [State.fillBlock]

@[simp] theorem State.fillBlock_rkey (s : State) :
    s.fillBlock.rkey = s.rkey := by simp [State.fillBlock]

@[simp] theorem State.fillBlock_dout (s : State) :
    s.fillBlock.dout = s.dout := by simp [State.fillBlock]

@[simp] theorem State.fillBlock_digest (s : State) :
    s.fillBlock.digest = s.digest := by simp [State.fillBlock]

@[simp] theorem State.fillBlock_stateBuf (s : State) :
    s.fillBlock.stateBuf = s.stateBuf := by simp [State.fillBlock]

@[simp] theorem State.fillBlock_ek (s : State) :
    s.fillBlock.ek = s.ek := by simp [State.fillBlock]

@[simp] theorem State.fillBlock_dk (s : State) :
    s.fillBlock.dk = s.dk := by simp [State.fillBlock]

@[simp] theorem State.fillBlock_hk (s : State) :
    s.fillBlock.hk = s.hk := by simp [State.fillBlock]

@[simp] theorem State.fillBlock_text (s : State) :
    s.fillBlock.text = s.text.set s.seq.k.val (pseudoEncrypt s.tables s.text[s.seq.k] s.hk) := by simp [State.fillBlock]

@[simp] theorem State.fillBlock_a (s : State) :
    s.fillBlock.a = s.a := by simp [State.fillBlock]

@[simp] theorem State.fillBlock_b (s : State) :
    s.fillBlock.b = s.b := by simp [State.fillBlock]

@[simp] theorem State.fillBlock_c (s : State) :
    s.fillBlock.c = s.c := by simp [State.fillBlock]

@[simp] theorem State.fillBlock_d (s : State) :
    s.fillBlock.d = s.d := by simp [State.fillBlock]

@[simp] theorem State.fillBlock_e (s : State) :
    s.fillBlock.e = s.e := by simp [State.fillBlock]

@[simp] theorem State.fillBlock_hi (s : State) :
    s.fillBlock.hi = s.hi := by simp [State.fillBlock]

@[simp] theorem State.fillBlock_lo (s : State) :
    s.fillBlock.lo = s.lo := by simp [State.fillBlock]

@[simp] theorem State.fillBlock_j (s : State) :
    s.fillBlock.j = s.j := by simp [State.fillBlock]

@[simp] theorem State.fillBlock_sponge (s : State) :
    s.fillBlock.sponge = s.sponge := by simp [State.fillBlock]

@[simp] theorem State.fillBlock_ksave (s : State) :
    s.fillBlock.ksave = s.ksave := by simp [State.fillBlock]

@[simp] theorem State.fillBlock_bsave (s : State) :
    s.fillBlock.bsave = s.bsave := by simp [State.fillBlock]

@[simp] theorem State.fillBlock_cmdl (s : State) :
    s.fillBlock.cmdl = s.cmdl := by simp [State.fillBlock]

@[simp] theorem State.fillBlock_phase (s : State) :
    s.fillBlock.phase = s.phase := by simp [State.fillBlock]

@[simp] theorem State.fillBlock_seq (s : State) :
    s.fillBlock.seq = s.seq.nextBlock := by simp [State.fillBlock]

@[simp] theorem State.fillBlock_tc (s : State) :
    s.fillBlock.tc = s.tc := by simp [State.fillBlock]

@[simp] theorem State.fillBlock_tcValid (s : State) :
    s.fillBlock.tcValid = s.tcValid := by simp [State.fillBlock]

@[simp] theorem State.fillBlock_tcArrived (s : State) :
    s.fillBlock.tcArrived = s.tcArrived := by simp [State.fillBlock]

@[simp] theorem State.fillBlock_mem (s : State) :
    s.fillBlock.mem = s.mem.writeBlock (s.scratchBlockAddr s.seq.sweepBlock) (pseudoEncrypt s.tables s.text[s.seq.k] s.hk) := by simp [State.fillBlock]

@[simp] theorem State.fillBlock_heldMem (s : State) :
    s.fillBlock.heldMem = s.heldMem := by simp [State.fillBlock]

@[simp] theorem State.fillBlock_fault (s : State) :
    s.fillBlock.fault = s.fault := by simp [State.fillBlock]

@[simp] theorem State.fillBlock_platform (s : State) :
    s.fillBlock.platform = s.platform := by simp [State.fillBlock]

@[simp] theorem State.fillBlock_events (s : State) :
    s.fillBlock.events = s.events := by simp [State.fillBlock]

@[simp] theorem State.fillBlock_response (s : State) :
    s.fillBlock.response = s.response := by simp [State.fillBlock]

@[simp] theorem State.fillBlock_draws (s : State) :
    s.fillBlock.draws = s.draws := by simp [State.fillBlock]

/-! `foldBlock`. -/

@[simp] theorem State.foldBlock_irqEn (s : State) :
    s.foldBlock.irqEn = s.irqEn := by simp only [State.foldBlock]

@[simp] theorem State.foldBlock_status (s : State) :
    s.foldBlock.status = s.status := by simp only [State.foldBlock]

@[simp] theorem State.foldBlock_rounds (s : State) :
    s.foldBlock.rounds = s.rounds := by simp only [State.foldBlock]

@[simp] theorem State.foldBlock_dataAddr (s : State) :
    s.foldBlock.dataAddr = s.dataAddr := by simp only [State.foldBlock]

@[simp] theorem State.foldBlock_dataLen (s : State) :
    s.foldBlock.dataLen = s.dataLen := by simp only [State.foldBlock]

@[simp] theorem State.foldBlock_scratchAddr (s : State) :
    s.foldBlock.scratchAddr = s.scratchAddr := by simp only [State.foldBlock]

@[simp] theorem State.foldBlock_key (s : State) :
    s.foldBlock.key = s.key := by simp only [State.foldBlock]

@[simp] theorem State.foldBlock_din (s : State) :
    s.foldBlock.din = s.din := by simp only [State.foldBlock]

@[simp] theorem State.foldBlock_rkey (s : State) :
    s.foldBlock.rkey = s.rkey := by simp only [State.foldBlock]

@[simp] theorem State.foldBlock_dout (s : State) :
    s.foldBlock.dout = s.dout := by simp only [State.foldBlock]

@[simp] theorem State.foldBlock_digest (s : State) :
    s.foldBlock.digest = s.digest := by simp only [State.foldBlock]

@[simp] theorem State.foldBlock_stateBuf (s : State) :
    s.foldBlock.stateBuf = s.stateBuf := by simp only [State.foldBlock]

@[simp] theorem State.foldBlock_ek (s : State) :
    s.foldBlock.ek = s.ek := by simp only [State.foldBlock]

@[simp] theorem State.foldBlock_dk (s : State) :
    s.foldBlock.dk = s.dk := by simp only [State.foldBlock]

@[simp] theorem State.foldBlock_hk (s : State) :
    s.foldBlock.hk = s.hk := by simp only [State.foldBlock]

@[simp] theorem State.foldBlock_text (s : State) :
    s.foldBlock.text = s.text.set s.seq.k.val (pseudoEncrypt s.tables (xorBytes s.text[s.seq.k] (s.scrRead s.seq.sweepBlock)) s.hk) := by simp only [State.foldBlock]

@[simp] theorem State.foldBlock_a (s : State) :
    s.foldBlock.a = s.a := by simp only [State.foldBlock]

@[simp] theorem State.foldBlock_b (s : State) :
    s.foldBlock.b = s.b := by simp only [State.foldBlock]

@[simp] theorem State.foldBlock_c (s : State) :
    s.foldBlock.c = s.c := by simp only [State.foldBlock]

@[simp] theorem State.foldBlock_d (s : State) :
    s.foldBlock.d = s.d := by simp only [State.foldBlock]

@[simp] theorem State.foldBlock_e (s : State) :
    s.foldBlock.e = s.e := by simp only [State.foldBlock]

@[simp] theorem State.foldBlock_hi (s : State) :
    s.foldBlock.hi = s.hi := by simp only [State.foldBlock]

@[simp] theorem State.foldBlock_lo (s : State) :
    s.foldBlock.lo = s.lo := by simp only [State.foldBlock]

@[simp] theorem State.foldBlock_j (s : State) :
    s.foldBlock.j = s.j := by simp only [State.foldBlock]

@[simp] theorem State.foldBlock_sponge (s : State) :
    s.foldBlock.sponge = s.sponge := by simp only [State.foldBlock]

@[simp] theorem State.foldBlock_ksave (s : State) :
    s.foldBlock.ksave = s.ksave := by simp only [State.foldBlock]

@[simp] theorem State.foldBlock_bsave (s : State) :
    s.foldBlock.bsave = s.bsave := by simp only [State.foldBlock]

@[simp] theorem State.foldBlock_cmdl (s : State) :
    s.foldBlock.cmdl = s.cmdl := by simp only [State.foldBlock]

@[simp] theorem State.foldBlock_phase (s : State) :
    s.foldBlock.phase = s.phase := by simp only [State.foldBlock]

@[simp] theorem State.foldBlock_seq (s : State) :
    s.foldBlock.seq = s.seq.nextBlock := by simp only [State.foldBlock]

@[simp] theorem State.foldBlock_tc (s : State) :
    s.foldBlock.tc = s.tc := by simp only [State.foldBlock]

@[simp] theorem State.foldBlock_tcValid (s : State) :
    s.foldBlock.tcValid = s.tcValid := by simp only [State.foldBlock]

@[simp] theorem State.foldBlock_tcArrived (s : State) :
    s.foldBlock.tcArrived = s.tcArrived := by simp only [State.foldBlock]

@[simp] theorem State.foldBlock_mem (s : State) :
    s.foldBlock.mem = s.mem := by simp only [State.foldBlock]

@[simp] theorem State.foldBlock_heldMem (s : State) :
    s.foldBlock.heldMem = s.heldMem := by simp only [State.foldBlock]

@[simp] theorem State.foldBlock_fault (s : State) :
    s.foldBlock.fault = s.fault := by simp only [State.foldBlock]

@[simp] theorem State.foldBlock_platform (s : State) :
    s.foldBlock.platform = s.platform := by simp only [State.foldBlock]

@[simp] theorem State.foldBlock_events (s : State) :
    s.foldBlock.events = s.events := by simp only [State.foldBlock]

@[simp] theorem State.foldBlock_response (s : State) :
    s.foldBlock.response = s.response := by simp only [State.foldBlock]

@[simp] theorem State.foldBlock_draws (s : State) :
    s.foldBlock.draws = s.draws := by simp only [State.foldBlock]

/-! `mixStep1`. -/

@[simp] theorem State.mixStep1_irqEn (s : State) :
    s.mixStep1.irqEn = s.irqEn := by simp [State.mixStep1]

@[simp] theorem State.mixStep1_status (s : State) :
    s.mixStep1.status = s.status := by simp [State.mixStep1]

@[simp] theorem State.mixStep1_rounds (s : State) :
    s.mixStep1.rounds = s.rounds := by simp [State.mixStep1]

@[simp] theorem State.mixStep1_dataAddr (s : State) :
    s.mixStep1.dataAddr = s.dataAddr := by simp [State.mixStep1]

@[simp] theorem State.mixStep1_dataLen (s : State) :
    s.mixStep1.dataLen = s.dataLen := by simp [State.mixStep1]

@[simp] theorem State.mixStep1_scratchAddr (s : State) :
    s.mixStep1.scratchAddr = s.scratchAddr := by simp [State.mixStep1]

@[simp] theorem State.mixStep1_key (s : State) :
    s.mixStep1.key = s.key := by simp [State.mixStep1]

@[simp] theorem State.mixStep1_din (s : State) :
    s.mixStep1.din = s.din := by simp [State.mixStep1]

@[simp] theorem State.mixStep1_rkey (s : State) :
    s.mixStep1.rkey = s.rkey := by simp [State.mixStep1]

@[simp] theorem State.mixStep1_dout (s : State) :
    s.mixStep1.dout = s.dout := by simp [State.mixStep1]

@[simp] theorem State.mixStep1_digest (s : State) :
    s.mixStep1.digest = s.digest := by simp [State.mixStep1]

@[simp] theorem State.mixStep1_stateBuf (s : State) :
    s.mixStep1.stateBuf = s.stateBuf := by simp [State.mixStep1]

@[simp] theorem State.mixStep1_ek (s : State) :
    s.mixStep1.ek = s.ek := by simp [State.mixStep1]

@[simp] theorem State.mixStep1_dk (s : State) :
    s.mixStep1.dk = s.dk := by simp [State.mixStep1]

@[simp] theorem State.mixStep1_hk (s : State) :
    s.mixStep1.hk = s.hk := by simp [State.mixStep1]

@[simp] theorem State.mixStep1_text (s : State) :
    s.mixStep1.text = s.text := by simp [State.mixStep1]

@[simp] theorem State.mixStep1_a (s : State) :
    s.mixStep1.a = aesRoundBlock s.tables (s.scrRead (scratchIndex s.a)) s.a := by simp [State.mixStep1]

@[simp] theorem State.mixStep1_b (s : State) :
    s.mixStep1.b = s.b := by simp [State.mixStep1]

@[simp] theorem State.mixStep1_c (s : State) :
    s.mixStep1.c = aesRoundBlock s.tables (s.scrRead (scratchIndex s.a)) s.a := by simp [State.mixStep1]

@[simp] theorem State.mixStep1_d (s : State) :
    s.mixStep1.d = s.d := by simp [State.mixStep1]

@[simp] theorem State.mixStep1_e (s : State) :
    s.mixStep1.e = s.a := by simp [State.mixStep1]

@[simp] theorem State.mixStep1_hi (s : State) :
    s.mixStep1.hi = s.hi := by simp [State.mixStep1]

@[simp] theorem State.mixStep1_lo (s : State) :
    s.mixStep1.lo = s.lo := by simp [State.mixStep1]

@[simp] theorem State.mixStep1_j (s : State) :
    s.mixStep1.j = scratchIndex s.a := by simp [State.mixStep1]

@[simp] theorem State.mixStep1_sponge (s : State) :
    s.mixStep1.sponge = s.sponge := by simp [State.mixStep1]

@[simp] theorem State.mixStep1_ksave (s : State) :
    s.mixStep1.ksave = s.ksave := by simp [State.mixStep1]

@[simp] theorem State.mixStep1_bsave (s : State) :
    s.mixStep1.bsave = s.bsave := by simp [State.mixStep1]

@[simp] theorem State.mixStep1_cmdl (s : State) :
    s.mixStep1.cmdl = s.cmdl := by simp [State.mixStep1]

@[simp] theorem State.mixStep1_phase (s : State) :
    s.mixStep1.phase = s.phase := by simp [State.mixStep1]

@[simp] theorem State.mixStep1_seq (s : State) :
    s.mixStep1.seq = s.seq := by simp [State.mixStep1]

@[simp] theorem State.mixStep1_tc (s : State) :
    s.mixStep1.tc = s.tc := by simp [State.mixStep1]

@[simp] theorem State.mixStep1_tcValid (s : State) :
    s.mixStep1.tcValid = s.tcValid := by simp [State.mixStep1]

@[simp] theorem State.mixStep1_tcArrived (s : State) :
    s.mixStep1.tcArrived = s.tcArrived := by simp [State.mixStep1]

@[simp] theorem State.mixStep1_mem (s : State) :
    s.mixStep1.mem = s.mem.writeBlock (s.scratchBlockAddr (scratchIndex s.a))
      (xorBytes (aesRoundBlock s.tables (s.scrRead (scratchIndex s.a)) s.a) s.b) := by simp [State.mixStep1]

@[simp] theorem State.mixStep1_heldMem (s : State) :
    s.mixStep1.heldMem = s.heldMem := by simp [State.mixStep1]

@[simp] theorem State.mixStep1_fault (s : State) :
    s.mixStep1.fault = s.fault := by simp [State.mixStep1]

@[simp] theorem State.mixStep1_platform (s : State) :
    s.mixStep1.platform = s.platform := by simp [State.mixStep1]

@[simp] theorem State.mixStep1_events (s : State) :
    s.mixStep1.events = s.events := by simp [State.mixStep1]

@[simp] theorem State.mixStep1_response (s : State) :
    s.mixStep1.response = s.response := by simp [State.mixStep1]

@[simp] theorem State.mixStep1_draws (s : State) :
    s.mixStep1.draws = s.draws := by simp [State.mixStep1]

/-! `mixStep2`. -/

@[simp] theorem State.mixStep2_irqEn (s : State) :
    s.mixStep2.irqEn = s.irqEn := by simp [State.mixStep2]

@[simp] theorem State.mixStep2_status (s : State) :
    s.mixStep2.status = s.status := by simp [State.mixStep2]

@[simp] theorem State.mixStep2_rounds (s : State) :
    s.mixStep2.rounds = s.rounds := by simp [State.mixStep2]

@[simp] theorem State.mixStep2_dataAddr (s : State) :
    s.mixStep2.dataAddr = s.dataAddr := by simp [State.mixStep2]

@[simp] theorem State.mixStep2_dataLen (s : State) :
    s.mixStep2.dataLen = s.dataLen := by simp [State.mixStep2]

@[simp] theorem State.mixStep2_scratchAddr (s : State) :
    s.mixStep2.scratchAddr = s.scratchAddr := by simp [State.mixStep2]

@[simp] theorem State.mixStep2_key (s : State) :
    s.mixStep2.key = s.key := by simp [State.mixStep2]

@[simp] theorem State.mixStep2_din (s : State) :
    s.mixStep2.din = s.din := by simp [State.mixStep2]

@[simp] theorem State.mixStep2_rkey (s : State) :
    s.mixStep2.rkey = s.rkey := by simp [State.mixStep2]

@[simp] theorem State.mixStep2_dout (s : State) :
    s.mixStep2.dout = s.dout := by simp [State.mixStep2]

@[simp] theorem State.mixStep2_digest (s : State) :
    s.mixStep2.digest = s.digest := by simp [State.mixStep2]

@[simp] theorem State.mixStep2_stateBuf (s : State) :
    s.mixStep2.stateBuf = s.stateBuf := by simp [State.mixStep2]

@[simp] theorem State.mixStep2_ek (s : State) :
    s.mixStep2.ek = s.ek := by simp [State.mixStep2]

@[simp] theorem State.mixStep2_dk (s : State) :
    s.mixStep2.dk = s.dk := by simp [State.mixStep2]

@[simp] theorem State.mixStep2_hk (s : State) :
    s.mixStep2.hk = s.hk := by simp [State.mixStep2]

@[simp] theorem State.mixStep2_text (s : State) :
    s.mixStep2.text = s.text := by simp [State.mixStep2]

@[simp] theorem State.mixStep2_a (s : State) :
    s.mixStep2.a = xorBytes (s.scrRead (scratchIndex s.a)) s.mixSum := by simp [State.mixStep2]

@[simp] theorem State.mixStep2_b (s : State) :
    s.mixStep2.b = s.a := by simp [State.mixStep2]

@[simp] theorem State.mixStep2_c (s : State) :
    s.mixStep2.c = s.scrRead (scratchIndex s.a) := by simp [State.mixStep2]

@[simp] theorem State.mixStep2_d (s : State) :
    s.mixStep2.d = s.mixSum := by simp [State.mixStep2]

@[simp] theorem State.mixStep2_e (s : State) :
    s.mixStep2.e = s.e := by simp [State.mixStep2]

@[simp] theorem State.mixStep2_hi (s : State) :
    s.mixStep2.hi = s.mixProduct.extractLsb' 64 64 := by simp [State.mixStep2]

@[simp] theorem State.mixStep2_lo (s : State) :
    s.mixStep2.lo = s.mixProduct.extractLsb' 0 64 := by simp [State.mixStep2]

@[simp] theorem State.mixStep2_j (s : State) :
    s.mixStep2.j = scratchIndex s.a := by simp [State.mixStep2]

@[simp] theorem State.mixStep2_sponge (s : State) :
    s.mixStep2.sponge = s.sponge := by simp [State.mixStep2]

@[simp] theorem State.mixStep2_ksave (s : State) :
    s.mixStep2.ksave = s.ksave := by simp [State.mixStep2]

@[simp] theorem State.mixStep2_bsave (s : State) :
    s.mixStep2.bsave = s.bsave := by simp [State.mixStep2]

@[simp] theorem State.mixStep2_cmdl (s : State) :
    s.mixStep2.cmdl = s.cmdl := by simp [State.mixStep2]

@[simp] theorem State.mixStep2_phase (s : State) :
    s.mixStep2.phase = s.phase := by simp [State.mixStep2]

@[simp] theorem State.mixStep2_seq (s : State) :
    s.mixStep2.seq = s.seq := by simp [State.mixStep2]

@[simp] theorem State.mixStep2_tc (s : State) :
    s.mixStep2.tc = s.tc := by simp [State.mixStep2]

@[simp] theorem State.mixStep2_tcValid (s : State) :
    s.mixStep2.tcValid = s.tcValid := by simp [State.mixStep2]

@[simp] theorem State.mixStep2_tcArrived (s : State) :
    s.mixStep2.tcArrived = s.tcArrived := by simp [State.mixStep2]

@[simp] theorem State.mixStep2_mem (s : State) :
    s.mixStep2.mem = s.mem.writeBlock (s.scratchBlockAddr (scratchIndex s.a)) s.mixSum := by simp [State.mixStep2]

@[simp] theorem State.mixStep2_heldMem (s : State) :
    s.mixStep2.heldMem = s.heldMem := by simp [State.mixStep2]

@[simp] theorem State.mixStep2_fault (s : State) :
    s.mixStep2.fault = s.fault := by simp [State.mixStep2]

@[simp] theorem State.mixStep2_platform (s : State) :
    s.mixStep2.platform = s.platform := by simp [State.mixStep2]

@[simp] theorem State.mixStep2_events (s : State) :
    s.mixStep2.events = s.events := by simp [State.mixStep2]

@[simp] theorem State.mixStep2_response (s : State) :
    s.mixStep2.response = s.response := by simp [State.mixStep2]

@[simp] theorem State.mixStep2_draws (s : State) :
    s.mixStep2.draws = s.draws := by simp [State.mixStep2]

/-! `mixIteration`. -/

@[simp] theorem State.mixIteration_irqEn (s : State) :
    s.mixIteration.irqEn = s.irqEn := by simp [State.mixIteration, -State.mixStep2_mem, -State.mixStep2_j, -State.mixStep2_c, -State.mixStep2_hi, -State.mixStep2_lo, -State.mixStep2_d, -State.mixStep2_b, -State.mixStep2_a]

@[simp] theorem State.mixIteration_status (s : State) :
    s.mixIteration.status = s.status := by simp [State.mixIteration, -State.mixStep2_mem, -State.mixStep2_j, -State.mixStep2_c, -State.mixStep2_hi, -State.mixStep2_lo, -State.mixStep2_d, -State.mixStep2_b, -State.mixStep2_a]

@[simp] theorem State.mixIteration_rounds (s : State) :
    s.mixIteration.rounds = s.rounds := by simp [State.mixIteration, -State.mixStep2_mem, -State.mixStep2_j, -State.mixStep2_c, -State.mixStep2_hi, -State.mixStep2_lo, -State.mixStep2_d, -State.mixStep2_b, -State.mixStep2_a]

@[simp] theorem State.mixIteration_dataAddr (s : State) :
    s.mixIteration.dataAddr = s.dataAddr := by simp [State.mixIteration, -State.mixStep2_mem, -State.mixStep2_j, -State.mixStep2_c, -State.mixStep2_hi, -State.mixStep2_lo, -State.mixStep2_d, -State.mixStep2_b, -State.mixStep2_a]

@[simp] theorem State.mixIteration_dataLen (s : State) :
    s.mixIteration.dataLen = s.dataLen := by simp [State.mixIteration, -State.mixStep2_mem, -State.mixStep2_j, -State.mixStep2_c, -State.mixStep2_hi, -State.mixStep2_lo, -State.mixStep2_d, -State.mixStep2_b, -State.mixStep2_a]

@[simp] theorem State.mixIteration_scratchAddr (s : State) :
    s.mixIteration.scratchAddr = s.scratchAddr := by simp [State.mixIteration, -State.mixStep2_mem, -State.mixStep2_j, -State.mixStep2_c, -State.mixStep2_hi, -State.mixStep2_lo, -State.mixStep2_d, -State.mixStep2_b, -State.mixStep2_a]

@[simp] theorem State.mixIteration_key (s : State) :
    s.mixIteration.key = s.key := by simp [State.mixIteration, -State.mixStep2_mem, -State.mixStep2_j, -State.mixStep2_c, -State.mixStep2_hi, -State.mixStep2_lo, -State.mixStep2_d, -State.mixStep2_b, -State.mixStep2_a]

@[simp] theorem State.mixIteration_din (s : State) :
    s.mixIteration.din = s.din := by simp [State.mixIteration, -State.mixStep2_mem, -State.mixStep2_j, -State.mixStep2_c, -State.mixStep2_hi, -State.mixStep2_lo, -State.mixStep2_d, -State.mixStep2_b, -State.mixStep2_a]

@[simp] theorem State.mixIteration_rkey (s : State) :
    s.mixIteration.rkey = s.rkey := by simp [State.mixIteration, -State.mixStep2_mem, -State.mixStep2_j, -State.mixStep2_c, -State.mixStep2_hi, -State.mixStep2_lo, -State.mixStep2_d, -State.mixStep2_b, -State.mixStep2_a]

@[simp] theorem State.mixIteration_dout (s : State) :
    s.mixIteration.dout = s.dout := by simp [State.mixIteration, -State.mixStep2_mem, -State.mixStep2_j, -State.mixStep2_c, -State.mixStep2_hi, -State.mixStep2_lo, -State.mixStep2_d, -State.mixStep2_b, -State.mixStep2_a]

@[simp] theorem State.mixIteration_digest (s : State) :
    s.mixIteration.digest = s.digest := by simp [State.mixIteration, -State.mixStep2_mem, -State.mixStep2_j, -State.mixStep2_c, -State.mixStep2_hi, -State.mixStep2_lo, -State.mixStep2_d, -State.mixStep2_b, -State.mixStep2_a]

@[simp] theorem State.mixIteration_stateBuf (s : State) :
    s.mixIteration.stateBuf = s.stateBuf := by simp [State.mixIteration, -State.mixStep2_mem, -State.mixStep2_j, -State.mixStep2_c, -State.mixStep2_hi, -State.mixStep2_lo, -State.mixStep2_d, -State.mixStep2_b, -State.mixStep2_a]

@[simp] theorem State.mixIteration_ek (s : State) :
    s.mixIteration.ek = s.ek := by simp [State.mixIteration, -State.mixStep2_mem, -State.mixStep2_j, -State.mixStep2_c, -State.mixStep2_hi, -State.mixStep2_lo, -State.mixStep2_d, -State.mixStep2_b, -State.mixStep2_a]

@[simp] theorem State.mixIteration_dk (s : State) :
    s.mixIteration.dk = s.dk := by simp [State.mixIteration, -State.mixStep2_mem, -State.mixStep2_j, -State.mixStep2_c, -State.mixStep2_hi, -State.mixStep2_lo, -State.mixStep2_d, -State.mixStep2_b, -State.mixStep2_a]

@[simp] theorem State.mixIteration_hk (s : State) :
    s.mixIteration.hk = s.hk := by simp [State.mixIteration, -State.mixStep2_mem, -State.mixStep2_j, -State.mixStep2_c, -State.mixStep2_hi, -State.mixStep2_lo, -State.mixStep2_d, -State.mixStep2_b, -State.mixStep2_a]

@[simp] theorem State.mixIteration_text (s : State) :
    s.mixIteration.text = s.text := by simp [State.mixIteration, -State.mixStep2_mem, -State.mixStep2_j, -State.mixStep2_c, -State.mixStep2_hi, -State.mixStep2_lo, -State.mixStep2_d, -State.mixStep2_b, -State.mixStep2_a]

@[simp] theorem State.mixIteration_a (s : State) :
    s.mixIteration.a = s.mixStep1.mixStep2.a := by simp [State.mixIteration, -State.mixStep2_mem, -State.mixStep2_j, -State.mixStep2_c, -State.mixStep2_hi, -State.mixStep2_lo, -State.mixStep2_d, -State.mixStep2_b, -State.mixStep2_a]

@[simp] theorem State.mixIteration_b (s : State) :
    s.mixIteration.b = s.mixStep1.mixStep2.b := by simp [State.mixIteration, -State.mixStep2_mem, -State.mixStep2_j, -State.mixStep2_c, -State.mixStep2_hi, -State.mixStep2_lo, -State.mixStep2_d, -State.mixStep2_b, -State.mixStep2_a]

@[simp] theorem State.mixIteration_c (s : State) :
    s.mixIteration.c = s.mixStep1.mixStep2.c := by simp [State.mixIteration, -State.mixStep2_mem, -State.mixStep2_j, -State.mixStep2_c, -State.mixStep2_hi, -State.mixStep2_lo, -State.mixStep2_d, -State.mixStep2_b, -State.mixStep2_a]

@[simp] theorem State.mixIteration_d (s : State) :
    s.mixIteration.d = s.mixStep1.mixStep2.d := by simp [State.mixIteration, -State.mixStep2_mem, -State.mixStep2_j, -State.mixStep2_c, -State.mixStep2_hi, -State.mixStep2_lo, -State.mixStep2_d, -State.mixStep2_b, -State.mixStep2_a]

@[simp] theorem State.mixIteration_e (s : State) :
    s.mixIteration.e = s.mixStep1.mixStep2.e := by simp [State.mixIteration, -State.mixStep2_mem, -State.mixStep2_j, -State.mixStep2_c, -State.mixStep2_hi, -State.mixStep2_lo, -State.mixStep2_d, -State.mixStep2_b, -State.mixStep2_a]

@[simp] theorem State.mixIteration_hi (s : State) :
    s.mixIteration.hi = Config.free 64 s.draws 0 := by simp [State.mixIteration, -State.mixStep2_mem, -State.mixStep2_j, -State.mixStep2_c, -State.mixStep2_hi, -State.mixStep2_lo, -State.mixStep2_d, -State.mixStep2_b, -State.mixStep2_a]

@[simp] theorem State.mixIteration_lo (s : State) :
    s.mixIteration.lo = Config.free 64 s.draws 1 := by simp [State.mixIteration, -State.mixStep2_mem, -State.mixStep2_j, -State.mixStep2_c, -State.mixStep2_hi, -State.mixStep2_lo, -State.mixStep2_d, -State.mixStep2_b, -State.mixStep2_a]

@[simp] theorem State.mixIteration_j (s : State) :
    s.mixIteration.j = Config.free 17 s.draws 0 := by simp [State.mixIteration, -State.mixStep2_mem, -State.mixStep2_j, -State.mixStep2_c, -State.mixStep2_hi, -State.mixStep2_lo, -State.mixStep2_d, -State.mixStep2_b, -State.mixStep2_a]

@[simp] theorem State.mixIteration_sponge (s : State) :
    s.mixIteration.sponge = s.sponge := by simp [State.mixIteration, -State.mixStep2_mem, -State.mixStep2_j, -State.mixStep2_c, -State.mixStep2_hi, -State.mixStep2_lo, -State.mixStep2_d, -State.mixStep2_b, -State.mixStep2_a]

@[simp] theorem State.mixIteration_ksave (s : State) :
    s.mixIteration.ksave = s.ksave := by simp [State.mixIteration, -State.mixStep2_mem, -State.mixStep2_j, -State.mixStep2_c, -State.mixStep2_hi, -State.mixStep2_lo, -State.mixStep2_d, -State.mixStep2_b, -State.mixStep2_a]

@[simp] theorem State.mixIteration_bsave (s : State) :
    s.mixIteration.bsave = s.bsave := by simp [State.mixIteration, -State.mixStep2_mem, -State.mixStep2_j, -State.mixStep2_c, -State.mixStep2_hi, -State.mixStep2_lo, -State.mixStep2_d, -State.mixStep2_b, -State.mixStep2_a]

@[simp] theorem State.mixIteration_cmdl (s : State) :
    s.mixIteration.cmdl = s.cmdl := by simp [State.mixIteration, -State.mixStep2_mem, -State.mixStep2_j, -State.mixStep2_c, -State.mixStep2_hi, -State.mixStep2_lo, -State.mixStep2_d, -State.mixStep2_b, -State.mixStep2_a]

@[simp] theorem State.mixIteration_phase (s : State) :
    s.mixIteration.phase = s.phase := by simp [State.mixIteration, -State.mixStep2_mem, -State.mixStep2_j, -State.mixStep2_c, -State.mixStep2_hi, -State.mixStep2_lo, -State.mixStep2_d, -State.mixStep2_b, -State.mixStep2_a]

@[simp] theorem State.mixIteration_seq (s : State) :
    s.mixIteration.seq = { s.seq with n := s.seq.n + 1 } := by simp [State.mixIteration, -State.mixStep2_mem, -State.mixStep2_j, -State.mixStep2_c, -State.mixStep2_hi, -State.mixStep2_lo, -State.mixStep2_d, -State.mixStep2_b, -State.mixStep2_a]

@[simp] theorem State.mixIteration_tc (s : State) :
    s.mixIteration.tc = s.tc := by simp [State.mixIteration, -State.mixStep2_mem, -State.mixStep2_j, -State.mixStep2_c, -State.mixStep2_hi, -State.mixStep2_lo, -State.mixStep2_d, -State.mixStep2_b, -State.mixStep2_a]

@[simp] theorem State.mixIteration_tcValid (s : State) :
    s.mixIteration.tcValid = s.tcValid := by simp [State.mixIteration, -State.mixStep2_mem, -State.mixStep2_j, -State.mixStep2_c, -State.mixStep2_hi, -State.mixStep2_lo, -State.mixStep2_d, -State.mixStep2_b, -State.mixStep2_a]

@[simp] theorem State.mixIteration_tcArrived (s : State) :
    s.mixIteration.tcArrived = s.tcArrived := by simp [State.mixIteration, -State.mixStep2_mem, -State.mixStep2_j, -State.mixStep2_c, -State.mixStep2_hi, -State.mixStep2_lo, -State.mixStep2_d, -State.mixStep2_b, -State.mixStep2_a]

@[simp] theorem State.mixIteration_mem (s : State) :
    s.mixIteration.mem = s.mixStep1.mixStep2.mem := by simp [State.mixIteration, -State.mixStep2_mem, -State.mixStep2_j, -State.mixStep2_c, -State.mixStep2_hi, -State.mixStep2_lo, -State.mixStep2_d, -State.mixStep2_b, -State.mixStep2_a]

@[simp] theorem State.mixIteration_heldMem (s : State) :
    s.mixIteration.heldMem = s.heldMem := by simp [State.mixIteration, -State.mixStep2_mem, -State.mixStep2_j, -State.mixStep2_c, -State.mixStep2_hi, -State.mixStep2_lo, -State.mixStep2_d, -State.mixStep2_b, -State.mixStep2_a]

@[simp] theorem State.mixIteration_fault (s : State) :
    s.mixIteration.fault = s.fault := by simp [State.mixIteration, -State.mixStep2_mem, -State.mixStep2_j, -State.mixStep2_c, -State.mixStep2_hi, -State.mixStep2_lo, -State.mixStep2_d, -State.mixStep2_b, -State.mixStep2_a]

@[simp] theorem State.mixIteration_platform (s : State) :
    s.mixIteration.platform = s.platform := by simp [State.mixIteration, -State.mixStep2_mem, -State.mixStep2_j, -State.mixStep2_c, -State.mixStep2_hi, -State.mixStep2_lo, -State.mixStep2_d, -State.mixStep2_b, -State.mixStep2_a]

@[simp] theorem State.mixIteration_events (s : State) :
    s.mixIteration.events = s.events := by simp [State.mixIteration, -State.mixStep2_mem, -State.mixStep2_j, -State.mixStep2_c, -State.mixStep2_hi, -State.mixStep2_lo, -State.mixStep2_d, -State.mixStep2_b, -State.mixStep2_a]

@[simp] theorem State.mixIteration_response (s : State) :
    s.mixIteration.response = s.response := by simp [State.mixIteration, -State.mixStep2_mem, -State.mixStep2_j, -State.mixStep2_c, -State.mixStep2_hi, -State.mixStep2_lo, -State.mixStep2_d, -State.mixStep2_b, -State.mixStep2_a]

@[simp] theorem State.mixIteration_draws (s : State) :
    s.mixIteration.draws = s.draws + 1 := by simp [State.mixIteration, -State.mixStep2_mem, -State.mixStep2_j, -State.mixStep2_c, -State.mixStep2_hi, -State.mixStep2_lo, -State.mixStep2_d, -State.mixStep2_b, -State.mixStep2_a]

/-! `stageDerive`. -/

@[simp] theorem stageDerive_irqEn (s : State) :
    (stageDerive s).irqEn = s.irqEn := by simp [stageDerive]

@[simp] theorem stageDerive_status (s : State) :
    (stageDerive s).status = s.status := by simp [stageDerive]

@[simp] theorem stageDerive_rounds (s : State) :
    (stageDerive s).rounds = s.rounds := by simp [stageDerive]

@[simp] theorem stageDerive_dataAddr (s : State) :
    (stageDerive s).dataAddr = s.dataAddr := by simp [stageDerive]

@[simp] theorem stageDerive_dataLen (s : State) :
    (stageDerive s).dataLen = s.dataLen := by simp [stageDerive]

@[simp] theorem stageDerive_scratchAddr (s : State) :
    (stageDerive s).scratchAddr = s.scratchAddr := by simp [stageDerive]

@[simp] theorem stageDerive_key (s : State) :
    (stageDerive s).key = s.key := by simp [stageDerive]

@[simp] theorem stageDerive_din (s : State) :
    (stageDerive s).din = s.din := by simp [stageDerive]

@[simp] theorem stageDerive_rkey (s : State) :
    (stageDerive s).rkey = s.rkey := by simp [stageDerive]

@[simp] theorem stageDerive_dout (s : State) :
    (stageDerive s).dout = s.dout := by simp [stageDerive]

@[simp] theorem stageDerive_digest (s : State) :
    (stageDerive s).digest = s.digest := by simp [stageDerive]

@[simp] theorem stageDerive_stateBuf (s : State) :
    (stageDerive s).stateBuf = s.stateBuf := by simp [stageDerive]

@[simp] theorem stageDerive_ek (s : State) :
    (stageDerive s).ek = s.ek := by simp [stageDerive]

@[simp] theorem stageDerive_dk (s : State) :
    (stageDerive s).dk = s.dk := by simp [stageDerive]

@[simp] theorem stageDerive_hk (s : State) :
    (stageDerive s).hk = s.hk := by simp [stageDerive]

@[simp] theorem stageDerive_text (s : State) :
    (stageDerive s).text = s.text := by simp [stageDerive]

@[simp] theorem stageDerive_a (s : State) :
    (stageDerive s).a = keyMaterialXor s.sponge 0 := by simp [stageDerive]

@[simp] theorem stageDerive_b (s : State) :
    (stageDerive s).b = keyMaterialXor s.sponge 2 := by simp [stageDerive]

@[simp] theorem stageDerive_c (s : State) :
    (stageDerive s).c = s.c := by simp [stageDerive]

@[simp] theorem stageDerive_d (s : State) :
    (stageDerive s).d = s.d := by simp [stageDerive]

@[simp] theorem stageDerive_e (s : State) :
    (stageDerive s).e = s.e := by simp [stageDerive]

@[simp] theorem stageDerive_hi (s : State) :
    (stageDerive s).hi = s.hi := by simp [stageDerive]

@[simp] theorem stageDerive_lo (s : State) :
    (stageDerive s).lo = s.lo := by simp [stageDerive]

@[simp] theorem stageDerive_j (s : State) :
    (stageDerive s).j = s.j := by simp [stageDerive]

@[simp] theorem stageDerive_sponge (s : State) :
    (stageDerive s).sponge = s.sponge := by simp [stageDerive]

@[simp] theorem stageDerive_ksave (s : State) :
    (stageDerive s).ksave = s.ksave := by simp [stageDerive]

@[simp] theorem stageDerive_bsave (s : State) :
    (stageDerive s).bsave = s.bsave := by simp [stageDerive]

@[simp] theorem stageDerive_cmdl (s : State) :
    (stageDerive s).cmdl = s.cmdl := by simp [stageDerive]

@[simp] theorem stageDerive_phase (s : State) :
    (stageDerive s).phase = s.phase := by simp [stageDerive]

@[simp] theorem stageDerive_seq (s : State) :
    (stageDerive s).seq = ⟨.mix, 0, 0, 0⟩ := by simp [stageDerive]

@[simp] theorem stageDerive_tc (s : State) :
    (stageDerive s).tc = s.tc := by simp [stageDerive]

@[simp] theorem stageDerive_tcValid (s : State) :
    (stageDerive s).tcValid = s.tcValid := by simp [stageDerive]

@[simp] theorem stageDerive_tcArrived (s : State) :
    (stageDerive s).tcArrived = s.tcArrived := by simp [stageDerive]

@[simp] theorem stageDerive_mem (s : State) :
    (stageDerive s).mem = s.mem := by simp [stageDerive]

@[simp] theorem stageDerive_heldMem (s : State) :
    (stageDerive s).heldMem = s.heldMem := by simp [stageDerive]

@[simp] theorem stageDerive_fault (s : State) :
    (stageDerive s).fault = s.fault := by simp [stageDerive]

@[simp] theorem stageDerive_platform (s : State) :
    (stageDerive s).platform = s.platform := by simp [stageDerive]

@[simp] theorem stageDerive_events (s : State) :
    (stageDerive s).events = s.events := by simp [stageDerive]

@[simp] theorem stageDerive_response (s : State) :
    (stageDerive s).response = s.response := by simp [stageDerive]

@[simp] theorem stageDerive_draws (s : State) :
    (stageDerive s).draws = s.draws := by simp [stageDerive]

/-! `endHash`. -/

@[simp] theorem State.endHash_irqEn (s : State) (err : BitVec 4) :
    (s.endHash err).irqEn = s.irqEn := by simp [State.endHash]

@[simp] theorem State.endHash_status (s : State) (err : BitVec 4) :
    (s.endHash err).status = s.status.finished err := by simp [State.endHash]

@[simp] theorem State.endHash_rounds (s : State) (err : BitVec 4) :
    (s.endHash err).rounds = s.rounds := by simp [State.endHash]

@[simp] theorem State.endHash_dataAddr (s : State) (err : BitVec 4) :
    (s.endHash err).dataAddr = s.dataAddr := by simp [State.endHash]

@[simp] theorem State.endHash_dataLen (s : State) (err : BitVec 4) :
    (s.endHash err).dataLen = s.dataLen := by simp [State.endHash]

@[simp] theorem State.endHash_scratchAddr (s : State) (err : BitVec 4) :
    (s.endHash err).scratchAddr = s.scratchAddr := by simp [State.endHash]

@[simp] theorem State.endHash_key (s : State) (err : BitVec 4) :
    (s.endHash err).key = s.key := by simp [State.endHash]

@[simp] theorem State.endHash_din (s : State) (err : BitVec 4) :
    (s.endHash err).din = s.din := by simp [State.endHash]

@[simp] theorem State.endHash_rkey (s : State) (err : BitVec 4) :
    (s.endHash err).rkey = s.rkey := by simp [State.endHash]

@[simp] theorem State.endHash_dout (s : State) (err : BitVec 4) :
    (s.endHash err).dout = s.dout := by simp [State.endHash]

@[simp] theorem State.endHash_digest (s : State) (err : BitVec 4) :
    (s.endHash err).digest = s.digest := by simp [State.endHash]

@[simp] theorem State.endHash_stateBuf (s : State) (err : BitVec 4) :
    (s.endHash err).stateBuf = s.sponge := by simp [State.endHash]

@[simp] theorem State.endHash_ek (s : State) (err : BitVec 4) :
    (s.endHash err).ek = s.ek := by simp [State.endHash]

@[simp] theorem State.endHash_dk (s : State) (err : BitVec 4) :
    (s.endHash err).dk = s.dk := by simp [State.endHash]

@[simp] theorem State.endHash_ksave (s : State) (err : BitVec 4) :
    (s.endHash err).ksave = s.ksave := by simp [State.endHash]

@[simp] theorem State.endHash_bsave (s : State) (err : BitVec 4) :
    (s.endHash err).bsave = s.bsave := by simp [State.endHash]

@[simp] theorem State.endHash_cmdl (s : State) (err : BitVec 4) :
    (s.endHash err).cmdl = s.cmdl := by simp [State.endHash]

@[simp] theorem State.endHash_phase (s : State) (err : BitVec 4) :
    (s.endHash err).phase = .idle := by simp [State.endHash]

@[simp] theorem State.endHash_seq (s : State) (err : BitVec 4) :
    (s.endHash err).seq = Sequencer.start := by simp [State.endHash]

@[simp] theorem State.endHash_tc (s : State) (err : BitVec 4) :
    (s.endHash err).tc = s.tc := by simp [State.endHash]

@[simp] theorem State.endHash_tcValid (s : State) (err : BitVec 4) :
    (s.endHash err).tcValid = s.tcValid := by simp [State.endHash]

@[simp] theorem State.endHash_tcArrived (s : State) (err : BitVec 4) :
    (s.endHash err).tcArrived = s.tcArrived := by simp [State.endHash]

@[simp] theorem State.endHash_mem (s : State) (err : BitVec 4) :
    (s.endHash err).mem = s.mem.drawBytes s.scratchAddr.toNat s.draws scratchBytes := by simp [State.endHash]

@[simp] theorem State.endHash_heldMem (s : State) (err : BitVec 4) :
    (s.endHash err).heldMem = s.heldMem := by simp [State.endHash]

@[simp] theorem State.endHash_fault (s : State) (err : BitVec 4) :
    (s.endHash err).fault = s.fault := by simp [State.endHash]

@[simp] theorem State.endHash_platform (s : State) (err : BitVec 4) :
    (s.endHash err).platform = s.platform := by simp [State.endHash]

@[simp] theorem State.endHash_events (s : State) (err : BitVec 4) :
    (s.endHash err).events = s.events := by simp [State.endHash]

@[simp] theorem State.endHash_response (s : State) (err : BitVec 4) :
    (s.endHash err).response = s.response := by simp [State.endHash]

@[simp] theorem State.endHash_draws (s : State) (err : BitVec 4) :
    (s.endHash err).draws = s.draws + 2 := by simp [State.endHash]

/-! `resetBlock`. -/

@[simp] theorem State.resetBlock_irqEn (s : State) :
    s.resetBlock.irqEn = false := by simp only [State.resetBlock, State.resetOn]

@[simp] theorem State.resetBlock_status (s : State) :
    s.resetBlock.status = ⟨false, false, false, 0, false, false⟩ := by simp only [State.resetBlock, State.resetOn]

@[simp] theorem State.resetBlock_rounds (s : State) :
    s.resetBlock.rounds = 0 := by simp only [State.resetBlock, State.resetOn]

@[simp] theorem State.resetBlock_cmdl (s : State) :
    s.resetBlock.cmdl = 0 := by simp only [State.resetBlock, State.resetOn]

@[simp] theorem State.resetBlock_phase (s : State) :
    s.resetBlock.phase = if s.platform.tcache then .tcfill else .idle := by simp only [State.resetBlock, State.resetOn]

@[simp] theorem State.resetBlock_seq (s : State) :
    s.resetBlock.seq = Sequencer.start := by simp only [State.resetBlock, State.resetOn]

@[simp] theorem State.resetBlock_tc (s : State) :
    s.resetBlock.tc = LookupTables.zero := by simp only [State.resetBlock, State.resetOn]

@[simp] theorem State.resetBlock_tcValid (s : State) :
    s.resetBlock.tcValid = false := by simp only [State.resetBlock, State.resetOn]

@[simp] theorem State.resetBlock_tcArrived (s : State) :
    s.resetBlock.tcArrived = List.replicate s.platform.groupLanes false := by simp only [State.resetBlock, State.resetOn]

@[simp] theorem State.resetBlock_mem (s : State) :
    s.resetBlock.mem = if s.abandonsHash then s.mem.drawBytes s.scratchAddr.toNat s.draws scratchBytes else s.mem := by simp only [State.resetBlock, State.resetOn]

@[simp] theorem State.resetBlock_heldMem (s : State) :
    s.resetBlock.heldMem = none := by simp only [State.resetBlock, State.resetOn]

@[simp] theorem State.resetBlock_fault (s : State) :
    s.resetBlock.fault = s.fault := by simp only [State.resetBlock, State.resetOn]

@[simp] theorem State.resetBlock_platform (s : State) :
    s.resetBlock.platform = s.platform := by simp only [State.resetBlock, State.resetOn]

@[simp] theorem State.resetBlock_events (s : State) :
    s.resetBlock.events = s.events := by simp only [State.resetBlock, State.resetOn]

@[simp] theorem State.resetBlock_draws (s : State) :
    s.resetBlock.draws = s.draws + 1 := by simp only [State.resetBlock, State.resetOn]

end Sys2Proof.Machine
end

