-- ==== Sys2Proof/Laws/Bus.lean ====
section
/-! SUPPORT. An aligned access inside the register window, as an event, is the register operation at its offset (R72,
R101, R102). -/

namespace Sys2Proof.Machine

/-- The base of the register window leaves room for the window (R101). -/
theorem toNat_pBase (p : Platform) : (pBase p).toNat = 0x400 * p.basePage.toNat := by
  have h : (pBase p).toNat = p.basePage.toNat <<< 10 ||| (0 : BitVec 10).toNat := BitVec.toNat_append ..
  rw [h, Nat.shiftLeft_eq, show (0 : BitVec 10).toNat = 0 from rfl, Nat.or_zero, Nat.mul_comm]

theorem pBase_fits (p : Platform) : (pBase p).toNat + 0x400 ≤ 2 ^ 64 := by
  have := p.basePage.isLt
  rw [toNat_pBase]
  omega

/-- The address of an offset of the window. -/
theorem toNat_offset (p : Platform) {o : Nat} (h : o < 0x400) :
    (pBase p + BitVec.ofNat 64 o).toNat = (pBase p).toNat + o := by
  have := pBase_fits p
  rw [BitVec.toNat_add, BitVec.toNat_ofNat]
  omega

/-- The two low bits of an address are clear exactly when it is a multiple of 4. -/
theorem lowBits_eq_zero (addr : BitVec 64) : (addr.extractLsb' 0 2 == 0) = decide (addr.toNat % 4 = 0) := by
  rw [Bool.eq_iff_iff]
  simp only [beq_iff_eq, decide_eq_true_eq]
  constructor
  · intro h
    have := congrArg BitVec.toNat h
    simpa [BitVec.extractLsb'_toNat] using this
  · intro h
    apply BitVec.eq_of_toNat_eq
    simpa [BitVec.extractLsb'_toNat] using h

theorem reachesRegisters_offset (p : Platform) {o : Nat} (h : o < 0x400) :
    reachesRegisters p (pBase p + BitVec.ofNat 64 o) 4 = true := by
  simp only [reachesRegisters, Window.touches, registerWindow, toNat_offset p h, decide_eq_true_eq]
  omega

theorem alignedAccess_offset (p : Platform) {o : Nat} (h : isOffset o) :
    alignedAccess (pBase p + BitVec.ofNat 64 o) 4 = true := by
  simp only [alignedAccess, lowBits_eq_zero, toNat_offset p h.1, toNat_pBase, decide_true, Bool.true_and,
    decide_eq_true_eq]
  have := h.2
  omega

theorem offsetOf_offset (p : Platform) {o : Nat} (h : o < 0x400) : offsetOf p (pBase p + BitVec.ofNat 64 o) = o := by
  have := toNat_offset p h
  rw [offsetOf, BitVec.toNat_sub, this]
  have := (pBase p).isLt
  omega

/-- The four bytes of a word on the bus give the word back (R70). -/
theorem busWord_busBytes (v : Word) : busWord (busBytes v) = v := by
  apply BitVec.eq_of_getLsbD_eq
  intro i hi
  simp only [busWord, busBytes, List.getD_cons_succ, List.getD_cons_zero, byte3, byte2, byte1, byte0,
    BitVec.getLsbD_append, BitVec.getLsbD_extractLsb', Nat.sub_sub]
  by_cases h0 : i < 8
  · simp [h0]
  · by_cases h1 : i - 8 < 8
    · simp [h0, h1, show 8 + (i - 8) = i by omega]
    · by_cases h2 : i - (8 + 8) < 8
      · simp [h0, h1, h2, show 16 + (i - (8 + 8)) = i by omega]
      · simp [h0, h1, h2, show 24 + (i - (8 + 8 + 8)) = i by omega, show i - (8 + 8 + 8) < 8 by omega]

/-- A register write as the next event. -/
theorem step_regWrite {s : State} {o : Nat} (ho : isOffset o) (hs : s.Good) (v : Word) (rest : List Event) :
    step { s with events := regWrite s.platform o v :: rest } =
      .next (State.writeReg { s with events := rest } (regAt o) v) := by
  have hs : s.fault = none := hs
  simp only [step, hs, State.eventStep, regWrite, State.busWrite, busBytes, List.length_cons, List.length_nil,
    reachesRegisters_offset s.platform ho.1, alignedAccess_offset s.platform ho, offsetOf_offset s.platform ho.1, if_true]
  rw [← busBytes, busWord_busBytes]

/-- A register read as the next event. -/
theorem step_regRead {s : State} {o : Nat} (ho : isOffset o) (hs : s.Good) (rest : List Event) :
    step { s with events := regRead s.platform o :: rest } =
      .next { s with events := rest, response := some (.word (s.readReg (regAt o))) } := by
  have hs : s.fault = none := hs
  simp only [step, hs, State.eventStep, regRead, State.busRead, reachesRegisters_offset s.platform ho.1,
    alignedAccess_offset s.platform ho, offsetOf_offset s.platform ho.1, if_true]
  rfl

/-- The register read at an offset says what the host reads there. -/
theorem State.readsAs_of {s : State} {o : Nat} {v : Word} (ho : isOffset o) (hs : s.Good)
    (h : s.readReg (regAt o) = v) : s.ReadsAs o v := by
  intro rest
  rw [step_regRead ho hs, h]

/-- The register write at an offset says what a host write does there. -/
theorem State.writes_of {s t : State} {o : Nat} {v : Word} (ho : isOffset o) (hs : s.Good)
    (h : ∀ rest, State.writeReg { s with events := rest } (regAt o) v = { t with events := rest }) :
    s.Writes o v t := by
  intro rest
  rw [step_regWrite ho hs, h]

end Sys2Proof.Machine
end

