-- ==== Sys2Proof/Laws/Memory.lean ====
section
/-! SUPPORT. The laws of memory: every operation keeps the canonical form, and what each address reads as after it. -/

namespace Sys2Proof.Machine

theorem Memory.read_of_lt {m : Memory} {a : Nat} (h : ∀ c ∈ m, a < c.1) : m.read a = unlistedByte := by
  induction m with
  | nil => rfl
  | cons c m ih =>
    have h1 := h c (by simp)
    have h2 : a ≠ c.1 := by omega
    simp only [Memory.read, h2, if_false]
    exact ih fun d hd => h d (by simp [hd])

theorem Memory.read_of_notMem {m : Memory} {a : Nat} (h : ∀ c ∈ m, a ≠ c.1) : m.read a = unlistedByte := by
  induction m with
  | nil => rfl
  | cons c m ih =>
    simp only [Memory.read, h c (by simp), if_false]
    exact ih fun d hd => h d (by simp [hd])

theorem Memory.mem_write {m : Memory} {a : Nat} {v : Byte} {c : Host.Cell} (h : c ∈ m.write a v) :
    c ∈ m ∨ (c = (a, v) ∧ v ≠ unlistedByte) := by
  induction m with
  | nil =>
    simp only [Memory.write] at h
    split at h <;> simp_all
  | cons d m ih =>
    simp only [Memory.write] at h
    split at h
    · split at h <;> simp_all
      tauto
    · split at h
      · split at h <;> simp_all
        tauto
      · rcases List.mem_cons.mp h with h | h
        · simp [h]
        · rcases ih h with h | h <;> simp [h]

/-- A write of one byte keeps the canonical form. -/
theorem Memory.write_wf {m : Memory} {a : Nat} {v : Byte} (hm : m.wf) (ha : a < 2 ^ 64) : (m.write a v).wf := by
  refine ⟨?_, fun c hc => ?_⟩
  · obtain ⟨hs, -⟩ := hm
    induction m with
    | nil =>
      simp only [Memory.write]
      split <;> simp
    | cons d m ih =>
      have hd := List.pairwise_cons.mp hs
      simp only [Memory.write]
      split
      · next hlt =>
        split
        · exact hs
        · refine List.pairwise_cons.mpr ⟨fun c hc => ?_, hs⟩
          rcases List.mem_cons.mp hc with rfl | hc
          · exact hlt
          · exact Nat.lt_trans hlt (hd.1 c hc)
      · split
        · next heq =>
          split
          · exact hd.2
          · exact List.pairwise_cons.mpr ⟨fun c hc => heq ▸ hd.1 c hc, hd.2⟩
        · next hnlt hne =>
          refine List.pairwise_cons.mpr ⟨fun c hc => ?_, ih hd.2⟩
          rcases Memory.mem_write hc with hc | ⟨rfl, -⟩
          · exact hd.1 c hc
          · show d.1 < a
            omega
  · rcases Memory.mem_write hc with hc | ⟨rfl, hv⟩
    · exact hm.2 c hc
    · exact ⟨ha, hv⟩

/-- What every address reads as after a write of one byte. -/
theorem Memory.read_write {m : Memory} (hm : m.wf) (a : Nat) (v : Byte) (x : Nat) :
    (m.write a v).read x = if x = a then v else m.read x := by
  obtain ⟨hs, -⟩ := hm
  induction m with
  | nil =>
    simp only [Memory.write]
    split <;> split <;> simp_all [Memory.read]
  | cons d m ih =>
    have hd := List.pairwise_cons.mp hs
    simp only [Memory.write]
    split
    · next hlt =>
      split
      · next hv =>
        split
        · next hx =>
          subst hx
          rw [hv]
          refine Memory.read_of_lt fun c hc => ?_
          rcases List.mem_cons.mp hc with rfl | hc
          · exact hlt
          · exact Nat.lt_trans hlt (hd.1 c hc)
        · rfl
      · rw [Memory.read]
    · split
      · next heq =>
        split
        · next hv =>
          split
          · next hx =>
            subst hx
            rw [hv]
            exact Memory.read_of_lt fun c hc => heq ▸ hd.1 c hc
          · next hx => rw [Memory.read, if_neg (heq ▸ hx)]
        · subst heq
          simp only [Memory.read]
          split <;> rfl
      · next hnlt hne =>
        simp only [Memory.read]
        split
        · next hx => rw [if_neg (by omega)]
        · exact ih hd.2

theorem Memory.writeBytes_wf {m : Memory} (hm : m.wf) (addr : BitVec 64) (data : List Byte) :
    (m.writeBytes addr data).wf := by
  induction data generalizing m addr with
  | nil => exact hm
  | cons v vs ih => exact ih (Memory.write_wf hm addr.isLt) (addr + 1)

theorem Memory.writeBlock_wf {m : Memory} (hm : m.wf) (addr : BitVec 64) (b : Block) : (m.writeBlock addr b).wf :=
  Memory.writeBytes_wf hm addr b.toList

theorem Memory.drawBytes_wf {m : Memory} (hm : m.wf) (base seq n : Nat) : (m.drawBytes base seq n).wf := by
  induction n with
  | zero => exact hm
  | succ n ih =>
    rw [Memory.drawBytes]
    split
    · next h => exact Memory.write_wf ih h
    · exact ih

/-- How far an address lies above another, around the 64-bit space. -/
def addrOffset (addr : BitVec 64) (x : Nat) : Nat := (BitVec.ofNat 64 x - addr).toNat

theorem addrOffset_eq (addr : BitVec 64) (x : Nat) (_hx : x < 2 ^ 64) :
    addrOffset addr x = (x + (2 ^ 64 - addr.toNat)) % 2 ^ 64 := by
  have := addr.isLt
  simp only [addrOffset, BitVec.toNat_sub, BitVec.toNat_ofNat]
  omega

/-- An address is `addr + k` exactly when it lies `k` above `addr`. -/
theorem eq_add_iff_addrOffset (addr : BitVec 64) {x k : Nat} (hx : x < 2 ^ 64) (hk : k < 2 ^ 64) :
    x = (addr + BitVec.ofNat 64 k).toNat ↔ addrOffset addr x = k := by
  have := addr.isLt
  rw [addrOffset_eq addr x hx, BitVec.toNat_add, BitVec.toNat_ofNat]
  omega

/-- What every address reads as after a write of several bytes, window by window around the 64-bit space. -/
theorem Memory.read_writeBytes {m : Memory} (hm : m.wf) (addr : BitVec 64) (data : List Byte)
    (hlen : data.length ≤ 2 ^ 64) {x : Nat} (hx : x < 2 ^ 64) :
    (m.writeBytes addr data).read x = data[addrOffset addr x]?.getD (m.read x) := by
  induction data generalizing m addr with
  | nil => simp [Memory.writeBytes]
  | cons v vs ih =>
    simp only [List.length_cons] at hlen
    rw [Memory.writeBytes, ih (Memory.write_wf hm addr.isLt) (addr + 1) (by omega), Memory.read_write hm]
    have ha := addr.isLt
    have h0 := addrOffset_eq addr x hx
    have h1 := addrOffset_eq (addr + 1) x hx
    have h2 : (addr + 1).toNat = (addr.toNat + 1) % 2 ^ 64 := by simp [BitVec.toNat_add]
    by_cases hxa : x = addr.toNat
    · have e0 : addrOffset addr x = 0 := by omega
      have e1 : addrOffset (addr + 1) x = 2 ^ 64 - 1 := by omega
      rw [e0, e1, if_pos hxa, List.getElem?_eq_none (by omega)]
      simp
    · have e1 : addrOffset addr x = addrOffset (addr + 1) x + 1 := by omega
      rw [e1, if_neg hxa]
      simp

/-- What every address reads as after a draw of `n` bytes from `base` on. -/
theorem Memory.read_drawBytes {m : Memory} (hm : m.wf) (base seq n : Nat) {x : Nat} (hx : x < 2 ^ 64) :
    (m.drawBytes base seq n).read x =
      if base ≤ x ∧ x < base + n then Config.free 8 seq (x - base) else m.read x := by
  induction n with
  | zero => rw [Memory.drawBytes, if_neg (by omega)]
  | succ n ih =>
    by_cases hxn : x = base + n
    · subst hxn
      rw [Memory.drawBytes, if_pos hx, Memory.read_write (Memory.drawBytes_wf hm base seq n), if_pos rfl,
        if_pos (by omega), show base + n - base = n by omega]
    · have hiff : (base ≤ x ∧ x < base + (n + 1)) ↔ (base ≤ x ∧ x < base + n) := by omega
      rw [Memory.drawBytes]
      simp only [hiff]
      split
      · rw [Memory.read_write (Memory.drawBytes_wf hm base seq n), if_neg hxn, ih]
      · exact ih

theorem Memory.readBytes_length (m : Memory) (addr : BitVec 64) (n : Nat) : (m.readBytes addr n).length = n := by
  induction n generalizing addr with
  | zero => rfl
  | succ n ih => simp [Memory.readBytes, ih]

/-- Byte `i` of a read of several bytes is the byte at `addr + i`. -/
theorem Memory.getElem_readBytes (m : Memory) (addr : BitVec 64) (n i : Nat) (h : i < n) :
    (m.readBytes addr n)[i]'(by rw [Memory.readBytes_length]; exact h) =
      m.read (addr + BitVec.ofNat 64 i).toNat := by
  induction n generalizing addr i with
  | zero => omega
  | succ n ih =>
    cases i with
    | zero => simp [Memory.readBytes]
    | succ i =>
      simp only [Memory.readBytes, List.getElem_cons_succ]
      rw [ih (addr + 1) i (by omega)]
      congr 2
      have h1 : BitVec.ofNat 64 (i + 1) = BitVec.ofNat 64 i + 1 := by
        apply BitVec.eq_of_toNat_eq
        simp [BitVec.toNat_add, BitVec.toNat_ofNat]
      rw [h1, BitVec.add_assoc]
      congr 1
      exact BitVec.add_comm _ _

/-- Two memories that read the same at every address of a range read the same bytes there. -/
theorem Memory.readBytes_congr {m m' : Memory} (addr : BitVec 64) (n : Nat)
    (h : ∀ i, i < n → m.read (addr + BitVec.ofNat 64 i).toNat = m'.read (addr + BitVec.ofNat 64 i).toNat) :
    m.readBytes addr n = m'.readBytes addr n := by
  apply List.ext_getElem
  · rw [Memory.readBytes_length, Memory.readBytes_length]
  · intro i h1 h2
    rw [Memory.readBytes_length] at h1
    rw [Memory.getElem_readBytes m addr n i h1, Memory.getElem_readBytes m' addr n i h1]
    exact h i h1

/-- What every address reads as after a Block is written. -/
theorem Memory.read_writeBlock {m : Memory} (hm : m.wf) (addr : BitVec 64) (b : Block) {x : Nat} (hx : x < 2 ^ 64) :
    (m.writeBlock addr b).read x =
      if h : addrOffset addr x < 16 then b[addrOffset addr x] else m.read x := by
  rw [Memory.writeBlock, Memory.read_writeBytes hm addr _ (by simp) hx]
  split
  · next h => rw [List.getElem?_eq_getElem (by simpa using h)]; simp
  · next h => rw [List.getElem?_eq_none (by simpa using h)]; rfl

/-- A Block that has been written reads back. -/
theorem Memory.readBlock_writeBlock_same {m : Memory} (hm : m.wf) (addr : BitVec 64) (b : Block) :
    (m.writeBlock addr b).readBlock addr = b := by
  apply Vector.ext
  intro i hi
  have hx : (addr + BitVec.ofNat 64 i).toNat < 2 ^ 64 := BitVec.isLt _
  have ho : addrOffset addr (addr + BitVec.ofNat 64 i).toNat = i :=
    (eq_add_iff_addrOffset addr hx (by omega)).mp rfl
  simp only [Memory.readBlock, Vector.getElem_ofFn]
  rw [Memory.read_writeBlock hm addr b hx, dif_pos (by omega)]
  simp only [ho]

/-- Writing a Block leaves alone every Block that lies at least 16 bytes away on both sides. -/
theorem Memory.readBlock_writeBlock_other {m : Memory} (hm : m.wf) {addr addr' : BitVec 64} (b : Block)
    (h1 : 16 ≤ (addr' - addr).toNat) (h2 : 16 ≤ (addr - addr').toNat) :
    (m.writeBlock addr b).readBlock addr' = m.readBlock addr' := by
  apply Vector.ext
  intro i hi
  have hx : (addr' + BitVec.ofNat 64 i).toNat < 2 ^ 64 := BitVec.isLt _
  simp only [Memory.readBlock, Vector.getElem_ofFn]
  rw [Memory.read_writeBlock hm addr b hx, dif_neg]
  rw [addrOffset_eq addr _ hx]
  have := addr.isLt
  have := addr'.isLt
  simp only [BitVec.toNat_sub, BitVec.toNat_add, BitVec.toNat_ofNat] at *
  omega

/-- The address of a scratchpad block as a number (R78). -/
theorem toNat_scratchBlockAddr (s : State) (j : BitVec 17) :
    (s.scratchBlockAddr j).toNat = (s.scratchAddr.toNat + 16 * j.toNat) % 2 ^ 64 := by
  have hj := j.isLt
  have h16 : (16 : BitVec 64).toNat = 16 := rfl
  simp only [State.scratchBlockAddr, BitVec.toNat_add, BitVec.toNat_mul, BitVec.toNat_setWidth, h16]
  omega

/-- Two different scratchpad blocks lie at least 16 bytes apart, around the 64-bit space too. -/
theorem scratchBlocks_apart (s : State) {i j : BitVec 17} (h : i ≠ j) :
    16 ≤ (s.scratchBlockAddr i - s.scratchBlockAddr j).toNat := by
  have hi := i.isLt
  have hj := j.isLt
  have ha := s.scratchAddr.isLt
  have hne : i.toNat ≠ j.toNat := fun e => h (BitVec.eq_of_toNat_eq e)
  rw [BitVec.toNat_sub, toNat_scratchBlockAddr, toNat_scratchBlockAddr]
  omega

/-- `ScrRead` after `ScrWrite` (R84). -/
theorem State.scrRead_scrWrite (s : State) (hm : s.mem.wf) (i j : BitVec 17) (v : Block) :
    (s.scrWrite i v).scrRead j = if j = i then v else s.scrRead j := by
  split
  · next h =>
    subst h
    exact Memory.readBlock_writeBlock_same hm _ v
  · next h =>
    exact Memory.readBlock_writeBlock_other hm v (scratchBlocks_apart s h) (scratchBlocks_apart s (Ne.symm h))

/-- An address in the scratch window lies less than 2 MiB above SCRATCH_ADDR. -/
theorem addrOffset_scratchBlock (s : State) (j : BitVec 17) {x : Nat} (hx : x < 2 ^ 64)
    (h : addrOffset (s.scratchBlockAddr j) x < 16) : addrOffset s.scratchAddr x < scratchBytes := by
  have hj := j.isLt
  have ha := s.scratchAddr.isLt
  rw [addrOffset_eq _ x hx] at *
  rw [toNat_scratchBlockAddr] at h
  simp only [scratchBytes]
  omega

/-- A scratchpad write leaves every address outside the scratch window alone. -/
theorem State.read_scrWrite_outside (s : State) (hm : s.mem.wf) (j : BitVec 17) (v : Block) {x : Nat}
    (hx : x < 2 ^ 64) (h : scratchBytes ≤ addrOffset s.scratchAddr x) :
    (s.scrWrite j v).mem.read x = s.mem.read x := by
  rw [State.scrWrite_mem, Memory.read_writeBlock hm _ v hx, dif_neg]
  intro hc
  have := addrOffset_scratchBlock s j hx hc
  omega

/-- Where the scratch window does not pass the end of the space, an address outside it lies 2 MiB or more above its
base, around the space. -/
theorem addrOffset_outside {base : BitVec 64} {n x : Nat} (hx : x < 2 ^ 64) (hfit : base.toNat + n ≤ 2 ^ 64)
    (h : x < base.toNat ∨ base.toNat + n ≤ x) : n ≤ addrOffset base x := by
  have := base.isLt
  rw [addrOffset_eq _ x hx]
  omega

/-- Memory as it is at power-on is canonical. -/
theorem State.reset_mem_wf : State.reset.mem.wf := ⟨List.Pairwise.nil, fun _ h => nomatch h⟩

end Sys2Proof.Machine
end

