-- ==== Sys2Proof/Laws/Engine.lean ====
section
/-! SUPPORT. What a part of a hash command can do: `EngineFrame` for a part after which the command goes on, `HashEnd`
for its end, one lemma per stage, one for a micro-step and one for the whole rest. Later proofs cite these and unfold
no stage. -/

namespace Sys2Proof.Machine

/-- The fields no part of a hash command changes. -/
theorem onlyHashEffects_iff (s t : State) : s.onlyHashEffects t ↔
    (t.irqEn = s.irqEn ∧ t.rounds = s.rounds ∧ t.dataAddr = s.dataAddr ∧ t.dataLen = s.dataLen ∧
      t.scratchAddr = s.scratchAddr ∧ t.key = s.key ∧ t.din = s.din ∧ t.rkey = s.rkey ∧ t.dout = s.dout ∧
      t.ek = s.ek ∧ t.dk = s.dk ∧ t.ksave = s.ksave ∧ t.bsave = s.bsave ∧ t.cmdl = s.cmdl ∧ t.tc = s.tc ∧
      t.tcValid = s.tcValid ∧ t.tcArrived = s.tcArrived ∧ t.fault = s.fault ∧ t.platform = s.platform ∧
      t.events = s.events ∧ t.response = s.response ∧ t.heldMem = s.heldMem) := by
  constructor
  · intro h
    rw [State.onlyHashEffects] at h
    rw [← h]
    simp
  · rintro ⟨h1, h2, h3, h4, h5, h6, h7, h8, h9, h10, h11, h12, h13, h14, h15, h16, h17, h18, h19, h20, h21, h22⟩
    obtain ⟨⟩ := s
    obtain ⟨⟩ := t
    simp only [State.onlyHashEffects] at *
    subst_vars
    rfl

theorem onlyHashEffects_refl (s : State) : s.onlyHashEffects s := rfl

theorem onlyHashEffects_trans {s t u : State} (h : s.onlyHashEffects t) (h' : t.onlyHashEffects u) :
    s.onlyHashEffects u := by
  rw [onlyHashEffects_iff] at *
  simp_all

/-- What a part of a hash command after which the command goes on leaves alone. -/
structure EngineFrame (s t : State) : Prop where
  regs : s.onlyHashEffects t
  stateBuf : t.stateBuf = s.stateBuf
  digest : t.digest = s.digest
  status : t.status = s.status
  phase : t.phase = s.phase
  /-- No draw is made twice. -/
  draws : s.draws ≤ t.draws
  wf : s.mem.wf → t.mem.wf
  /-- No byte outside a scratch window that fits below 2^64 changes. -/
  outside : s.mem.wf → s.scratchAddr.toNat + 2 ^ 21 ≤ 2 ^ 64 → ∀ x, s.outsideScratch x → t.mem.read x = s.mem.read x

theorem EngineFrame.refl (s : State) : EngineFrame s s :=
  ⟨rfl, rfl, rfl, rfl, rfl, le_rfl, id, fun _ _ _ _ => rfl⟩

theorem EngineFrame.scratchAddr {s t : State} (h : EngineFrame s t) : t.scratchAddr = s.scratchAddr :=
  ((onlyHashEffects_iff s t).mp h.regs).2.2.2.2.1

theorem EngineFrame.platform {s t : State} (h : EngineFrame s t) : t.platform = s.platform := by
  have := (onlyHashEffects_iff s t).mp h.regs
  tauto

theorem EngineFrame.tc {s t : State} (h : EngineFrame s t) : t.tc = s.tc ∧ t.tcValid = s.tcValid := by
  have := (onlyHashEffects_iff s t).mp h.regs
  tauto

theorem EngineFrame.tables {s t : State} (h : EngineFrame s t) : t.tables = s.tables := by
  simp only [State.tables, h.platform, h.tc]

theorem EngineFrame.tablesReady {s t : State} (h : EngineFrame s t) : t.tablesReady = s.tablesReady := by
  simp only [State.tablesReady, h.platform, h.tc]

theorem EngineFrame.scratchAdmitted {s t : State} (h : EngineFrame s t) : t.scratchAdmitted = s.scratchAdmitted := by
  simp only [State.scratchAdmitted, h.platform, h.scratchAddr]

theorem EngineFrame.outsideScratch {s t : State} (h : EngineFrame s t) (x : Nat) :
    t.outsideScratch x ↔ s.outsideScratch x := by
  simp only [State.outsideScratch, h.scratchAddr]

theorem EngineFrame.trans {s t u : State} (h : EngineFrame s t) (h' : EngineFrame t u) : EngineFrame s u where
  regs := onlyHashEffects_trans h.regs h'.regs
  stateBuf := h'.stateBuf.trans h.stateBuf
  digest := h'.digest.trans h.digest
  status := h'.status.trans h.status
  phase := h'.phase.trans h.phase
  draws := h.draws.trans h'.draws
  wf hm := h'.wf (h.wf hm)
  outside hm hfit x hx :=
    (h'.outside (h.wf hm) (by rwa [h.scratchAddr]) x ((h.outsideScratch x).mpr hx)).trans (h.outside hm hfit x hx)

/-- A frame that every turn of a loop keeps holds of the loop. -/
theorem EngineFrame.iterate {f : State → State} (h : ∀ s, EngineFrame s (f s)) (n : Nat) (s : State) :
    EngineFrame s (f^[n] s) := by
  induction n generalizing s with
  | zero => exact .refl s
  | succ n ih =>
    rw [Function.iterate_succ_apply]
    exact (h s).trans (ih (f s))

/-- A part that touches no memory. -/
theorem EngineFrame.of_mem_eq {s t : State} (hr : s.onlyHashEffects t) (h1 : t.stateBuf = s.stateBuf)
    (h2 : t.digest = s.digest) (h3 : t.status = s.status) (h4 : t.phase = s.phase) (h5 : s.draws ≤ t.draws)
    (hm : t.mem = s.mem) : EngineFrame s t :=
  ⟨hr, h1, h2, h3, h4, h5, fun h => hm ▸ h, fun _ _ _ _ => by rw [hm]⟩

/-- An address outside a scratch window that fits lies 2 MiB or more above its base. -/
theorem State.outsideScratch_offset {s : State} {x : Nat} (h : s.outsideScratch x)
    (hfit : s.scratchAddr.toNat + 2 ^ 21 ≤ 2 ^ 64) : scratchBytes ≤ addrOffset s.scratchAddr x :=
  addrOffset_outside h.1 hfit h.2

theorem engineFrame_enter (s : State) (g : Stage) : EngineFrame s (s.enter g) :=
  .of_mem_eq rfl rfl rfl rfl rfl le_rfl rfl

theorem engineFrame_scrWrite (s : State) (j : BitVec 17) (v : Block) : EngineFrame s (s.scrWrite j v) where
  regs := rfl
  stateBuf := rfl
  digest := rfl
  status := rfl
  phase := rfl
  draws := le_rfl
  wf hm := Memory.writeBlock_wf hm _ v
  outside hm hfit _ hx := State.read_scrWrite_outside s hm j v hx.1 (s.outsideScratch_offset hx hfit)

/-- After a scratchpad write, a change of the engine's own registers. -/
theorem EngineFrame.of_scrWrite {s t : State} (j : BitVec 17) (v : Block) (hr : s.onlyHashEffects t)
    (h1 : t.stateBuf = s.stateBuf) (h2 : t.digest = s.digest) (h3 : t.status = s.status) (h4 : t.phase = s.phase)
    (h5 : s.draws ≤ t.draws) (hm : t.mem = (s.scrWrite j v).mem) : EngineFrame s t where
  regs := hr
  stateBuf := h1
  digest := h2
  status := h3
  phase := h4
  draws := h5
  wf h := hm ▸ (engineFrame_scrWrite s j v).wf h
  outside h hfit x hx := by rw [hm]; exact (engineFrame_scrWrite s j v).outside h hfit x hx

theorem engineFrame_fillBlock (s : State) : EngineFrame s s.fillBlock := by
  refine .of_scrWrite s.seq.sweepBlock (pseudoEncrypt s.tables s.text[s.seq.k] s.hk) ?_ ?_ ?_ ?_ ?_ ?_ ?_ <;>
    simp [onlyHashEffects_iff]

theorem engineFrame_foldBlock (s : State) : EngineFrame s s.foldBlock := by
  refine .of_mem_eq ?_ ?_ ?_ ?_ ?_ ?_ ?_ <;> simp [onlyHashEffects_iff]

theorem engineFrame_mixStep1 (s : State) : EngineFrame s s.mixStep1 := by
  refine .of_scrWrite (scratchIndex s.a) (xorBytes (aesRoundBlock s.tables (s.scrRead (scratchIndex s.a)) s.a) s.b)
    ?_ ?_ ?_ ?_ ?_ ?_ ?_ <;> simp [onlyHashEffects_iff]

theorem engineFrame_mixStep2 (s : State) : EngineFrame s s.mixStep2 := by
  refine .of_scrWrite (scratchIndex s.a) s.mixSum ?_ ?_ ?_ ?_ ?_ ?_ ?_ <;> simp [onlyHashEffects_iff]

theorem engineFrame_mixIteration (s : State) : EngineFrame s s.mixIteration := by
  have h := (engineFrame_mixStep1 s).trans (engineFrame_mixStep2 s.mixStep1)
  rw [State.mixIteration]
  generalize s.mixStep1.mixStep2 = t at h
  exact h.trans (.of_mem_eq rfl rfl rfl rfl rfl (Nat.le_succ _) rfl)

theorem engineFrame_stageDerive (s : State) : EngineFrame s (stageDerive s) := by
  refine .of_mem_eq ?_ ?_ ?_ ?_ ?_ ?_ ?_ <;> simp [onlyHashEffects_iff]

theorem engineFrame_loadText (s : State) : EngineFrame s s.loadText := by
  refine .of_mem_eq ?_ ?_ ?_ ?_ ?_ ?_ ?_ <;> simp [onlyHashEffects_iff]

/-- How a hash command ends: its status, and what it leaves alone. -/
structure HashEnd (s t : State) : Prop where
  regs : s.onlyHashEffects t
  status : ∃ err : BitVec 4, err.toNat ≤ 5 ∧ t.status = s.status.finished err
  phase : t.phase = .idle
  seq : t.seq = Sequencer.start
  wf : s.mem.wf → t.mem.wf
  outside : s.mem.wf → s.scratchAddr.toNat + 2 ^ 21 ≤ 2 ^ 64 → ∀ x, s.outsideScratch x → t.mem.read x = s.mem.read x

/-- The end of a command after a part of it. -/
theorem HashEnd.after {s t u : State} (h : EngineFrame s t) (h' : HashEnd t u) : HashEnd s u where
  regs := onlyHashEffects_trans h.regs h'.regs
  status := h.status ▸ h'.status
  phase := h'.phase
  seq := h'.seq
  wf hm := h'.wf (h.wf hm)
  outside hm hfit x hx :=
    (h'.outside (h.wf hm) (by rwa [h.scratchAddr]) x ((h.outsideScratch x).mpr hx)).trans (h.outside hm hfit x hx)

theorem hashEnd_finish (s : State) (err : BitVec 4) (h : err.toNat ≤ 5) : HashEnd s (s.finish err) :=
  ⟨rfl, ⟨err, h, rfl⟩, rfl, rfl, id, fun _ _ _ _ => rfl⟩

/-- The draw of the scratch window leaves everything outside it alone, wherever the window lies. -/
theorem read_drawWindow_outside (s : State) (hm : s.mem.wf) {x : Nat} (hx : s.outsideScratch x) :
    s.drawWindow.mem.read x = s.mem.read x := by
  have := hx.2
  rw [State.drawWindow_mem, Memory.read_drawBytes hm _ _ _ hx.1, if_neg (by simp only [scratchBytes]; omega)]

theorem hashEnd_drawWindow_finish (s : State) (err : BitVec 4) (h : err.toNat ≤ 5) :
    HashEnd s (s.drawWindow.finish err) where
  regs := by simp [onlyHashEffects_iff]
  status := ⟨err, h, by simp⟩
  phase := by simp
  seq := by simp
  wf hm := by simpa using Memory.drawBytes_wf hm _ _ _
  outside hm _ x hx := by simpa using read_drawWindow_outside s hm hx

theorem hashEnd_endHash (s : State) (err : BitVec 4) (h : err.toNat ≤ 5) : HashEnd s (s.endHash err) where
  regs := by simp [onlyHashEffects_iff]
  status := ⟨err, h, by simp⟩
  phase := by simp
  seq := by simp
  wf hm := by simpa using Memory.drawBytes_wf hm _ _ _
  outside hm _ x hx := by simpa using read_drawWindow_outside s hm hx

/-- What a part of a hash command can answer: go on within the frame at a later stage, end, or one of two faults with its
cause. -/
def EngineResult.Sound (s : State) : EngineResult → Prop
  | .more t => EngineFrame s t ∧ t.seq.stage ≠ .check
  | .ended t => HashEnd s t
  | .fault f =>
    (f = .memNotAdmitted ∧ (s.scratchAdmitted = false ∨ s.dataAdmitted = false)) ∨
      (f = .tcacheHazard ∧ s.tablesReady = false)

/-- What the rest of a hash command can answer. -/
def RestSound (s : State) : Host.Outcome State Fault Refusal → Prop
  | .next t => HashEnd s t
  | .fault f =>
    (f = .memNotAdmitted ∧ (s.scratchAdmitted = false ∨ s.dataAdmitted = false)) ∨
      (f = .tcacheHazard ∧ s.tablesReady = false)
  | .refused _ => False

theorem EngineFrame.dataAdmitted {s t : State} (h : EngineFrame s t) : t.dataAdmitted = s.dataAdmitted := by
  have := (onlyHashEffects_iff s t).mp h.regs
  simp only [State.dataAdmitted, this]

theorem sound_more {s t : State} (h : EngineFrame s t) (hg : t.seq.stage ≠ .check) : (EngineResult.more t).Sound s :=
  ⟨h, hg⟩

theorem sound_ended {s t : State} (h : HashEnd s t) : (EngineResult.ended t).Sound s := h

/-- A sound rest after a frame is a sound rest. -/
theorem RestSound.after {s t : State} (h : EngineFrame s t) {o : Host.Outcome State Fault Refusal}
    (h' : RestSound t o) : RestSound s o := by
  cases o with
  | next u => exact HashEnd.after h h'
  | fault f => simpa only [RestSound, h.scratchAdmitted, h.dataAdmitted, h.tablesReady] using h'
  | refused r => exact h'

/-- A sound part followed by a sound rest. -/
theorem EngineResult.Sound.andThen {s : State} {r : EngineResult} (h : r.Sound s)
    {rest : State → Host.Outcome State Fault Refusal} (hrest : ∀ t, EngineFrame s t → RestSound t (rest t)) :
    RestSound s (r.andThen rest) := by
  cases r with
  | more t => exact (hrest t h.1).after h.1
  | ended t => exact h
  | fault f => exact h

theorem sound_importKey (s : State) (key : Bytes 32) (g : Stage) (hg : g ≠ .check) :
    (s.importKey key g).Sound s := by
  rw [State.importKey]
  split
  · exact sound_ended (hashEnd_endHash s 2 (by decide))
  · split
    · generalize storeSchedule (keyExpansion s.tables key 256) (fun _ => 0) = hk
      exact sound_more (.of_mem_eq rfl rfl rfl rfl rfl le_rfl rfl) hg
    · next h => exact .inr ⟨rfl, by simpa using h⟩

/-- A sound part of a state that a frame leads to. -/
theorem EngineResult.Sound.after {s t : State} (h : EngineFrame s t) {r : EngineResult} (h' : r.Sound t) :
    r.Sound s := by
  cases r with
  | more u => exact ⟨h.trans h'.1, h'.2⟩
  | ended u => exact HashEnd.after h h'
  | fault f =>
    simpa only [EngineResult.Sound, h.scratchAdmitted, h.dataAdmitted, h.tablesReady] using h'

theorem sound_stageCheck (c : HashKind) (s : State) : (stageCheck c s).Sound s := by
  simp only [stageCheck]
  split
  · cases c
    · exact ⟨.of_mem_eq rfl rfl rfl rfl rfl le_rfl rfl, by simp⟩
    · exact ⟨engineFrame_enter s _, by simp⟩
  · exact hashEnd_drawWindow_finish s 5 (by decide)

theorem sound_stageAbsorb (s : State) : (stageAbsorb s).Sound s := by
  simp only [stageAbsorb]
  split
  · exact ⟨.of_mem_eq rfl rfl rfl rfl rfl le_rfl rfl, by simp⟩
  · next h => exact .inl ⟨rfl, .inr (by simpa using h)⟩

theorem sound_stageSeed (s : State) : (stageSeed s).Sound s := by
  rw [stageSeed]
  exact (sound_importKey s.loadText _ _ (by decide)).after (engineFrame_loadText s)

theorem sound_fillGuard {s : State} {go : EngineResult} (h : go.Sound s) : (s.fillGuard go).Sound s := by
  rw [State.fillGuard]
  cases ha : s.scratchAdmitted
  · exact .inl ⟨rfl, .inl ha⟩
  · cases ht : s.tablesReady
    · exact .inr ⟨rfl, ht⟩
    · exact h

theorem sound_tableGuard {s : State} {go : EngineResult} (h : go.Sound s) : (s.tableGuard go).Sound s := by
  simp only [State.tableGuard]
  split
  · exact h
  · next h => exact .inr ⟨rfl, by simpa using h⟩

theorem sound_stageFill (s : State) : (stageFill s).Sound s := by
  rw [stageFill]
  exact sound_fillGuard (sound_more ((EngineFrame.iterate engineFrame_fillBlock _ s).trans (engineFrame_enter _ _)) (by simp))

theorem sound_stageMix (s : State) : (stageMix s).Sound s := by
  rw [stageMix]
  exact sound_tableGuard (sound_more ((EngineFrame.iterate engineFrame_mixIteration _ s).trans (engineFrame_enter _ _)) (by simp))

theorem sound_stageFold (s : State) : (stageFold s).Sound s := by
  rw [stageFold]
  exact sound_tableGuard (sound_more ((EngineFrame.iterate engineFrame_foldBlock _ s).trans (engineFrame_enter _ _)) (by simp))

theorem sound_stageRekey (s : State) : (stageRekey s).Sound s := by
  rw [stageRekey]
  exact (sound_importKey s.loadText _ _ (by decide)).after (engineFrame_loadText s)

theorem sound_stageWriteBack (c : HashKind) (s : State) : (stageWriteBack c s).Sound s := by
  have h : EngineFrame s { s with sponge := splice s.sponge 64 (textBytes s.text) } :=
    .of_mem_eq rfl rfl rfl rfl rfl le_rfl rfl
  cases c
  · exact HashEnd.after h (hashEnd_endHash _ 0 (by decide))
  · exact ⟨h.trans (engineFrame_enter _ _), by simp⟩

theorem sound_stageFinalize (s : State) : (stageFinalize s).Sound s := by
  simp only [stageFinalize, EngineResult.Sound]
  generalize Config.permute s.sponge = p
  generalize Config.finisher (finisherSelector p) p 200 = d
  have h := hashEnd_endHash { s with sponge := p, digest := d } 0 (by decide)
  refine ⟨?_, h.status, h.phase, h.seq, h.wf, h.outside⟩
  have hr := h.regs
  rw [onlyHashEffects_iff] at *
  exact hr

/-- A micro-step of a hash command is sound. The stage `g` must not be the last turn's own. -/
theorem sound_tickFill (s : State) (h : s.seq.stage = .fill) : (tickFill s).Sound s := by
  rw [tickFill]
  refine sound_fillGuard ?_
  split
  · split
    · refine ⟨engineFrame_fillBlock s, ?_⟩
      rw [State.fillBlock_seq, Sequencer.nextBlock]
      split <;> simp [h]
    · exact ⟨(engineFrame_fillBlock s).trans (engineFrame_enter _ _), by simp⟩
  · exact ⟨engineFrame_enter _ _, by simp⟩

theorem sound_tickMix (s : State) (h : s.seq.stage = .mix) : (tickMix s).Sound s := by
  rw [tickMix]
  refine sound_tableGuard ?_
  split
  · split
    · exact ⟨engineFrame_mixIteration s, by rw [State.mixIteration_seq]; simp [h]⟩
    · exact ⟨(engineFrame_mixIteration s).trans (engineFrame_enter _ _), by simp⟩
  · exact ⟨engineFrame_enter _ _, by simp⟩

theorem sound_tickFold (s : State) (h : s.seq.stage = .fold) : (tickFold s).Sound s := by
  rw [tickFold]
  refine sound_tableGuard ?_
  split
  · split
    · refine ⟨engineFrame_foldBlock s, ?_⟩
      rw [State.foldBlock_seq, Sequencer.nextBlock]
      split <;> simp [h]
    · exact ⟨(engineFrame_foldBlock s).trans (engineFrame_enter _ _), by simp⟩
  · exact ⟨engineFrame_enter _ _, by simp⟩

/-- Every micro-step of a hash command is sound. -/
theorem sound_engineTick (c : HashKind) (s : State) : (engineTick c s).Sound s := by
  unfold engineTick
  split
  · exact sound_stageCheck c s
  · exact sound_stageAbsorb s
  · exact sound_stageSeed s
  · next h => exact sound_tickFill s h
  · exact ⟨engineFrame_stageDerive s, by simp⟩
  · next h => exact sound_tickMix s h
  · exact sound_stageRekey s
  · next h => exact sound_tickFold s h
  · exact sound_stageWriteBack c s
  · exact sound_stageFinalize s

theorem sound_runFinalize (s : State) : RestSound s (runFinalize s) := by
  rw [runFinalize, EngineResult.outcome]
  have h := sound_stageFinalize s
  rw [stageFinalize] at *
  exact h

theorem sound_runWriteBack (c : HashKind) (s : State) : RestSound s (runWriteBack c s) := by
  rw [runWriteBack]
  exact (sound_stageWriteBack c s).andThen fun t _ => sound_runFinalize t

theorem sound_runFold (c : HashKind) (s : State) : RestSound s (runFold c s) := by
  rw [runFold]
  exact (sound_stageFold s).andThen fun t _ => sound_runWriteBack c t

theorem sound_runRekey (c : HashKind) (s : State) : RestSound s (runRekey c s) := by
  rw [runRekey]
  exact (sound_stageRekey s).andThen fun t _ => sound_runFold c t

theorem sound_runMix (c : HashKind) (s : State) : RestSound s (runMix c s) := by
  rw [runMix]
  exact (sound_stageMix s).andThen fun t _ => sound_runRekey c t

theorem sound_runDerive (c : HashKind) (s : State) : RestSound s (runDerive c s) := by
  rw [runDerive]
  exact (sound_runMix c (stageDerive s)).after (engineFrame_stageDerive s)

theorem sound_runFill (c : HashKind) (s : State) : RestSound s (runFill c s) := by
  rw [runFill]
  exact (sound_stageFill s).andThen fun t _ => sound_runDerive c t

theorem sound_runSeed (c : HashKind) (s : State) : RestSound s (runSeed c s) := by
  rw [runSeed]
  exact (sound_stageSeed s).andThen fun t _ => sound_runFill c t

theorem sound_runAbsorb (c : HashKind) (s : State) : RestSound s (runAbsorb c s) := by
  rw [runAbsorb]
  exact (sound_stageAbsorb s).andThen fun t _ => sound_runSeed c t

theorem sound_runCheck (c : HashKind) (s : State) : RestSound s (runCheck c s) := by
  unfold runCheck
  exact (sound_stageCheck c s).andThen fun t _ => by
    cases c
    · exact sound_runSeed _ t
    · exact sound_runAbsorb _ t

/-- The rest of a hash command is sound, from every state. -/
theorem sound_engineRun (c : HashKind) (s : State) : RestSound s (engineRun c s) := by
  unfold engineRun
  split
  · exact sound_runCheck c s
  · exact sound_runAbsorb c s
  · exact sound_runSeed c s
  · exact sound_runFill c s
  · exact sound_runDerive c s
  · exact sound_runMix c s
  · exact sound_runRekey c s
  · exact sound_runFold c s
  · exact sound_runWriteBack c s
  · exact sound_runFinalize s

end Sys2Proof.Machine
end

