-- ==== Sys2Proof/Laws/Step.lean ====
section
/-! SUPPORT. Everything a step can do, said once: one inversion lemma for the step, one for each agent's move and for each
shared operation behind it. Proofs about every step cite these and unfold no agent. -/

namespace Sys2Proof.Machine

/-- A step with a next state: the block moves, or the oldest event happens. -/
theorem step_cases {s t : State} (h : step s = .next t) :
    s.fault = none ∧
      ((s.events = [] ∧ s.phase = .idle ∧ t = s) ∨
        (s.events = [] ∧ s.phase = .run ∧ s.runCommand = .next t) ∨
        (s.events = [] ∧ s.phase = .tcfill ∧ t = s.populate) ∨
        ∃ ev rest, s.events = ev :: rest ∧ State.eventStep { s with events := rest } ev = .next t) := by
  cases hf : s.fault with
  | some f => simp [step, hf] at h
  | none =>
    refine ⟨rfl, ?_⟩
    cases he : s.events with
    | cons ev rest => exact .inr (.inr (.inr ⟨ev, rest, rfl, by simpa [step, hf, he] using h⟩))
    | nil =>
      simp only [step, hf, he, State.blockStep] at h
      cases hp : s.phase with
      | idle => simp only [hp, Host.Outcome.next.injEq] at h; exact .inl ⟨rfl, rfl, h.symm⟩
      | run => simp only [hp] at h; exact .inr (.inl ⟨rfl, rfl, h⟩)
      | tcfill =>
        simp only [hp, Host.Outcome.next.injEq] at h
        exact .inr (.inr (.inl ⟨rfl, rfl, h.symm⟩))

/-- An operand write changes one operand register, to some value. -/
theorem writeOperand_cases (s : State) (v : Word) (r : Reg) :
    s.writeOperand v r = s ∨ (∃ x, s.writeOperand v r = { s with dataAddr := x }) ∨
      (∃ x, s.writeOperand v r = { s with dataLen := x }) ∨ (∃ x, s.writeOperand v r = { s with scratchAddr := x }) ∨
      (∃ x, s.writeOperand v r = { s with key := x }) ∨ (∃ x, s.writeOperand v r = { s with din := x }) ∨
      (∃ x, s.writeOperand v r = { s with rkey := x }) ∨ ∃ x, s.writeOperand v r = { s with stateBuf := x } := by
  cases r with
  | dataAddrLo => exact .inr (.inl ⟨_, rfl⟩)
  | dataAddrHi => exact .inr (.inl ⟨_, rfl⟩)
  | dataLenLo => exact .inr (.inr (.inl ⟨_, rfl⟩))
  | dataLenHi => exact .inr (.inr (.inl ⟨_, rfl⟩))
  | scratchAddrLo => exact .inr (.inr (.inr (.inl ⟨_, rfl⟩)))
  | scratchAddrHi => exact .inr (.inr (.inr (.inl ⟨_, rfl⟩)))
  | key _ => exact .inr (.inr (.inr (.inr (.inl ⟨_, rfl⟩))))
  | din _ => exact .inr (.inr (.inr (.inr (.inr (.inl ⟨_, rfl⟩)))))
  | rkey _ => exact .inr (.inr (.inr (.inr (.inr (.inr (.inl ⟨_, rfl⟩))))))
  | state _ => exact .inr (.inr (.inr (.inr (.inr (.inr (.inr (⟨_, rfl⟩)))))))
  | id => exact .inl rfl
  | cap => exact .inl rfl
  | ctrl => exact .inl rfl
  | status => exact .inl rfl
  | cmd => exact .inl rfl
  | rounds => exact .inl rfl
  | dout _ => exact .inl rfl
  | digest _ => exact .inl rfl
  | reserved => exact .inl rfl

/-- A command request: lost, held, refused as Illegal at once, or running. -/
theorem commandRequest_cases (s : State) (v : Word) :
    (s.status.busy = true ∧ s.commandRequest v = { s with status := s.status.overrun }) ∨
      (s.status.busy = false ∧ s.phase = .tcfill ∧
        s.commandRequest v =
          { s with cmdl := v, status := s.status.accepted, seq := .start, heldMem := some s.mem }) ∨
      (s.status.busy = false ∧ s.phase ≠ .tcfill ∧ (∃ e, decode v = .error e) ∧
        s.commandRequest v =
          { s with cmdl := v, status := s.status.accepted.finished 3, phase := .idle, seq := .start, heldMem := none }) ∨
      (s.status.busy = false ∧ s.phase ≠ .tcfill ∧ (∃ i, decode v = .ok i) ∧
        s.commandRequest v =
          { s with cmdl := v, status := s.status.accepted, phase := .run, seq := .start, heldMem := none }) := by
  cases hb : s.status.busy
  · by_cases hp : s.phase = .tcfill
    · exact .inr (.inl ⟨rfl, hp, by simp [State.commandRequest, hb, hp]⟩)
    · cases hd : decode v with
      | error e => exact .inr (.inr (.inl ⟨rfl, hp, ⟨e, rfl⟩, by simp [State.commandRequest, hb, hp, hd, State.finish]⟩))
      | ok i => exact .inr (.inr (.inr ⟨rfl, hp, ⟨i, rfl⟩, by simp [State.commandRequest, hb, hp, hd]⟩))
  · exact .inl ⟨rfl, by simp [State.commandRequest, hb]⟩

/-- A register write: CTRL, STATUS, CMD, a lost operand write, an operand write, or nothing. -/
theorem writeReg_cases (s : State) (r : Reg) (v : Word) :
    s.writeReg r v = { s with irqEn := v.getLsbD 0 } ∨ s.writeReg r v = { s with status := s.status.clearedBy v } ∨
      s.writeReg r v = s.commandRequest v ∨
      (s.status.busy = true ∧ s.writeReg r v = { s with status := s.status.overrun }) ∨
      (s.status.busy = false ∧ s.writeReg r v = s.writeOperand v r) ∨ s.writeReg r v = s := by
  cases r <;> simp only [State.writeReg, Reg.isOperand] <;> cases hb : s.status.busy <;> simp

/-- A bus read changes nothing but the response. -/
theorem busRead_cases {s t : State} {addr : BitVec 64} {width : Nat} (h : s.busRead addr width = .next t) :
    ∃ r, t = { s with response := some r } := by
  simp only [State.busRead] at h
  split at h
  · split at h
    · cases h; exact ⟨_, rfl⟩
    · cases h
  · split at h
    · cases h
    · cases h; exact ⟨_, rfl⟩

/-- A bus write writes a register, or bytes of memory where nothing forbids it. -/
theorem busWrite_cases {s t : State} {addr : BitVec 64} {data : List Byte} (h : s.busWrite addr data = .next t) :
    (∃ r v, t = s.writeReg r v) ∨
      (s.accessFault addr data.length true = none ∧ t = { s with mem := s.mem.writeBytes addr data }) := by
  simp only [State.busWrite] at h
  split at h
  · split at h
    · cases h; exact .inl ⟨_, _, rfl⟩
    · cases h
  · split at h
    · cases h
    · next hn => cases h; exact .inr ⟨hn, rfl⟩

/-- A lane copies an entry of its share in TCFILL, arrives in TCFILL with its share copied, or does nothing. -/
theorem laneStep_cases {s t : State} {l : Nat} {action : LaneAction} (h : s.laneStep l action = .next t) :
    t = s ∨
      (s.hasLane l = true ∧ s.phase = .tcfill ∧ s.arrived l = false ∧ ∃ tab e, laneShare s.platform l tab e = true ∧
        t = { s with tc := copySlots (fun t' e' => t' == tab && e' == e) rom s.tc }) ∨
      (s.hasLane l = true ∧ s.phase = .tcfill ∧ s.shareCopied l = true ∧
        t = { s with tcArrived := s.tcArrived.set l true }) := by
  simp only [State.laneStep] at h
  cases hl : s.hasLane l
  · rw [hl, if_neg (by simp)] at h
    cases h
    exact .inl rfl
  · rw [hl, if_pos rfl] at h
    cases action with
    | copy tab e =>
      simp only [Host.Outcome.next.injEq] at h
      subst h
      split
      · next hc => exact .inr (.inl ⟨rfl, hc.1, hc.2.1, tab, e, hc.2.2, rfl⟩)
      · exact .inl rfl
    | arrive =>
      simp only [Host.Outcome.next.injEq] at h
      subst h
      split
      · next hc => exact .inr (.inr ⟨rfl, hc.1, hc.2, rfl⟩)
      · exact .inl rfl
    | lookup tab e =>
      simp only at h
      split at h
      · cases h
      · cases h; exact .inl rfl

/-- The release: enabled in TCFILL once every lane has arrived. -/
theorem release_cases (s : State) :
    s.release = s ∨ (s.phase = .tcfill ∧ s.allArrived = true ∧
      s.release = { s with tcValid := true, phase := if s.status.busy then .run else .idle }) := by
  simp only [State.release]
  split
  · next h => exact .inr ⟨h.1, h.2, rfl⟩
  · exact .inl rfl

/-- Population with no event pending: the first lane that has not arrived does all its work, or the release. -/
theorem populate_cases (s : State) :
    (∃ l, l < s.platform.groupLanes ∧ s.arrived l = false ∧
      s.populate = { s with
        tc := copySlots (laneShare s.platform l) rom s.tc
        tcArrived := s.tcArrived.set l true }) ∨ s.populate = s.release := by
  simp only [State.populate]
  split
  · next l h =>
    have hm := List.mem_of_find?_eq_some h
    have hp := List.find?_some h
    exact .inl ⟨l, List.mem_range.mp hm, by simpa using hp, rfl⟩
  · exact .inr rfl

/-- What an event does to the state it finds, its own entry already taken from the queue. -/
theorem eventStep_cases {s t : State} {ev : Event} (h : s.eventStep ev = .next t) :
    (∃ addr n r, ev = .hostRead addr n ∧ t = { s with response := some r }) ∨
      (∃ addr data, ev = .hostWrite addr data ∧ s.busWrite addr data = .next t) ∨
      (ev = .sequencer ∧ s.phase = .run ∧ s.tickCommand = .next t) ∨
      (ev = .sequencer ∧ s.phase ≠ .run ∧ t = s) ∨
      (∃ l action, ev = .lane l action ∧ s.laneStep l action = .next t) ∨
      (ev = .barrier ∧ t = s.release) ∨ (ev = .reset ∧ t = s.resetBlock) := by
  cases ev with
  | hostRead addr n =>
    obtain ⟨r, hr⟩ := busRead_cases h
    exact .inl ⟨addr, n, r, rfl, hr⟩
  | hostWrite addr data => exact .inr (.inl ⟨addr, data, rfl, h⟩)
  | sequencer =>
    simp only [State.eventStep, State.sequencerStep] at h
    cases hp : s.phase with
    | idle =>
      simp only [hp, Host.Outcome.next.injEq] at h
      exact .inr (.inr (.inr (.inl ⟨rfl, by simp, h.symm⟩)))
    | run => simp only [hp] at h; exact .inr (.inr (.inl ⟨rfl, rfl, h⟩))
    | tcfill =>
      simp only [hp, Host.Outcome.next.injEq] at h
      exact .inr (.inr (.inr (.inl ⟨rfl, by simp, h.symm⟩)))
  | lane l action => exact .inr (.inr (.inr (.inr (.inl ⟨l, action, rfl, h⟩))))
  | barrier =>
    simp only [State.eventStep, Host.Outcome.next.injEq] at h
    exact .inr (.inr (.inr (.inr (.inr (.inl ⟨rfl, h.symm⟩)))))
  | reset =>
    simp only [State.eventStep, Host.Outcome.next.injEq] at h
    exact .inr (.inr (.inr (.inr (.inr (.inr ⟨rfl, h.symm⟩)))))

end Sys2Proof.Machine
end

