-- ==== Sys2Proof/Laws/Commands.lean ====
section
/-! SUPPORT. Everything a command can do, said once: the inversion of `exec`, of a running command, and of a micro-step. -/

namespace Sys2Proof.Machine

/-- How `exec` reaches a next state, by kind of command. -/
theorem exec_cases {i : Instr} {s t : State} (h : exec i s = .next t) :
    (∃ k bits, i = .setkeyEnc k ∧ keyBits k = some bits ∧ s.tablesReady = true ∧
        t = (s.setEncryptKey bits).releaseKeyLatch.finish 0) ∨
      (∃ k bits, i = .setkeyDec k ∧ keyBits k = some bits ∧ s.tablesReady = true ∧
        t = ((s.setEncryptKey bits).setDecryptKey bits).releaseKeyLatch.finish 0) ∨
      (∃ x : Block, (i = .encrypt ∨ i = .decrypt ∨ i = .aesRound) ∧
        t = { s with bsave := s.din, dout := x }.releaseBlockLatch.finish 0) ∨
      (∃ err : BitVec 4, err.toNat ≤ 5 ∧ hashKind i = none ∧ t = s.finish err) ∨
      ∃ c, i = HashKind.instr c ∧ HashEnd s t := by
  have hd : ∀ {f}, s.writeDout f = .next t → ∃ x : Block, t = { s with bsave := s.din, dout := x }.releaseBlockLatch.finish 0 := by
    intro f hf
    simp only [State.writeDout] at hf
    split at hf
    · cases hf; exact ⟨_, rfl⟩
    · cases hf
  have hh : ∀ c, engineRun c (s.enter .check) = .next t → HashEnd s t := by
    intro c hc
    have := (sound_engineRun c (s.enter .check)).after (engineFrame_enter s .check)
    rw [hc] at this
    exact this
  cases i with
  | nop => cases h; exact .inr (.inr (.inr (.inl ⟨0, by decide, rfl, rfl⟩)))
  | setkeyEnc k =>
    simp only [exec, execSetkeyEnc] at h
    split at h
    · cases h; exact .inr (.inr (.inr (.inl ⟨1, by decide, rfl, rfl⟩)))
    · next bits hk =>
      split at h
      · next ht => cases h; exact .inl ⟨k, bits, rfl, hk, ht, rfl⟩
      · cases h
  | setkeyDec k =>
    simp only [exec, execSetkeyDec] at h
    split at h
    · cases h; exact .inr (.inr (.inr (.inl ⟨1, by decide, rfl, rfl⟩)))
    · next bits hk =>
      split at h
      · next ht => cases h; exact .inr (.inl ⟨k, bits, rfl, hk, ht, rfl⟩)
      · cases h
  | encrypt =>
    simp only [exec, execEncrypt] at h
    split at h
    · obtain ⟨x, hx⟩ := hd h; exact .inr (.inr (.inl ⟨x, .inl rfl, hx⟩))
    · cases h; exact .inr (.inr (.inr (.inl ⟨4, by decide, rfl, rfl⟩)))
  | decrypt =>
    simp only [exec, execDecrypt] at h
    split at h
    · obtain ⟨x, hx⟩ := hd h; exact .inr (.inr (.inl ⟨x, .inr (.inl rfl), hx⟩))
    · cases h; exact .inr (.inr (.inr (.inl ⟨4, by decide, rfl, rfl⟩)))
  | aesRound =>
    simp only [exec, execAesRound] at h
    obtain ⟨x, hx⟩ := hd h
    exact .inr (.inr (.inl ⟨x, .inr (.inr rfl), hx⟩))
  | hashCore => exact .inr (.inr (.inr (.inr ⟨.core, rfl, hh .core (by simpa only [exec, execHashCore] using h)⟩)))
  | hash => exact .inr (.inr (.inr (.inr ⟨.full, rfl, hh .full (by simpa only [exec, execHash] using h)⟩)))

/-- An instruction with a hash kind is that hash command. -/
theorem hashKind_eq_some {i : Instr} {c : HashKind} (h : hashKind i = some c) : i = c.instr := by
  cases i <;> simp only [hashKind, reduceCtorEq, Option.some.injEq] at h <;> subst h <;> rfl

@[simp] theorem hashKind_instr (c : HashKind) : hashKind c.instr = some c := by cases c <;> rfl

/-- How a running command reaches its end: an Illegal word, its own meaning, or the rest of a hash command. -/
theorem runCommand_cases {s t : State} (h : s.runCommand = .next t) :
    ((∃ e, decode s.cmdl = .error e) ∧ t = s.finish 3) ∨
      (∃ i, decode s.cmdl = .ok i ∧ (s.seq.stage = .check ∨ hashKind i = none) ∧ exec i s = .next t) ∨
      ∃ c, decode s.cmdl = .ok (HashKind.instr c) ∧ s.seq.stage ≠ .check ∧ engineRun c s = .next t ∧ HashEnd s t := by
  simp only [State.runCommand] at h
  split at h
  · next e he => cases h; exact .inl ⟨⟨e, he⟩, rfl⟩
  · next i hi =>
    split at h
    · next hg => exact .inr (.inl ⟨i, hi, .inl hg, h⟩)
    · next hg =>
      split at h
      · next c hc =>
        have hs := sound_engineRun c s
        rw [h] at hs
        exact .inr (.inr ⟨c, hashKind_eq_some hc ▸ hi, hg, h, hs⟩)
      · next hn => exact .inr (.inl ⟨i, hi, .inr hn, h⟩)

/-- What a micro-step does: an Illegal word, a whole command that is no hash command, or a part of a hash command. -/
theorem tickCommand_cases {s t : State} (h : s.tickCommand = .next t) :
    ((∃ e, decode s.cmdl = .error e) ∧ t = s.finish 3) ∨
      (∃ i, decode s.cmdl = .ok i ∧ hashKind i = none ∧ exec i s = .next t) ∨
      (∃ c, decode s.cmdl = .ok (HashKind.instr c) ∧ engineTick c s = .more t ∧ EngineFrame s t ∧ t.seq.stage ≠ .check) ∨
      ∃ c, decode s.cmdl = .ok (HashKind.instr c) ∧ engineTick c s = .ended t ∧ HashEnd s t := by
  simp only [State.tickCommand] at h
  split at h
  · next e he => cases h; exact .inl ⟨⟨e, he⟩, rfl⟩
  · next i hi =>
    split at h
    · next c hc =>
      have hs := sound_engineTick c s
      have hi' := hashKind_eq_some hc ▸ hi
      cases hr : engineTick c s with
      | more u =>
        rw [hr] at h hs
        cases h
        exact .inr (.inr (.inl ⟨c, hi', hr, hs.1, hs.2⟩))
      | ended u =>
        rw [hr] at h hs
        cases h
        exact .inr (.inr (.inr ⟨c, hi', hr, hs⟩))
      | fault f => rw [hr] at h; cases h
    · next hn => exact .inr (.inl ⟨i, hi, hn, h⟩)

/-- The latched command, as the windows' rules name it (R87). -/
theorem latched_of_decode {s : State} {i : Instr} (h : decode s.cmdl = .ok i) : s.latched = some i := by
  simp only [State.latched, h]

theorem latchedHash_of_decode {s : State} {c : HashKind} (h : decode s.cmdl = .ok c.instr) : s.latchedHash = true := by
  simp only [State.latchedHash, latched_of_decode h]
  cases c <;> rfl

end Sys2Proof.Machine
end

