-- ==== Sys2Proof/Laws/Decode.lean ====
section
/-! SUPPORT. The command word and its fields are the same 32 bits (30_encoding.md R104). -/

namespace Sys2Proof

/-- The fields of a word made of fields. -/
@[simp] theorem splitWord_joinWord (f : CommandFields) : splitWord (joinWord f) = f := by
  cases f with
  | mk opc ksz rsv =>
    simp only [splitWord, joinWord, CommandFields.mk.injEq]
    refine ⟨?_, ?_, ?_⟩ <;>
      (apply BitVec.eq_of_getLsbD_eq
       intro i hi
       simp only [BitVec.getLsbD_extractLsb', BitVec.getLsbD_append, hi, decide_true, Bool.true_and])
    · simp [hi]
    · simp [hi, show ¬ 8 + i < 8 by omega]
    · simp [show ¬ 10 + i < 8 by omega, show ¬ 10 + i - 8 < 2 by omega, show 10 + i - 8 - 2 = i by omega]

/-- The word made of a word's fields. -/
@[simp] theorem joinWord_splitWord (w : Word) : joinWord (splitWord w) = w := by
  apply BitVec.eq_of_getLsbD_eq
  intro i hi
  simp only [splitWord, joinWord, BitVec.getLsbD_append, BitVec.getLsbD_extractLsb']
  by_cases h0 : i < 8
  · simp [h0]
  · by_cases h1 : i - 8 < 2
    · simp [h0, h1, show 8 + (i - 8) = i by omega]
    · simp [h0, h1, show 10 + (i - 8 - 2) = i by omega, show i - 8 - 2 < 22 by omega]

end Sys2Proof
end

