-- ==== Sys2Proof/Laws/KeySchedule.lean ====
section
/-! SUPPORT. Key expansion word by word (41_aes_key_schedule.md R170, R171, R173, R174). -/

namespace Sys2Proof.Machine

theorem length_extendSchedule (T : LookupTables) (nk count : Nat) (w : List Word) :
    (extendSchedule T nk count w).length = w.length + count := by
  induction count generalizing w with
  | zero => rfl
  | succ n ih => simp only [extendSchedule, ih, List.length_append, List.length_singleton]; omega

/-- A word that is there stays. -/
theorem getD_extendSchedule_old (T : LookupTables) (nk count : Nat) (w : List Word) {i : Nat} (h : i < w.length) :
    (extendSchedule T nk count w).getD i 0 = w.getD i 0 := by
  induction count generalizing w with
  | zero => rfl
  | succ n ih =>
    rw [extendSchedule, ih _ (by simp; omega)]
    simp [List.getD_eq_getElem?_getD, List.getElem?_append_left h]

/-- The word that R170 appends at index `i`, from the words before it. -/
def scheduleStep (T : LookupTables) (nk i : Nat) (w : Nat → Word) : Word :=
  w (i - nk) ^^^
    (if i % nk = 0 then subRotWord T (w (i - 1)) ^^^ T.rcon[i / nk - 1]?.getD 0
     else if nk = 8 ∧ i % 8 = 4 then subWordOnly T (w (i - 1))
     else w (i - 1))

theorem nextScheduleWord_eq (T : LookupTables) (nk : Nat) (w : List Word) :
    nextScheduleWord T nk w = scheduleStep T nk w.length fun i => w.getD i 0 := rfl

theorem scheduleStep_congr (T : LookupTables) {nk i : Nat} {v w : Nat → Word} (h1 : v (i - nk) = w (i - nk))
    (h2 : v (i - 1) = w (i - 1)) : scheduleStep T nk i v = scheduleStep T nk i w := by
  simp only [scheduleStep, h1, h2]

/-- Every appended word follows the recurrence. -/
theorem getD_extendSchedule_new (T : LookupTables) {nk : Nat} (hnk : 0 < nk) (count : Nat) (w : List Word) (hw : 0 < w.length)
    {i : Nat} (h1 : w.length ≤ i) (h2 : i < w.length + count) :
    (extendSchedule T nk count w).getD i 0 =
      scheduleStep T nk i fun j => (extendSchedule T nk count w).getD j 0 := by
  induction count generalizing w with
  | zero => omega
  | succ n ih =>
    rw [extendSchedule]
    by_cases hi : i = w.length
    · subst hi
      have hlen : w.length < (w ++ [nextScheduleWord T nk w]).length := by simp
      rw [getD_extendSchedule_old _ _ _ _ hlen]
      have hnew : (w ++ [nextScheduleWord T nk w]).getD w.length 0 = nextScheduleWord T nk w := by
        simp [List.getD_eq_getElem?_getD]
      rw [hnew, nextScheduleWord_eq]
      have hold : ∀ j, j < w.length →
          w.getD j 0 = (extendSchedule T nk n (w ++ [nextScheduleWord T nk w])).getD j 0 := by
        intro j hj
        rw [getD_extendSchedule_old _ _ _ _ (by simp; omega)]
        simp [List.getD_eq_getElem?_getD, List.getElem?_append_left hj]
      exact scheduleStep_congr T (hold _ (by omega)) (hold _ (by omega))
    · exact ih _ (by simp) (by simp; omega) (by simp; omega)

/-- Key sizes, as R170 lists them. -/
def isKeySize (bits : Nat) : Prop := bits = 128 ∨ bits = 192 ∨ bits = 256

/-- The number of words of a schedule (R171). -/
theorem length_keyExpansion (T : LookupTables) (key : Bytes 32) {bits : Nat} (h : isKeySize bits) :
    (keyExpansion T key bits).length = 4 * (roundsOf bits + 1) := by
  rcases h with rfl | rfl | rfl <;> simp [keyExpansion, length_extendSchedule, roundsOf]

/-- The first words of a schedule are the key's. -/
theorem getD_keyExpansion_key (T : LookupTables) (key : Bytes 32) (bits : Nat) {i : Nat} (h : i < bits / 32) :
    (keyExpansion T key bits).getD i 0 = keyWord key i := by
  rw [keyExpansion, getD_extendSchedule_old _ _ _ _ (by simpa using h)]
  simp [List.getD_eq_getElem?_getD, h]

/-- The later words follow R170's recurrence. -/
theorem getD_keyExpansion_step (T : LookupTables) (key : Bytes 32) {bits : Nat} (h : isKeySize bits) {i : Nat}
    (h1 : bits / 32 ≤ i) (h2 : i < 4 * (roundsOf bits + 1)) :
    (keyExpansion T key bits).getD i 0 =
      scheduleStep T (bits / 32) i fun j => (keyExpansion T key bits).getD j 0 := by
  rw [keyExpansion]
  apply getD_extendSchedule_new
  · rcases h with rfl | rfl | rfl <;> decide
  · rcases h with rfl | rfl | rfl <;> simp
  · simpa using h1
  · rcases h with rfl | rfl | rfl <;> simp [roundsOf] at h2 ⊢ <;> omega

/-- A stored schedule word by word. -/
theorem scheduleWord_storeSchedule (w : List Word) (above : Nat → Word) {i : Nat} (h : i < w.length) (h60 : i < 60) :
    scheduleWord (storeSchedule w above) i = w.getD i 0 := by
  simp [scheduleWord, storeSchedule, h60, List.getElem?_eq_getElem h, List.getD_eq_getElem?_getD]

/-- A word of the reversed schedule (R173). -/
theorem getD_reverseRoundKeys (w : List Word) (nr : Nat) {r c : Nat} (hr : r ≤ nr) (hc : c < 4) :
    (reverseRoundKeys w nr).getD (4 * r + c) 0 = w.getD (4 * (nr - r) + c) 0 := by
  have h1 : 4 * r + c < 4 * (nr + 1) := by omega
  have h2 : (4 * r + c) / 4 = r := by omega
  have h3 : (4 * r + c) % 4 = c := by omega
  simp [reverseRoundKeys, List.getD_eq_getElem?_getD, h1, h2, h3]

theorem length_deriveDecrypt (T : LookupTables) (w : List Word) (nr : Nat) :
    (deriveDecrypt T w nr).length = 4 * (nr + 1) := by
  simp [deriveDecrypt]

/-- A word of the decryption schedule (R174). -/
theorem getD_deriveDecrypt (T : LookupTables) (w : List Word) (nr : Nat) {r c : Nat} (hr : r ≤ nr) (hc : c < 4) :
    (deriveDecrypt T w nr).getD (4 * r + c) 0 =
      if 1 ≤ r ∧ r < nr then invMixWord T (w.getD (4 * (nr - r) + c) 0) else w.getD (4 * (nr - r) + c) 0 := by
  have h1 : 4 * r + c < 4 * (nr + 1) := by omega
  have h2 : (4 * r + c) / 4 = r := by omega
  rw [← getD_reverseRoundKeys w nr hr hc]
  simp [deriveDecrypt, List.getD_eq_getElem?_getD, h1, h2]

end Sys2Proof.Machine
end

