-- ==== Sys2Proof/Laws/Moves.lean ====
section
/-! SUPPORT. Every way a step can change the state, as one inductive predicate: a proof about every step takes `cases` of
`Move` and unfolds nothing. -/

namespace Sys2Proof.Machine

/-- The ways to change the state in one step, with the event that did it, none where the queue is empty. -/
inductive Move (s : State) : Option Event → State → Prop
  /-- No step is enabled, or a write is ignored. -/
  | stay {ev} : Move s ev s
  /-- A read. -/
  | respond {ev} (r : Response) : Move s ev { s with response := some r }
  /-- The latched word is Illegal. -/
  | illegal {ev} {e : DecodeError} (hp : s.phase = .run) (hd : decode s.cmdl = .error e) : Move s ev (s.finish 3)
  /-- A command that only finishes: NOP, or an error. -/
  | ended {ev} {i : Instr} (err : BitVec 4) (hp : s.phase = .run) (hd : decode s.cmdl = .ok i) (hi : hashKind i = none)
      (he : err.toNat ≤ 5) : Move s ev (s.finish err)
  /-- SETKEY_ENC. -/
  | setkeyEnc {ev} {k : KeySize} {bits : Nat} (hp : s.phase = .run) (hd : decode s.cmdl = .ok (.setkeyEnc k))
      (hk : keyBits k = some bits) (ht : s.tablesReady = true) : Move s ev ((s.setEncryptKey bits).releaseKeyLatch.finish 0)
  /-- SETKEY_DEC. -/
  | setkeyDec {ev} {k : KeySize} {bits : Nat} (hp : s.phase = .run) (hd : decode s.cmdl = .ok (.setkeyDec k))
      (hk : keyBits k = some bits) (ht : s.tablesReady = true) :
      Move s ev (((s.setEncryptKey bits).setDecryptKey bits).releaseKeyLatch.finish 0)
  /-- A block command. -/
  | block {ev} {i : Instr} (x : Block) (hp : s.phase = .run) (hd : decode s.cmdl = .ok i)
      (hi : i = .encrypt ∨ i = .decrypt ∨ i = .aesRound) :
      Move s ev ({ s with bsave := s.din, dout := x }.releaseBlockLatch.finish 0)
  /-- A micro-step of a hash command after which it goes on. -/
  | hashPart {c : HashKind} {t : State} (hp : s.phase = .run) (hd : decode s.cmdl = .ok c.instr)
      (ht : engineTick c s = .more t) (hf : EngineFrame s t) (hg : t.seq.stage ≠ .check) : Move s (some .sequencer) t
  /-- The end of a hash command by a micro-step. -/
  | hashTickEnd {c : HashKind} {t : State} (hp : s.phase = .run) (hd : decode s.cmdl = .ok c.instr)
      (ht : engineTick c s = .ended t) (he : HashEnd s t) : Move s (some .sequencer) t
  /-- The whole of a hash command, from its start. -/
  | hashExec {c : HashKind} {t : State} (hp : s.phase = .run) (hd : decode s.cmdl = .ok c.instr)
      (ht : exec c.instr s = .next t) (hg : s.seq.stage = .check) (he : HashEnd s t) : Move s none t
  /-- The rest of a hash command. -/
  | hashRest {c : HashKind} {t : State} (hp : s.phase = .run) (hd : decode s.cmdl = .ok c.instr)
      (ht : engineRun c s = .next t) (hg : s.seq.stage ≠ .check) (he : HashEnd s t) : Move s none t
  /-- A lane copies one entry of its share. -/
  | copyEntry {l : Nat} {action : LaneAction} {tab : TableId} {e : Nat} (hl : s.hasLane l = true) (hp : s.phase = .tcfill)
      (ha : s.arrived l = false) (hs : laneShare s.platform l tab e = true) :
      Move s (some (.lane l action)) { s with tc := copySlots (fun t' e' => t' == tab && e' == e) rom s.tc }
  /-- A lane arrives. -/
  | arrive {l : Nat} {action : LaneAction} (hl : s.hasLane l = true) (hp : s.phase = .tcfill)
      (hs : s.shareCopied l = true) : Move s (some (.lane l action)) { s with tcArrived := s.tcArrived.set l true }
  /-- A lane copies its whole share and arrives. -/
  | copyShare {l : Nat} (hp : s.phase = .tcfill) (hl : l < s.platform.groupLanes) (ha : s.arrived l = false) :
      Move s none { s with tc := copySlots (laneShare s.platform l) rom s.tc, tcArrived := s.tcArrived.set l true }
  /-- The release of the barrier. -/
  | release {ev} (hp : s.phase = .tcfill) (ha : s.allArrived = true) :
      Move s ev { s with tcValid := true, phase := if s.status.busy then .run else .idle }
  /-- A write to CTRL. -/
  | ctrl {addr data} (v : Word) : Move s (some (.hostWrite addr data)) { s with irqEn := v.getLsbD 0 }
  /-- A write to STATUS. -/
  | status {addr data} (v : Word) : Move s (some (.hostWrite addr data)) { s with status := s.status.clearedBy v }
  /-- A lost write. -/
  | overrun {addr data} (hb : s.status.busy = true) :
      Move s (some (.hostWrite addr data)) { s with status := s.status.overrun }
  /-- A command accepted in TCFILL, to be held. -/
  | held {addr data} (v : Word) (hb : s.status.busy = false) (hp : s.phase = .tcfill) :
      Move s (some (.hostWrite addr data))
        { s with cmdl := v, status := s.status.accepted, seq := .start, heldMem := some s.mem }
  /-- An Illegal word, accepted and completed. -/
  | refusedWord {addr data} (v : Word) {e : DecodeError} (hb : s.status.busy = false) (hp : s.phase ≠ .tcfill)
      (hd : decode v = .error e) : Move s (some (.hostWrite addr data))
        { s with cmdl := v, status := s.status.accepted.finished 3, phase := .idle, seq := .start, heldMem := none }
  /-- A command accepted. -/
  | accepted {addr data} (v : Word) {i : Instr} (hb : s.status.busy = false) (hp : s.phase ≠ .tcfill)
      (hd : decode v = .ok i) : Move s (some (.hostWrite addr data))
        { s with cmdl := v, status := s.status.accepted, phase := .run, seq := .start, heldMem := none }
  /-- A write to DATA_ADDR. -/
  | dataAddr {addr data} (x : BitVec 64) (hb : s.status.busy = false) :
      Move s (some (.hostWrite addr data)) { s with dataAddr := x }
  /-- A write to DATA_LEN. -/
  | dataLen {addr data} (x : BitVec 64) (hb : s.status.busy = false) :
      Move s (some (.hostWrite addr data)) { s with dataLen := x }
  /-- A write to SCRATCH_ADDR. -/
  | scratchAddr {addr data} (x : BitVec 64) (hb : s.status.busy = false) :
      Move s (some (.hostWrite addr data)) { s with scratchAddr := x }
  /-- A write to KEY. -/
  | key {addr data} (x : Bytes 32) (hb : s.status.busy = false) : Move s (some (.hostWrite addr data)) { s with key := x }
  /-- A write to DIN. -/
  | din {addr data} (x : Block) (hb : s.status.busy = false) : Move s (some (.hostWrite addr data)) { s with din := x }
  /-- A write to RKEY. -/
  | rkey {addr data} (x : Block) (hb : s.status.busy = false) : Move s (some (.hostWrite addr data)) { s with rkey := x }
  /-- A write to STATE. -/
  | stateBuf {addr data} (x : Bytes 200) (hb : s.status.busy = false) :
      Move s (some (.hostWrite addr data)) { s with stateBuf := x }
  /-- A write to memory that meets no window of a running command. -/
  | memory {addr data} (hn : s.accessFault addr data.length true = none) :
      Move s (some (.hostWrite addr data)) { s with mem := s.mem.writeBytes addr data }
  /-- Reset. -/
  | reset : Move s (some .reset) s.resetBlock

theorem move_of_writeReg (s : State) (r : Reg) (v : Word) (addr : BitVec 64) (data : List Byte) :
    Move s (some (.hostWrite addr data)) (s.writeReg r v) := by
  obtain h | h | h | ⟨hb, h⟩ | ⟨hb, h⟩ | h := writeReg_cases s r v
  · exact h ▸ .ctrl v
  · exact h ▸ .status v
  · rw [h]
    obtain ⟨hb, h⟩ | ⟨hb, hp, h⟩ | ⟨hb, hp, ⟨e, hd⟩, h⟩ | ⟨hb, hp, ⟨i, hd⟩, h⟩ := commandRequest_cases s v <;> rw [h]
    · exact .overrun hb
    · exact .held v hb hp
    · exact .refusedWord v hb hp hd
    · exact .accepted v hb hp hd
  · exact h ▸ .overrun hb
  · rw [h]
    obtain h | ⟨x, h⟩ | ⟨x, h⟩ | ⟨x, h⟩ | ⟨x, h⟩ | ⟨x, h⟩ | ⟨x, h⟩ | ⟨x, h⟩ := writeOperand_cases s v r <;> rw [h]
    · exact .stay
    · exact .dataAddr x hb
    · exact .dataLen x hb
    · exact .scratchAddr x hb
    · exact .key x hb
    · exact .din x hb
    · exact .rkey x hb
    · exact .stateBuf x hb
  · rw [h]; exact .stay

theorem move_of_release (s : State) (ev : Option Event) : Move s ev s.release := by
  obtain h | ⟨hp, ha, h⟩ := release_cases s <;> rw [h]
  · exact .stay
  · exact .release hp ha

/-- A command that is no hash command, run from anywhere, is a move. -/
theorem move_of_exec {s t : State} {i : Instr} (ev : Option Event) (hp : s.phase = .run) (hd : decode s.cmdl = .ok i)
    (hi : hashKind i = none) (h : exec i s = .next t) : Move s ev t := by
  obtain ⟨k, bits, rfl, hk, ht, rfl⟩ | ⟨k, bits, rfl, hk, ht, rfl⟩ | ⟨x, hx, rfl⟩ | ⟨err, he, -, rfl⟩ | ⟨c, rfl, -⟩ :=
    exec_cases h
  · exact .setkeyEnc hp hd hk ht
  · exact .setkeyDec hp hd hk ht
  · exact .block x hp hd hx
  · exact .ended err hp hd hi he
  · cases c <;> cases hi

/-- Every step with a next state is a move: of the state itself where the queue is empty, else of the state with its
oldest event taken from the queue. -/
theorem step_moves {s t : State} (h : step s = .next t) :
    s.fault = none ∧
      ((s.events = [] ∧ Move s none t) ∨
        ∃ ev rest, s.events = ev :: rest ∧ Move { s with events := rest } (some ev) t) := by
  obtain ⟨hf, ⟨he, -, rfl⟩ | ⟨he, hp, h⟩ | ⟨he, hp, rfl⟩ | ⟨ev, rest, he, h⟩⟩ := step_cases h
  · exact ⟨hf, .inl ⟨he, .stay⟩⟩
  · refine ⟨hf, .inl ⟨he, ?_⟩⟩
    obtain ⟨⟨e, hd⟩, rfl⟩ | ⟨i, hd, hg, hx⟩ | ⟨c, hd, hg, hx, hh⟩ := runCommand_cases h
    · exact .illegal hp hd
    · cases hk : hashKind i with
      | none => exact move_of_exec none hp hd hk hx
      | some c =>
        have hic := hashKind_eq_some hk
        subst hic
        have hg := hg.resolve_right (by simp [hk])
        obtain ⟨k, bits, hi, -⟩ | ⟨k, bits, hi, -⟩ | ⟨x, hi, -⟩ | ⟨err, -, hi, -⟩ | ⟨c', -, hh⟩ := exec_cases hx
        · cases c <;> cases hi
        · cases c <;> cases hi
        · cases c <;> simp [HashKind.instr] at hi
        · simp at hi
        · exact .hashExec hp hd hx hg hh
    · exact .hashRest hp hd hx hg hh
  · refine ⟨hf, .inl ⟨he, ?_⟩⟩
    obtain ⟨l, hl, ha, h⟩ | h := populate_cases s <;> rw [h]
    · exact .copyShare hp hl ha
    · exact move_of_release s none
  · refine ⟨hf, .inr ⟨ev, rest, he, ?_⟩⟩
    generalize { s with events := rest } = u at h ⊢
    clear hf he
    obtain ⟨addr, n, r, rfl, rfl⟩ | ⟨addr, data, rfl, h⟩ | ⟨rfl, hp, h⟩ | ⟨rfl, -, rfl⟩ | ⟨l, action, rfl, h⟩ |
      ⟨rfl, rfl⟩ | ⟨rfl, rfl⟩ := eventStep_cases h
    · exact .respond r
    · obtain ⟨r, v, rfl⟩ | ⟨hn, rfl⟩ := busWrite_cases h
      · exact move_of_writeReg u r v addr data
      · exact .memory hn
    · obtain ⟨⟨e, hd⟩, rfl⟩ | ⟨i, hd, hi, hx⟩ | ⟨c, hd, ht, hf, hg⟩ | ⟨c, hd, ht, hh⟩ := tickCommand_cases h
      · exact .illegal hp hd
      · exact move_of_exec _ hp hd hi hx
      · exact .hashPart hp hd ht hf hg
      · exact .hashTickEnd hp hd ht hh
    · exact .stay
    · obtain rfl | ⟨hl, hp, ha, tab, e, hs, rfl⟩ | ⟨hl, hp, hs, rfl⟩ := laneStep_cases h
      · exact .stay
      · exact .copyEntry hl hp ha hs
      · exact .arrive hl hp hs
    · exact move_of_release u _
    · exact .reset

end Sys2Proof.Machine
end

