-- ==== Sys2Proof/Laws/PerInstr.lean ====
section
/-! SUPPORT. What holds of every command as syntax: its fields are a legal command word (30_encoding.md R110), with
the opcode of its row and nothing in the reserved bits of the word (R104, R113). -/

namespace Sys2Proof.Laws.LegalFields

/-- The command is well formed, its word's reserved bits are 0, and its opcode is one of the eight. -/
def Statement (i : Instr) : Prop :=
  i.wellFormed = true ∧ (encode i).extractLsb' 10 22 = 0 ∧ ((encode i).extractLsb' 0 8).toNat < 8

theorem nop : Statement .nop := by unfold Statement; decide

theorem setkeyEnc (ksz : KeySize) : Statement (.setkeyEnc ksz) := by unfold Statement; cases ksz <;> decide

theorem setkeyDec (ksz : KeySize) : Statement (.setkeyDec ksz) := by unfold Statement; cases ksz <;> decide

theorem encrypt : Statement .encrypt := by unfold Statement; decide

theorem decrypt : Statement .decrypt := by unfold Statement; decide

theorem aesRound : Statement .aesRound := by unfold Statement; decide

theorem hashCore : Statement .hashCore := by unfold Statement; decide

theorem hash : Statement .hash := by unfold Statement; decide

end Sys2Proof.Laws.LegalFields
end

