-- ==== Sys2Proof/Laws/TableCache.lean ====
section
/-! SUPPORT. The table cache slot by slot: what copying does to a slot, tables with equal slots are equal, and a share is
copied when its slots are the ROM's (R61, R90). -/

namespace Sys2Proof.Machine

theorem getElem?_copy {α : Type} {n : Nat} (which : Nat → Bool) (src dst : Vector α n) (e : Nat) :
    (Vector.ofFn fun i : Fin n => if which i.val then src[i] else dst[i])[e]? =
      if which e then src[e]? else dst[e]? := by
  by_cases h : e < n
  · simp only [Vector.getElem?_eq_getElem h, Vector.getElem_ofFn]
    cases which e <;> rfl
  · simp only [Vector.getElem?_eq_none (show n ≤ e by omega), ite_self]

/-- A slot after copying: from the source where picked, else as it was. -/
theorem tableSlot_copySlots (which : TableId → Nat → Bool) (src dst : LookupTables) (t : TableId) (e : Nat) :
    tableSlot (copySlots which src dst) t e = if which t e then tableSlot src t e else tableSlot dst t e := by
  cases t
  case td4 =>
    simp only [tableSlot, copySlots]
    rw [getElem?_copy (which .td4) src.td4 dst.td4 e]
    cases which .td4 e <;> rfl
  all_goals
    simp only [tableSlot, copySlots]
    exact getElem?_copy (which _) _ _ e

theorem vector_ext_slots {α : Type} {n : Nat} {u v : Vector α n} (h : ∀ e : Nat, u[e]? = v[e]?) : u = v := by
  apply Vector.ext
  intro i hi
  have := h i
  rw [Vector.getElem?_eq_getElem hi, Vector.getElem?_eq_getElem hi] at this
  exact Option.some.inj this

/-- Tables whose slots are all equal are equal. -/
theorem tables_ext {A B : LookupTables} (h : ∀ t e, tableSlot A t e = tableSlot B t e) : A = B := by
  have h4 : A.td4 = B.td4 := by
    apply vector_ext_slots
    intro e
    have := h .td4 e
    simp only [tableSlot] at this
    cases ha : A.td4[e]? <;> cases hb : B.td4[e]? <;> simp_all
    next x y =>
      have hx := congrArg BitVec.toNat this
      simp only [BitVec.toNat_setWidth] at hx
      have := x.isLt
      have := y.isLt
      exact BitVec.eq_of_toNat_eq (by omega)
  have h0 : A.te0 = B.te0 := vector_ext_slots (h .te0)
  have h1 : A.te1 = B.te1 := vector_ext_slots (h .te1)
  have h2 : A.te2 = B.te2 := vector_ext_slots (h .te2)
  have h3 : A.te3 = B.te3 := vector_ext_slots (h .te3)
  have h5 : A.td0 = B.td0 := vector_ext_slots (h .td0)
  have h6 : A.td1 = B.td1 := vector_ext_slots (h .td1)
  have h7 : A.td2 = B.td2 := vector_ext_slots (h .td2)
  have h8 : A.td3 = B.td3 := vector_ext_slots (h .td3)
  have h9 : A.rcon = B.rcon := vector_ext_slots (h .rcon)
  obtain ⟨⟩ := A
  obtain ⟨⟩ := B
  simp_all

/-- A lane's share is copied exactly when each of its slots is the ROM's (R90). -/
theorem shareCopied_iff (s : State) (l : Nat) :
    s.shareCopied l = true ↔
      ∀ t e, e % s.platform.groupLanes = l → tableSlot s.tc t e = tableSlot rom t e := by
  rw [State.shareCopied, beq_iff_eq]
  constructor
  · intro h t e he
    have hs : laneShare s.platform l t e = true := by simpa [laneShare] using he
    have := tableSlot_copySlots (laneShare s.platform l) rom s.tc t e
    rw [h, hs] at this
    simpa using this
  · intro h
    apply tables_ext
    intro t e
    rw [tableSlot_copySlots]
    cases hs : laneShare s.platform l t e
    · simp
    · simp only [if_true]
      exact (h t e (by simpa [laneShare] using hs)).symm

end Sys2Proof.Machine
end

