-- ==== Sys2Proof/Laws/Windows.lean ====
section
/-! SUPPORT. The checks of a hash command, as the machine computes them, are the conditions the claims name (R79, R81,
R82, R87, R211, R212, R214). -/

namespace Sys2Proof.Machine

/-- A window touches an access exactly when the two ranges share a byte. -/
theorem touches_eq_true (w : Window) (a n : Nat) : w.touches a n = true ↔ overlap a n w.base w.size := by
  simp only [Window.touches, decide_eq_true_eq, overlap]
  constructor
  · rintro ⟨h1, h2, h3, h4⟩
    exact ⟨max a w.base, by omega, by omega, by omega, by omega⟩
  · rintro ⟨x, h1, h2, h3, h4⟩
    omega

theorem touches_eq_false (w : Window) (a n : Nat) : w.touches a n = false ↔ ¬ overlap a n w.base w.size := by
  rw [← touches_eq_true, Bool.not_eq_true]

/-- The platform admits a window of at least one byte. -/
theorem memAdmits_eq_true (p : Platform) (base : BitVec 64) {n : Nat} :
    memAdmits p base n = true ↔ admitsWindow p base n := by
  have hb := base.isLt
  simp only [memAdmits, admitsWindow, Bool.and_eq_true, decide_eq_true_eq, Bool.not_eq_true', touches_eq_false]
  constructor
  · rintro ⟨⟨h1, h2⟩, h3⟩
    exact ⟨h3, by omega, h2⟩
  · rintro ⟨h1, h2, h3⟩
    exact ⟨⟨by omega, h3⟩, h1⟩

theorem scratchAdmitted_eq_true (s : State) : s.scratchAdmitted = true ↔ s.scratchOpen :=
  memAdmits_eq_true s.platform s.scratchAddr

theorem dataAdmitted_eq_true (s : State) : s.dataAdmitted = true ↔ s.dataOpen := by
  rw [State.dataAdmitted, State.dataOpen, Bool.or_eq_true, decide_eq_true_eq, memAdmits_eq_true]

theorem scratchAligned_eq_true (s : State) : s.scratchAligned = true ↔ s.alignedScratch := by
  simp only [State.scratchAligned, State.alignedScratch, beq_iff_eq]
  constructor
  · intro h
    have := congrArg BitVec.toNat h
    simpa [BitVec.extractLsb'_toNat] using this
  · intro h
    apply BitVec.eq_of_toNat_eq
    simpa [BitVec.extractLsb'_toNat] using h

/-- An admitted scratch window fits below 2^64. -/
theorem scratchOpen_fits {s : State} (h : s.scratchOpen) : s.scratchAddr.toNat + 2 ^ 21 ≤ 2 ^ 64 := h.2.1

/-- A command that was not held reads its data window in memory itself, a held one as at acceptance (R312). -/
@[simp] theorem dataMem_of_none {s : State} (h : s.heldMem = none) : s.dataMem = s.mem := by
  rw [State.dataMem, h, Option.getD_none]

@[simp] theorem dataMem_of_some {s : State} {m : Memory} (h : s.heldMem = some m) : s.dataMem = m := by
  rw [State.dataMem, h, Option.getD_some]

/-- What is observed outside the scratch window is memory outside it (R321). -/
theorem outsideScratch_of_observable {s : State} {x : Nat} (h : observable s.platform [s.scratchWindow] x = true) :
    s.outsideScratch x := by
  simp only [observable, List.all_cons, List.all_nil, Bool.and_true, Bool.and_eq_true, Bool.not_eq_true',
    decide_eq_true_eq] at h
  refine ⟨h.1.1, ?_⟩
  by_contra hx
  have ht : s.scratchWindow.touches x 1 = true :=
    (touches_eq_true ..).mpr ⟨x, le_refl x, by omega, show s.scratchAddr.toNat ≤ x by omega,
      show x < s.scratchAddr.toNat + 2 ^ 21 by omega⟩
  rw [h.2] at ht
  cases ht

/-- Memory is no register. -/
theorem reachesRegisters_of_inMemory {s : State} {addr : BitVec 64} {n : Nat} (h : s.inMemory addr n) :
    reachesRegisters s.platform addr n = false := by
  rw [reachesRegisters, touches_eq_false, show max n 1 = n from by have := h.1; omega]
  exact h.2.2

/-- Table lookups of a machine whose tables are good are the ROM's, and no hazard. -/
theorem tables_eq_rom {s : State} (h : s.TablesGood) : s.tables = rom := by
  simp only [State.tables]
  split
  · next ht => exact (h ht).2
  · rfl

theorem tablesReady_eq_true {s : State} (h : s.TablesGood) : s.tablesReady = true := by
  simp only [State.tablesReady, Bool.or_eq_true, Bool.not_eq_true']
  cases ht : s.platform.tcache
  · exact .inr rfl
  · exact .inl (h ht).1

end Sys2Proof.Machine
end

