-- ==== Sys2Proof/Tests/Slice0.lean ====
section
/-! SUPPORT. Tests: the checks of a command word, words written out from the spec's encodings, one or two steps' results
for each command (expected values from 95_test_vectors.md), and for each statement of
Sys2Proof/Certificates/Slice0/Obligations.lean states and operands that meet all its hypotheses. -/

namespace Sys2Proof.Tests

open Sys2Proof.Machine

/-! Command words (R104 to R106, R110). -/

theorem test_reserved_bit_is_ill_formed : CommandFields.wellFormed ⟨0x01, 0b00, 1⟩ = false := by decide

theorem test_opcode_8_is_ill_formed : CommandFields.wellFormed ⟨0x08, 0b00, 0⟩ = false := by decide

theorem test_key_size_on_encrypt_is_ill_formed : CommandFields.wellFormed ⟨0x03, 0b01, 0⟩ = false := by decide

theorem test_every_command_is_well_formed :
    [Instr.nop, .setkeyEnc .unsupported, .setkeyDec .bits256, .encrypt, .decrypt, .aesRound, .hashCore,
      .hash].all Instr.wellFormed = true := by decide

theorem test_decode_nop : decode 0b00000000000000000000000000000000 = .ok .nop := rfl

theorem test_decode_setkey_enc_192 : decode 0b00000000000000000000000100000001 = .ok (.setkeyEnc .bits192) := rfl

theorem test_decode_setkey_dec_256 : decode 0b00000000000000000000001000000010 = .ok (.setkeyDec .bits256) := rfl

theorem test_decode_setkey_dec_unsupported :
    decode 0b00000000000000000000001100000010 = .ok (.setkeyDec .unsupported) := rfl

theorem test_decode_encrypt : decode 0b00000000000000000000000000000011 = .ok .encrypt := rfl

theorem test_decode_decrypt : decode 0b00000000000000000000000000000100 = .ok .decrypt := rfl

theorem test_decode_aes_round : decode 0b00000000000000000000000000000101 = .ok .aesRound := rfl

theorem test_decode_hash_core : decode 0b00000000000000000000000000000110 = .ok .hashCore := rfl

theorem test_decode_hash : decode 0b00000000000000000000000000000111 = .ok .hash := rfl

/-- E10: RSV bit 10 set on SETKEY_ENC. -/
theorem test_decode_reserved_bit : decode 0x00000401 = .error .reservedBits := rfl

/-- E8: OPC 0x08. -/
theorem test_decode_opcode_8 : decode 0x00000008 = .error .reservedOpcode := rfl

/-- E9: KSZ = 1 on ENCRYPT. -/
theorem test_decode_key_size_on_encrypt : decode 0x00000103 = .error .keySizeNotAllowed := rfl

theorem test_table_word_hash : decodeTableWord 32 7 = some .hash := rfl

/-! A small platform and small states. -/

/-- A byte string from its bytes. -/
def bytesOf (n : Nat) (data : List Byte) : Bytes n := Vector.ofFn fun i => data.getD i.val 0

/-- A platform with its register window at 0x40000000, which admits a scratch window at 0x10000000 and a data window of
21 bytes at 0x20000000. -/
def board : Platform where
  basePage := 0x100000
  hwRound := false
  tcache := false
  lanesBeyondFirst := 0
  unroll := .full
  admitted := [(0x10000000, 2 ^ 21), (0x20000000, 21)]
  refusedKeys := []

/-- The same with a table cache filled by two lanes. -/
def cachedBoard : Platform := { board with tcache := true, lanesBeyondFirst := 1 }

/-- The same that refuses a key. -/
def strictBoard (key : Bytes 32) : Platform := { board with refusedKeys := [key] }

/-- Right after reset, with both windows set up. -/
def ready (p : Platform) : State :=
  { State.resetOn p with dataAddr := 0x20000000, dataLen := 21, scratchAddr := 0x10000000 }

/-- A command in RUN at a stage. -/
def during (i : Instr) (g : Stage) : State :=
  { ready board with
    cmdl := encode i, status := ⟨true, false, false, 0, false, false⟩, phase := .run, seq := ⟨g, 0, 0, 0⟩ }

/-- The key of the known answer, 00 01 ... 0f. -/
def katKey : Bytes 32 := Vector.ofFn fun i => if i.val < 16 then BitVec.ofNat 8 i.val else 0

/-- The plaintext of the known answer, 00 11 ... ff. -/
def katPlain : Block := Vector.ofFn fun i => BitVec.ofNat 8 (17 * i.val)

/-- The ciphertext of the known answer (V1). -/
def katCipher : Block :=
  bytesOf 16 [0x69, 0xc4, 0xe0, 0xd8, 0x6a, 0x7b, 0x04, 0x30, 0xd8, 0xcd, 0xb7, 0x80, 0x70, 0xb4, 0xc5, 0x5a]

/-- Both schedules of the known answer's key set. -/
def keyed : State :=
  { ready board with
    status := ⟨false, false, false, 0, true, true⟩
    rounds := 10
    key := katKey
    ek := storeSchedule (keyExpansion rom katKey 128) fun _ => 0
    dk := storeSchedule (deriveDecrypt rom (keyExpansion rom katKey 128) 10) fun _ => 0 }

/-- What an outcome's next state shows, where it has one. -/
def shown {α : Type} (r : Host.Outcome State Fault Refusal) (f : State → α) : Option α :=
  match r with
  | .next t => some (f t)
  | .fault _ => none
  | .refused _ => none

/-- The fault of an outcome, where it has one. -/
def faultOf (r : Host.Outcome State Fault Refusal) : Option Fault :=
  match r with
  | .next _ => none
  | .fault f => some f
  | .refused _ => none

/-! Commands. -/

/-- E1: STATUS after a NOP. -/
theorem test_nop_status : shown (exec .nop (ready board)) (fun t => t.status.word) = some 0x00000002 := by decide

/-- V3: EK words 4, 9 and 43 of the known answer's key, and ROUNDS. -/
theorem test_setkey_enc_schedule :
    shown (exec (.setkeyEnc .bits128) { ready board with key := katKey })
      (fun t => (t.ek[4], t.ek[9], t.ek[43], t.rounds)) = some (0xd6aa74fd, 0x643dbdf1, 0x4d2b30c5, 10) := by
  decide +kernel

/-- E5: STATUS after SETKEY_ENC of the unsupported size. -/
theorem test_setkey_enc_unsupported :
    shown (exec (.setkeyEnc .unsupported) (ready board)) (fun t => (t.status.word, t.rounds)) = some (0x00000012, 0) := by
  decide

/-- V3: the schedules of the 256-bit key 00 01 ... 1f, ROUNDS and STATUS. -/
theorem test_setkey_dec_schedule :
    shown (exec (.setkeyDec .bits256) { ready board with key := Vector.ofFn fun i => BitVec.ofNat 8 i.val })
      (fun t => (t.dk[4], t.dk[5], t.ek[8], t.ek[59], t.rounds, t.status.word)) =
      some (0x34f1d1ff, 0xbfceaa2f, 0xa573c29f, 0x6d68de36, 14, 0x00000302) := by
  decide +kernel

/-- V1: the known answer. -/
theorem test_encrypt_known_answer :
    shown (exec .encrypt { keyed with din := katPlain }) (fun t => t.dout) = some katCipher := by
  decide +kernel

/-- E2: ENCRYPT with no key. -/
theorem test_encrypt_no_key : shown (exec .encrypt (ready board)) (fun t => t.status.word) = some 0x00000042 := by decide

/-- V1: its inverse. -/
theorem test_decrypt_known_answer :
    shown (exec .decrypt { keyed with din := katCipher }) (fun t => t.dout) = some katPlain := by
  decide +kernel

/-- E4: DECRYPT with EK valid and DK not. -/
theorem test_decrypt_no_key :
    shown (exec .decrypt { ready board with status := ⟨false, false, false, 0, true, false⟩ }) (fun t => t.status.word) =
      some 0x00000142 := by decide

/-- V5, last row: round 1 of the known answer. -/
theorem test_aes_round_of_known_answer :
    shown (exec .aesRound { ready board with
        din := bytesOf 16 [0x00, 0x10, 0x20, 0x30, 0x40, 0x50, 0x60, 0x70, 0x80, 0x90, 0xa0, 0xb0, 0xc0, 0xd0, 0xe0, 0xf0]
        rkey := bytesOf 16 [0xd6, 0xaa, 0x74, 0xfd, 0xd2, 0xaf, 0x72, 0xfa, 0xda, 0xa6, 0x78, 0xf1, 0xd6, 0xab, 0x76, 0xfe] })
      (fun t => t.dout) =
      some (bytesOf 16 [0x89, 0xd8, 0x10, 0xe8, 0x85, 0x5a, 0xce, 0x68, 0x2d, 0x18, 0x43, 0xd8, 0xcb, 0x12, 0x8f, 0xe4]) := by
  decide +kernel

/-- E12: HASH_CORE with a misaligned scratch address. -/
theorem test_hash_core_misaligned :
    shown (exec .hashCore { ready board with scratchAddr := 0x10000008 }) (fun t => t.status.word) = some 0x00000052 := by
  decide

/-- V6's mixing loop before the iteration that takes the same index for both steps. -/
def mixingV6 : State :=
  { during .hashCore .mix with
    events := [.sequencer]
    a := Vector.ofFn fun i => BitVec.ofNat 8 i.val
    b := Vector.ofFn fun i => BitVec.ofNat 8 (16 + i.val)
    mem := [(0x10020100, 0x12), (0x10020105, 0xcf)] }

/-- V6, the halves of the product of mixing step 2. -/
theorem test_hash_core_product :
    (mixingV6.mixStep1.mixStep2.hi, mixingV6.mixStep1.mixStep2.lo) = (0x2d46d3d44e7776e9, 0x89a9ab5b1a08dd50) := by
  decide +kernel

/-- V6: one iteration of the mixing loop. -/
theorem test_hash_core_mixing_step :
    shown (step mixingV6) (fun t => (t.a, t.scrRead 8208)) =
      some (bytesOf 16 [0xf5, 0x67, 0x49, 0x2e, 0xab, 0xab, 0x3f, 0x47, 0x2b, 0x95, 0x61, 0x56, 0x14, 0xcb, 0xc4, 0xeb],
        bytesOf 16 [0xe9, 0x77, 0x79, 0x51, 0xd8, 0xd8, 0x4c, 0x34, 0x58, 0xe6, 0x12, 0x25, 0x67, 0xb8, 0xb7, 0x98]) := by
  decide +kernel

/-- E13: HASH with a misaligned scratch address and an unadmitted data window. -/
theorem test_hash_misaligned :
    shown (exec .hash { ready board with scratchAddr := 0x10000004, dataLen := 22 }) (fun t => t.status.word) =
      some 0x00000052 := by decide

/-- E16 for the data window: HASH faults on one the platform does not admit. -/
theorem test_hash_data_window : faultOf (exec .hash { ready board with dataLen := 22 }) = some .memNotAdmitted := by decide

/-! Other steps. -/

/-- E18: after E8 only DONE and OVR are cleared by a write of ones to STATUS. -/
theorem test_status_write :
    shown (step { ready board with
        status := ⟨false, true, true, 3, true, false⟩, events := [regWrite board 0x00C 0xFFFFFFFF] })
      (fun t => t.status.word) = some 0x00000130 := by decide

/-- E20: a 16-bit write to STATUS. -/
theorem test_narrow_write :
    faultOf (step { ready board with events := [.hostWrite 0x4000000C [2, 0]] }) = some .busAccess := by decide

/-- V6: the index's corner cases. -/
theorem test_scratch_index :
    [0x0F, 0x10, 0x1FFFF0, 0x200000, 0xFFFFFFFFFFFFFFFF].map (fun l => scratchIndex (mkBlock l 0)) =
      [(0 : BitVec 17), 1, 131071, 0, 131071] := by decide +kernel

/-- V7: the first block stage 3 writes for an all-zero STATE. -/
theorem test_fill_block :
    shown (step { during .hashCore .fill with
        events := [.sequencer], hk := EngineSpec.schedule (Vector.replicate 32 0) }) (fun t => t.scrRead 0) =
      some (bytesOf 16 [0xa4, 0x73, 0xad, 0x45, 0xd0, 0x6d, 0xc2, 0xe9, 0xdf, 0x7a, 0x79, 0x0a, 0x0d, 0x69, 0xba, 0xdf]) := by
  decide +kernel

/-! Witnesses: for each statement with hypotheses, states and operands that meet all of them, at the bounds where a
hypothesis is a range. -/

/-- A step's next state, from what it shows. -/
theorem next_of_shown {α : Type} {r : Host.Outcome State Fault Refusal} {f : State → α} {v : α}
    (h : shown r f = some v) : ∃ t, r = .next t ∧ f t = v := by
  cases r with
  | next t => exact ⟨t, rfl, Option.some.inj h⟩
  | fault f => cases h
  | refused r => cases h

/-- A step's fault. -/
theorem fault_of_faultOf {r : Host.Outcome State Fault Refusal} {f : Fault} (h : faultOf r = some f) : r = .fault f := by
  cases r with
  | next t => cases h
  | fault g => exact congrArg _ (Option.some.inj h)
  | refused r => cases h

/-- A machine without a table cache has good tables. -/
theorem tablesGood_of_no_cache {s : State} (h : s.platform.tcache = false) : s.TablesGood :=
  fun ht => nomatch h.symm.trans ht

theorem witness_legal_words : ∀ i, ((0x00000008 : Word), i) ∉ legalWords := by
  intro i h
  simp [legalWords] at h

/-- An Illegal word in RUN, as after the release that ends its hold. -/
def illegalRunning : State :=
  { ready board with
    cmdl := 0x00000008, status := ⟨true, false, false, 0, false, false⟩, phase := .run, events := [.sequencer] }

/-- In IDLE, during population, and in RUN with no event or with one of the sequencer. -/
theorem witness_illegal_words :
    (ready board).Good ∧ (ready board).status.busy = false ∧ (ready board).phase ≠ .tcfill ∧
      (ready cachedBoard).Good ∧ (ready cachedBoard).status.busy = false ∧ (ready cachedBoard).phase = .tcfill ∧
      illegalRunning.Good ∧ illegalRunning.phase = .run ∧ ({ illegalRunning with events := [] } : State).Good ∧
      decode illegalRunning.cmdl = .error .reservedOpcode ∧ decode 0x00000008 = .error .reservedOpcode :=
  ⟨rfl, rfl, nofun, rfl, rfl, rfl, rfl, rfl, rfl, rfl, rfl⟩

/-- R93: an Illegal word written during population is held, and completes with ERR = 3 by the sequencer once in RUN. -/
theorem test_illegal_word_in_population :
    shown (step { ready cachedBoard with events := [regWrite cachedBoard 0x010 0x00000008] })
        (fun t => (t.status.word, t.phase)) = some (0x00000001, .tcfill) ∧
      shown (step illegalRunning) (fun t => (t.status.word, t.phase)) = some (0x00000032, .idle) := by
  decide +kernel

theorem witness_step_runs_command :
    (during .encrypt .check).Running .encrypt .check ∧ (during .encrypt .check).events = [] ∧
      (during .hash .check).Running .hash .check ∧ (during .hash .check).events = [] ∧
      (∀ c : HashKind, Instr.encrypt ≠ c.instr) ∧
      ({ during .encrypt .check with events := [.sequencer, .reset] } : State).Running .encrypt .check :=
  ⟨⟨rfl, rfl, rfl, rfl⟩, rfl, ⟨rfl, rfl, rfl, rfl⟩, rfl, fun c => (by cases c <;> nofun), ⟨rfl, rfl, rfl, rfl⟩⟩

/-- An event of the sequencer runs a block command: E2, ENCRYPT with no key. -/
theorem test_encrypt_by_the_sequencer :
    shown (step { during .encrypt .check with events := [.sequencer] }) (fun t => (t.status.word, t.phase)) =
      some (0x00000042, .idle) := by decide +kernel

/-- In IDLE, and during population, where the command is held. -/
theorem witness_command_write :
    (ready board).Good ∧ (ready board).status.busy = false ∧ (ready board).phase ≠ .tcfill ∧
      (ready cachedBoard).Good ∧ (ready cachedBoard).status.busy = false ∧ (ready cachedBoard).phase = .tcfill ∧
      decode 0x00000007 = .ok .hash := ⟨rfl, rfl, nofun, rfl, rfl, rfl, rfl⟩

/-- The first and last offset of each range of operand registers. -/
theorem witness_operand_offsets :
    ∀ o ∈ [0x018, 0x02C, 0x040, 0x06C, 0x080, 0x08C, 0x100, 0x1C4], operandOffset o := by
  unfold operandOffset isOffset
  decide

theorem witness_writes_while_busy :
    (during .hash .fill).Good ∧ (during .hash .fill).status.busy = true ∧ operandOffset 0x1C4 :=
  ⟨rfl, rfl, witness_operand_offsets 0x1C4 (by decide)⟩

/-- The first and last read-only and reserved offset of each range. -/
theorem witness_other_offsets :
    (∀ o ∈ [0x000, 0x004, 0x014, 0x070, 0x07C, 0x090, 0x0AC], readOnlyOffset o) ∧
      ∀ o ∈ [0x030, 0x03C, 0x0B0, 0x0FC, 0x1C8, 0x3FC], reservedOffset o := by
  unfold readOnlyOffset reservedOffset isOffset
  decide

/-- A running HASH_CORE before its first micro-step. -/
def started : State := { during .hashCore .check with events := [.sequencer] }

theorem started_sees : ¬ started.seesWrite ∧ ¬ started.seesReset :=
  ⟨fun ⟨_, _, _, h⟩ => (by cases h), fun ⟨_, h⟩ => (by cases h)⟩

theorem witness_results_at_completion :
    ∃ t, step started = .next t ∧ started.status.busy = true ∧ t.status.busy = true ∧ ¬ started.seesWrite ∧
      ¬ started.seesReset := by
  obtain ⟨t, ht, hb⟩ := next_of_shown (f := fun t => t.status.busy) (v := true) (r := step started) (by decide +kernel)
  exact ⟨t, ht, rfl, hb, started_sees⟩

/-- A hash command at a micro-step. -/
def atMicroStep (s : State) : State := { s with events := [.sequencer] }

/-- A micro-step that goes on, one that ends the command (its address misaligned), and one that raises a fault (its data
window not admitted). -/
theorem witness_micro_step :
    let ending := atMicroStep { during .hashCore .check with scratchAddr := 0x10000008 }
    let faulting := atMicroStep { during .hash .absorb with dataLen := 22 }
    (∃ t, started.Running (HashKind.instr .core) .check ∧ started.events = [.sequencer] ∧ step started = .next t ∧
      t.phase = .run) ∧
    (∃ t, ending.Running (HashKind.instr .core) .check ∧ ending.events = [.sequencer] ∧ step ending = .next t ∧
      t.phase = .idle) ∧
    faulting.Running (HashKind.instr .full) .absorb ∧ faulting.events = [.sequencer] ∧
      step faulting = .fault .memNotAdmitted := by
  refine ⟨?_, ⟨_, ⟨rfl, rfl, rfl, rfl⟩, rfl, rfl, rfl⟩, ⟨rfl, rfl, rfl, rfl⟩, rfl, fault_of_faultOf (by decide +kernel)⟩
  obtain ⟨t, ht, hb⟩ := next_of_shown (f := fun t => t.phase) (v := .run) (r := step started) (by decide +kernel)
  exact ⟨t, ⟨rfl, rfl, rfl, rfl⟩, rfl, ht, hb⟩

/-- The last micro-step of HASH_CORE commits its STATE: the text blocks at bytes 64 to 191 of S (R225, R230). -/
theorem test_hash_core_commits :
    shown (step (atMicroStep { during .hashCore .writeBack with
        text := Vector.replicate 8 (Vector.replicate 16 7) }))
      (fun t => (t.stateBuf[63], t.stateBuf[64], t.stateBuf[191], t.stateBuf[192], t.status.word, t.phase)) =
      some (0, 7, 7, 0, 0x00000002, .idle) := by
  decide +kernel

/-- A NOP held during population. -/
def held : State := { ready cachedBoard with status := ⟨true, false, false, 0, false, false⟩ }

/-- R312: a HASH held during population reads its data window as it stood at acceptance. -/
theorem test_held_hash_reads_as_at_acceptance :
    shown (step { ready cachedBoard with
        dataLen := 2, mem := [(0x20000000, 5)], events := [regWrite cachedBoard 0x010 7, .hostWrite 0x20000000 [9, 9]] })
      (fun t => shown (step t) fun u => (u.mem, u.dataBytes)) =
      some (some ([(0x20000000, 9), (0x20000001, 9)], [5, 0])) := by
  decide +kernel

theorem witness_held_command :
    ∃ t, step held = .next t ∧ held.phase = .tcfill ∧ held.status.busy = true ∧ ¬ held.seesReset := by
  obtain ⟨t, ht, _⟩ := next_of_shown (f := fun t => t.status.busy) (v := true) (r := step held) (by decide +kernel)
  exact ⟨t, ht, rfl, rfl, fun ⟨_, h⟩ => (by cases h)⟩

theorem witness_capability :
    ∃ t, step started = .next t ∧ t.Good := by
  obtain ⟨t, ht, hf⟩ := next_of_shown (f := fun t => t.fault) (v := none) (r := step started) (by decide +kernel)
  exact ⟨t, ht, hf⟩

/-- The first and the last byte of the register window, a narrow, a wide and a misaligned access. -/
theorem witness_register_access_faults :
    (ready board).Good ∧ (pBase (ready board).platform).toNat = 0x40000000 ∧
      [(0x40000000, 8), (0x400003FF, 4), (0x4000000C, 2)].all (fun p : Nat × Nat =>
        decide (0x40000000 ≤ p.1 ∧ p.1 < 0x40000000 + 0x400 ∧ (p.2 ≠ 4 ∨ p.1 % 4 ≠ 0))) = true :=
  ⟨rfl, by decide, by decide⟩

/-- No two ranges share a byte when one ends before the other begins. -/
theorem no_overlap {a m b n : Nat} (h : a + m ≤ b ∨ b + n ≤ a) : ¬ overlap a m b n := by
  rintro ⟨x, h1, h2, h3, h4⟩
  omega

/-- Memory just below the register window, at the end of the address space, and just above a running HASH's scratch
window. -/
theorem witness_host_memory :
    (ready board).Good ∧ (ready board).mem.wf ∧ (ready board).inMemory 0x3FFFFFFF 1 ∧
      (ready board).inMemory 0xFFFFFFFFFFFFFFFF 1 ∧ (ready board).phase ≠ .run ∧
      (during .hash .mix).inMemory 0x10200000 16 ∧
      ¬ overlap 0x10200000 16 (during .hash .mix).scratchAddr.toNat (2 ^ 21) ∧
      ¬ overlap 0x10200000 16 (during .hash .mix).dataAddr.toNat (during .hash .mix).dataLen.toNat := by
  have h : (pBase (ready board).platform).toNat = 0x40000000 := by decide
  have h' : (pBase (during .hash .mix).platform).toNat = 0x40000000 := by decide
  refine ⟨rfl, by decide, ⟨by decide, by decide, ?_⟩, ⟨by decide, by decide, ?_⟩, nofun, ⟨by decide, by decide, ?_⟩, ?_, ?_⟩
  · rw [h]; exact no_overlap (by decide)
  · rw [h]; exact no_overlap (by decide)
  · rw [h']; exact no_overlap (by decide)
  · exact no_overlap (.inr (by decide))
  · exact no_overlap (.inl (by decide))

/-- A running HASH whose data window is the last 21 bytes of its scratch window (R83). -/
def inBothWindows : State := { during .hash .mix with dataAddr := 0x101FFFEB }

/-- A byte in both windows of a running HASH, the last of each. -/
theorem witness_race_in_both_windows :
    inBothWindows.Good ∧ inBothWindows.phase = .run ∧ inBothWindows.inMemory 0x101FFFFF 1 ∧
      inBothWindows.latchedHash = true ∧ inBothWindows.latched = some .hash ∧
      overlap 0x101FFFFF 1 inBothWindows.scratchAddr.toNat (2 ^ 21) ∧
      overlap 0x101FFFFF 1 inBothWindows.dataAddr.toNat inBothWindows.dataLen.toNat := by
  have h : (pBase inBothWindows.platform).toNat = 0x40000000 := by decide
  refine ⟨rfl, rfl, ⟨by decide, by decide, ?_⟩, by decide, rfl, ⟨0x101FFFFF, by decide, by decide, by decide, by decide⟩,
    ⟨0x101FFFFF, by decide, by decide, by decide, by decide⟩⟩
  rw [h]
  exact no_overlap (by decide)

/-- The last byte of the scratch window and the last byte of the data window of a running HASH. -/
theorem witness_races :
    (during .hash .mix).Good ∧ (during .hash .mix).phase = .run ∧ (during .hash .mix).inMemory 0x101FFFFF 1 ∧
      (during .hash .mix).latchedHash = true ∧
      overlap 0x101FFFFF 1 (during .hash .mix).scratchAddr.toNat (2 ^ 21) ∧
      (during .hash .mix).inMemory 0x20000014 1 ∧ (during .hash .mix).latched = some .hash ∧
      overlap 0x20000014 1 (during .hash .mix).dataAddr.toNat (during .hash .mix).dataLen.toNat ∧
      ¬ overlap 0x20000014 1 (during .hash .mix).scratchAddr.toNat (2 ^ 21) := by
  have h : (pBase (during .hash .mix).platform).toNat = 0x40000000 := by decide
  refine ⟨rfl, rfl, ⟨by decide, by decide, ?_⟩, by decide, ⟨0x101FFFFF, by decide, by decide, by decide, by decide⟩, ⟨by decide, by decide, ?_⟩, rfl,
    ⟨0x20000014, by decide, by decide, by decide, by decide⟩, ?_⟩
  · rw [h]; exact no_overlap (by decide)
  · rw [h]; exact no_overlap (by decide)
  · exact no_overlap (.inr (by decide))


/-- The scratch window of these states is open. -/
theorem scratchOpen_of {s : State} (ha : s.scratchAddr = 0x10000000) (hp : s.platform.admitted = board.admitted)
    (hb : s.platform.basePage = board.basePage) : s.scratchOpen := by
  rw [State.scratchOpen, ha]
  refine ⟨by rw [hp]; decide, by decide, ?_⟩
  rw [show (pBase s.platform).toNat = 0x40000000 by rw [toNat_pBase, hb]; decide]
  exact no_overlap (by decide)

/-- The data window of these states is open. -/
theorem dataOpen_of {s : State} (ha : s.dataAddr = 0x20000000) (hl : s.dataLen = 21)
    (hp : s.platform.admitted = board.admitted) (hb : s.platform.basePage = board.basePage) : s.dataOpen := by
  refine .inr ?_
  rw [ha, hl]
  refine ⟨by rw [hp]; decide, by decide, ?_⟩
  rw [show (pBase s.platform).toNat = 0x40000000 by rw [toNat_pBase, hb]; decide]
  exact no_overlap (by decide)

/-- A HASH_CORE at its first block of stage 3. -/
def filling : State := { during .hashCore .fill with events := [.sequencer] }

theorem filling_statusInv : filling.StatusInv :=
  ⟨fun _ => rfl, nofun, fun _ => ⟨rfl, rfl⟩, by decide⟩

theorem filling_windowInv : filling.WindowInv :=
  ⟨fun h => absurd rfl h, fun _ _ _ => by unfold State.alignedScratch; decide, fun _ _ _ => scratchOpen_of rfl rfl rfl⟩

/-- A run of a HASH_CORE that is written to CMD and takes its first micro-step: its bus writes go to registers. -/
theorem witness_register_run :
    let s : State := { ready board with events := [regWrite board 0x010 6, .sequencer] }
    (∃ t, Sys2Proof.core.run 2 s = .next t ∧ t.phase = .run) ∧ s.StatusInv ∧ s.WindowInv ∧ s.mem.wf ∧
      (∀ addr data, .hostWrite addr data ∈ s.events →
        overlap addr.toNat (max data.length 1) (pBase s.platform).toNat 0x400) ∧
      s.scratchUsed 2 = [s.scratchWindow, s.scratchWindow] := by
  refine ⟨next_of_shown (by decide +kernel), ⟨nofun, fun _ => rfl, nofun, by decide⟩, ⟨fun _ => rfl, nofun, nofun⟩,
    by decide, fun addr data h => ?_, by decide +kernel⟩
  have h : Event.hostWrite addr data ∈ [regWrite board 0x010 6, .sequencer] := h
  simp only [List.mem_cons, reduceCtorEq, List.not_mem_nil, or_false, regWrite, Event.hostWrite.injEq] at h
  obtain ⟨rfl, rfl⟩ := h
  exact ⟨0x40000010, by decide, by decide, by decide, by decide⟩

theorem witness_block_writes :
    ∃ t x, step filling = .next t ∧ filling.StatusInv ∧ filling.WindowInv ∧ filling.mem.wf ∧ ¬ filling.seesWrite ∧
      x < 2 ^ 64 ∧ t.mem.read x ≠ filling.mem.read x := by
  obtain ⟨t, ht, hm⟩ := next_of_shown (f := fun t => decide (t.mem.read 0x10000000 = 0)) (v := false) (r := step filling)
    (by decide +kernel)
  refine ⟨t, 0x10000000, ht, filling_statusInv, filling_windowInv, by decide, fun ⟨_, _, _, h⟩ => (by cases h),
    by decide, ?_⟩
  exact of_decide_eq_false hm

/-- Reset in IDLE, and reset in the middle of a hash command. -/
theorem witness_reset :
    (ready board).Good ∧ (ready board).mem.wf ∧ (ready board).status.busy = false ∧
      (during .hash .mix).Good ∧ (during .hash .mix).mem.wf ∧ (during .hash .mix).status.busy = true ∧
      (during .hash .mix).latchedHash = true ∧ (ready board).outsideScratch 0x10200000 ∧
      (ready board).outsideScratch 0x0FFFFFFF :=
  ⟨rfl, by decide, rfl, rfl, by decide, rfl, by decide, ⟨by decide, .inr (by decide)⟩, ⟨by decide, .inl (by decide)⟩⟩

/-- Each fault, raised by a step of a state without a fault, and a state that holds one. -/
theorem witness_faults :
    step { ready board with events := [.hostRead 0x4000000C 2] } = .fault .busAccess ∧
      step { during .hash .check with dataLen := 22 } = .fault .memNotAdmitted ∧
      step { during .hash .mix with events := [.hostRead 0x10000000 1] } = .fault .scratchRace ∧
      step { during .hash .mix with events := [.hostWrite 0x20000000 [7]] } = .fault .dataRace ∧
      step { ready cachedBoard with events := [.lane 1 (.lookup .te0 255)] } = .fault .tcacheHazard ∧
      step { ready board with events := [.hostRead 0xFFFFFFFFFFFFFFFF 2] } = .fault .outsideMemory ∧
      ((ready board).latchFault .dataRace).fault = some .dataRace :=
  ⟨fault_of_faultOf (by decide +kernel), fault_of_faultOf (by decide +kernel), fault_of_faultOf (by decide +kernel), fault_of_faultOf (by decide +kernel),
    fault_of_faultOf (by decide +kernel), fault_of_faultOf (by decide +kernel), rfl⟩

/-- During population, with every share copied and every lane arrived. -/
def allLanesHere : State := { ready cachedBoard with tc := rom, tcArrived := [true, true] }

/-- After the release. -/
def released : State := { allLanesHere with tcValid := true, phase := .idle }

theorem shareCopied_of_rom {s : State} (h : s.tc = rom) (l : Nat) : s.shareCopied l = true :=
  (shareCopied_iff s l).mpr fun _ _ _ => by rw [h]

theorem released_cacheInv : released.CacheInv :=
  ⟨rfl, fun _ _ => rfl, fun l _ _ => shareCopied_of_rom rfl l, fun _ => ⟨nofun, nofun⟩, nofun⟩

theorem ready_cacheInv : (ready cachedBoard).CacheInv := by
  refine ⟨rfl, nofun, fun l hl h => ?_, fun _ => ⟨fun _ => rfl, fun _ => rfl⟩, nofun⟩
  have hl : l < 2 := hl
  interval_cases l <;> cases h

/-- With a command held and every lane arrived. -/
def heldAtBarrier : State := { allLanesHere with status := ⟨true, false, false, 0, false, false⟩, heldMem := some [] }

theorem witness_barrier :
    allLanesHere.Good ∧ allLanesHere.phase = .tcfill ∧ allLanesHere.status.busy = false ∧
      heldAtBarrier.Good ∧ heldAtBarrier.phase = .tcfill ∧ heldAtBarrier.status.busy = true ∧
      (∀ l, l < heldAtBarrier.platform.groupLanes → heldAtBarrier.arrived l = true) ∧
      released.Good ∧ released.phase ≠ .tcfill ∧
      (∀ l, l < allLanesHere.platform.groupLanes → allLanesHere.arrived l = true) ∧
      (ready cachedBoard).Good ∧ (ready cachedBoard).phase = .tcfill ∧ (ready cachedBoard).status.busy = false ∧
      (∃ l, l < (ready cachedBoard).platform.groupLanes ∧ (ready cachedBoard).arrived l = false) ∧
      (∃ t, step released = .next t) ∧ released.CacheInv ∧ released.platform.tcache = true ∧ released.tcValid = true ∧
      ¬ released.seesReset := by
  have h : ∀ l, l < allLanesHere.platform.groupLanes → allLanesHere.arrived l = true := fun l hl => by
    have hl : l < 2 := hl
    interval_cases l <;> rfl
  exact ⟨rfl, rfl, rfl, rfl, rfl, rfl, h, rfl, nofun, h, rfl, rfl, rfl, ⟨1, by decide, rfl⟩, ⟨_, rfl⟩, released_cacheInv, rfl,
    rfl, fun ⟨_, h⟩ => (by cases h)⟩

/-- R93: the release runs the held command. -/
theorem test_release_runs_the_held_command :
    shown (step { heldAtBarrier with events := [.barrier] }) (fun t => (t.phase, t.tcValid)) = some (.run, true) := by
  decide +kernel

/-- A lane of two with nothing copied and one with all copied; the last entry of a table belongs to lane 1. -/
theorem witness_lanes :
    (ready cachedBoard).Good ∧ (ready cachedBoard).platform.tcache = true ∧ (ready cachedBoard).phase = .tcfill ∧
      1 < (ready cachedBoard).platform.groupLanes ∧ (ready cachedBoard).arrived 1 = false ∧
      255 % (ready cachedBoard).platform.groupLanes = 1 ∧ 254 % (ready cachedBoard).platform.groupLanes ≠ 1 ∧
      (∃ t e, e % (ready cachedBoard).platform.groupLanes = 1 ∧
        tableSlot (ready cachedBoard).tc t e ≠ tableSlot rom t e) ∧
      released.Good ∧ released.phase ≠ .tcfill ∧
      ∀ t e, e % allLanesHere.platform.groupLanes = 1 → tableSlot allLanesHere.tc t e = tableSlot rom t e :=
  ⟨rfl, rfl, rfl, by decide, rfl, by decide, by decide, ⟨.rcon, 9, by decide, by decide +kernel⟩, rfl, nofun,
    fun _ _ _ => rfl⟩

theorem witness_table_reads :
    (ready cachedBoard).Good ∧ (ready cachedBoard).platform.tcache = true ∧ (ready cachedBoard).tcValid = false ∧
      (ready cachedBoard).CacheInv ∧ released.Good ∧ released.platform.tcache = true ∧ released.tcValid = true ∧
      released.CacheInv ∧ 1 < released.platform.groupLanes ∧ tableSlot rom .rcon 9 = some 0x36000000 ∧
      (during .encrypt .check).CacheInv ∧ (during .encrypt .check).phase = .run ∧ (during .encrypt .check).Good ∧
      (during .encrypt .check).events = [] :=
  ⟨rfl, rfl, rfl, ready_cacheInv, rfl, rfl, rfl, released_cacheInv, by decide, by decide +kernel,
    ⟨rfl, nofun, fun l hl h => (by have hl : l < 1 := hl; interval_cases l; cases h), nofun, fun _ => nofun⟩, rfl, rfl, rfl⟩

theorem witness_population :
    (ready cachedBoard).Good ∧ (ready cachedBoard).events = [] ∧ (ready cachedBoard).phase = .tcfill ∧
      (ready cachedBoard).CacheInv := ⟨rfl, rfl, rfl, ready_cacheInv⟩

theorem witness_tables : (ready board).TablesGood ∧ released.TablesGood :=
  ⟨nofun, fun _ => ⟨rfl, rfl⟩⟩

theorem witness_block_commands :
    keyed.TablesGood ∧ keyed.status.ekValid = true ∧ keyed.status.dkValid = true ∧
      (ready board).status.ekValid = false ∧ (ready board).status.dkValid = false :=
  ⟨nofun, rfl, rfl, rfl, rfl⟩

/-- The known answer's key state is consistent. -/
theorem keyed_contextInv : keyed.ContextInv := by
  refine ⟨fun _ => ⟨katKey, 128, .inl rfl, by decide, ?_⟩, fun _ => ⟨rfl, ?_⟩, nofun⟩
  · have h1 : ∀ i, i < 4 → scheduleWord keyed.ek i = keyWord katKey i := by decide +kernel
    have h2 : ∀ i, i < 44 → 4 ≤ i → scheduleWord keyed.ek i = scheduleWord keyed.ek (i - 4) ^^^
        (if i % 4 = 0 then ByteAes.subWord (ByteAes.rotWord (scheduleWord keyed.ek (i - 1))) ^^^
            wordOfBytes (rcByte (i / 4 - 1)) 0 0 0
          else if 4 = 8 ∧ i % 8 = 4 then ByteAes.subWord (scheduleWord keyed.ek (i - 1))
          else scheduleWord keyed.ek (i - 1)) := by decide +kernel
    exact ⟨h1, fun i h h' => h2 i h' h⟩
  · have h : ∀ r, r < 11 → ∀ c, c < 4 → scheduleWord keyed.dk (4 * r + c) =
        if 1 ≤ r ∧ r < 10 then ByteAes.invMixColumnWord (scheduleWord keyed.ek (4 * (10 - r) + c))
        else scheduleWord keyed.ek (4 * (10 - r) + c) := by decide +kernel
    exact fun r c hr hc => h r (by have : r ≤ 10 := hr; omega) c hc

theorem witness_encrypt_decrypt : keyed.ContextInv ∧ keyed.TablesGood ∧ keyed.status.dkValid = true :=
  ⟨keyed_contextInv, nofun, rfl⟩


/-- A SETKEY_ENC in RUN with a key whose first word is not 0. -/
def keying : State := { during (.setkeyEnc .bits128) .check with key := Vector.replicate 32 1 }

theorem witness_schedules_change :
    ∃ t, step keying = .next t ∧ (t.ek ≠ keying.ek ∨ t.dk ≠ keying.dk) := by
  obtain ⟨t, ht, h⟩ := next_of_shown (f := fun t => decide (t.ek[0] = 0)) (v := false) (r := step keying) (by decide +kernel)
  refine ⟨t, ht, .inl fun he => ?_⟩
  rw [he] at h
  exact absurd h (by decide)

/-- Two platforms that differ in all the strategies. -/
theorem witness_strategies :
    let p : Platform := { cachedBoard with hwRound := true, unroll := .paired }
    let s : State := { ready board with tc := rom, tcValid := true }
    p.basePage = s.platform.basePage ∧ p.admitted = s.platform.admitted ∧ p.refusedKeys = s.platform.refusedKeys ∧
      s.TablesGood ∧ State.TablesGood { s with platform := p } :=
  ⟨rfl, rfl, rfl, nofun, fun _ => ⟨rfl, rfl⟩⟩

theorem aligned_of {s : State} (h : s.scratchAddr = 0x10000000) : s.alignedScratch := by
  rw [State.alignedScratch, h]
  decide

/-- A misaligned window, one of them past the end of the address space. -/
theorem witness_misaligned :
    ¬ ({ ready board with scratchAddr := 0x10000008 } : State).alignedScratch ∧
      ¬ ({ ready board with scratchAddr := 0xFFFFFFFFFFFFFFFF } : State).alignedScratch ∧ (ready board).mem.wf := by
  unfold State.alignedScratch
  decide

/-- A STATE whose fold-back key is not its fill key. -/
def mixedState : Bytes 200 := Vector.ofFn fun i => BitVec.ofNat 8 i.val

/-- A machine that refuses the fill key of that STATE. -/
def fillRefused : State := { ready (strictBoard (EngineSpec.fillKey mixedState)) with stateBuf := mixedState }

/-- A machine that refuses its fold-back key. -/
def foldRefused : State := { ready (strictBoard (EngineSpec.foldKey mixedState)) with stateBuf := mixedState }

theorem reachesSeed_of {s : State} {c : HashKind} (h1 : s.scratchAddr = 0x10000000) (h2 : s.dataAddr = 0x20000000)
    (h3 : s.dataLen = 21) (h4 : s.platform.admitted = board.admitted) (h5 : s.platform.basePage = board.basePage) :
    s.reachesSeed c := ⟨aligned_of h1, fun _ => dataOpen_of h2 h3 h4 h5⟩

theorem witness_refused_keys :
    fillRefused.TablesGood ∧ fillRefused.mem.wf ∧ fillRefused.reachesSeed .core ∧
      ¬ fillRefused.importsKey (EngineSpec.fillKey (fillRefused.sponge0 .core)) ∧
      foldRefused.TablesGood ∧ foldRefused.mem.wf ∧ foldRefused.reachesFold .core ∧
      ¬ foldRefused.importsKey (EngineSpec.foldKey (foldRefused.sponge0 .core)) := by
  refine ⟨nofun, by decide, reachesSeed_of rfl rfl rfl rfl rfl, ?_, nofun, by decide,
    ⟨reachesSeed_of rfl rfl rfl rfl rfl, ?_, scratchOpen_of rfl rfl rfl⟩, ?_⟩
  · exact fun h => h (List.mem_singleton.mpr rfl)
  · exact fun h => absurd (congrArg (fun k : Bytes 32 => k[0]) (List.mem_singleton.mp h)) (by decide +kernel)
  · exact fun h => h (List.mem_singleton.mpr rfl)

/-- Each of the checks failing for a HASH or a HASH_CORE, and none. -/
theorem hashSucceeds_ready (c : HashKind) : (ready board).hashSucceeds c :=
  ⟨⟨reachesSeed_of rfl rfl rfl rfl rfl, nofun, scratchOpen_of rfl rfl rfl⟩, nofun⟩

theorem witness_checks :
    (ready board).TablesGood ∧ (ready board).mem.wf ∧
      ({ ready board with dataLen := 22 } : State).alignedScratch ∧ ¬ ({ ready board with dataLen := 22 } : State).dataOpen ∧
      ({ ready board with scratchAddr := 0x10000010 } : State).reachesSeed .core ∧
      ({ ready board with scratchAddr := 0x10000010 } : State).importsKey (EngineSpec.fillKey (Vector.replicate 200 0)) ∧
      ¬ ({ ready board with scratchAddr := 0x10000010 } : State).scratchOpen ∧
      (ready board).hashSucceeds .core ∧ (ready board).hashSucceeds .full := by
  refine ⟨nofun, by decide, aligned_of rfl, ?_, ⟨?_, nofun⟩, nofun, ?_, hashSucceeds_ready _, hashSucceeds_ready _⟩
  · rintro (h | h)
    · exact absurd h (by decide)
    · exact absurd h.1 (by decide)
  · unfold State.alignedScratch; decide
  · exact fun h => absurd h.1 (by decide)

/-- Each part of the engine at its first turn, and at its last one. -/
def atTurn (g : Stage) (i : Nat) (k : Fin 8) (n : Nat) : State := { during .hashCore g with seq := ⟨g, i, k, n⟩ }

theorem atTurn_running (g : Stage) (i : Nat) (k : Fin 8) (n : Nat) : (atTurn g i k n).Running .hashCore g :=
  ⟨rfl, rfl, show decode (encode .hashCore) = _ from rfl, rfl⟩

theorem witness_engine_turns :
    (∀ g ∈ [Stage.fill, .mix, .fold], ∀ i ∈ [0, 16383], ∀ k ∈ [(0 : Fin 8), 7], ∀ n ∈ [0, 2 ^ 19 - 1],
      (atTurn g i k n).Running (HashKind.instr .core) g ∧ (atTurn g i k n).CounterInv) ∧
    ∀ g i k n, (atTurn g i k n).TablesGood ∧ (atTurn g i k n).mem.wf ∧ (atTurn g i k n).scratchOpen := by
  constructor
  · intro g _ i hi k _ n hn
    have h1 : ∀ i ∈ [0, 16383], i < fillIters := by decide
    have h2 : ∀ n ∈ [0, 2 ^ 19 - 1], n < mixIters := by decide
    exact ⟨atTurn_running g i k n, ⟨h1 i hi, h2 n hn⟩⟩
  · exact fun _ _ _ _ => ⟨nofun, ⟨List.Pairwise.nil, nofun⟩, scratchOpen_of rfl rfl rfl⟩

theorem witness_hash :
    (ready board).TablesGood ∧ (ready board).mem.wf ∧ (ready board).hashSucceeds .core ∧
      (ready board).hashSucceeds .full ∧ (ready board).outsideScratch 0x0FFFFFFF ∧
      (ready board).outsideScratch 0x10200000 ∧ (ready board).outsideScratch 0xFFFFFFFFFFFFFFFF :=
  ⟨nofun, by decide, hashSucceeds_ready _, hashSucceeds_ready _, ⟨by decide, .inl (by decide)⟩, ⟨by decide, .inr (by decide)⟩,
    ⟨by decide, .inr (by decide)⟩⟩

/-- Two memories that differ in the first and the last byte of the scratch window. -/
theorem witness_prior_content :
    let m : Memory := [(0x10000000, 1), (0x101FFFFF, 2)]
    (ready board).mem.wf ∧ m.wf ∧ (∀ x, (ready board).outsideScratch x → m.read x = (ready board).mem.read x) ∧
      State.dataBytes { ready board with mem := m } = (ready board).dataBytes := by
  refine ⟨by decide, by decide, ?_, by decide +kernel⟩
  rintro x ⟨_, hx⟩
  have hs : (ready board).scratchAddr.toNat = 0x10000000 := by decide
  rw [hs] at hx
  simp only [Memory.read]
  rw [if_neg (by omega), if_neg (by omega)]
  rfl

theorem witness_commands : ∃ t, exec .nop (ready board) = .next t := ⟨_, rfl⟩

/-- A step, from a state that meets every invariant: a micro-step of a hash command. -/
theorem witness_invariants :
    ∃ t, step filling = .next t ∧ filling.CacheInv ∧ filling.ContextInv ∧ filling.StatusInv ∧ filling.WindowInv ∧
      filling.CounterInv ∧ filling.mem.wf ∧ ∀ m, filling.heldMem = some m → m.wf := by
  obtain ⟨t, ht, _⟩ := next_of_shown (f := fun t => t.phase) (v := .run) (r := step filling) (by decide +kernel)
  exact ⟨t, ht, ⟨rfl, nofun, fun l hl h => (by have hl : l < 1 := hl; interval_cases l; cases h), nofun, fun _ => nofun⟩,
    ⟨nofun, nofun, fun _ => rfl⟩, filling_statusInv, filling_windowInv, ⟨by decide, by decide⟩, by decide, nofun⟩

/-- A step of the table cache from a state that meets its invariant. -/
theorem witness_cache_step : ∃ t, step (ready cachedBoard) = .next t ∧ (ready cachedBoard).CacheInv := by
  obtain ⟨t, ht, _⟩ := next_of_shown (f := fun t => t.phase) (v := .tcfill) (r := step (ready cachedBoard))
    (by decide +kernel)
  exact ⟨t, ht, ready_cacheInv⟩

end Sys2Proof.Tests
end

section
/-! PROOFS. No step of the machine is refused (00_scope.md R28, 30_encoding.md R113): outcome by outcome, from the
commands up to `step`. -/

namespace Sys2Proof.Machine

variable (s : State) (r : Refusal)

theorem EngineResult.outcome_ne_refused (e : EngineResult) : e.outcome ≠ .refused r := by
  cases e <;> nofun

/-- A sound rest of a hash command is a next state or a fault with its cause. -/
theorem engineRun_ne_refused (c : HashKind) : engineRun c s ≠ .refused r := fun h => by
  have hs := sound_engineRun c s
  rwa [h] at hs

theorem writeDout_ne_refused (f : LookupTables → Block → Block) : s.writeDout f ≠ .refused r := by
  unfold State.writeDout
  split <;> nofun

/-- Every command has a meaning (R106). -/
theorem exec_ne_refused (i : Instr) : exec i s ≠ .refused r := by
  cases i with
  | nop => nofun
  | setkeyEnc k =>
    simp only [exec, execSetkeyEnc]
    split
    · nofun
    · split <;> nofun
  | setkeyDec k =>
    simp only [exec, execSetkeyDec]
    split
    · nofun
    · split <;> nofun
  | encrypt =>
    simp only [exec, execEncrypt]
    split
    · exact writeDout_ne_refused s r _
    · nofun
  | decrypt =>
    simp only [exec, execDecrypt]
    split
    · exact writeDout_ne_refused s r _
    · nofun
  | aesRound =>
    rw [exec, execAesRound]
    exact writeDout_ne_refused s r _
  | hashCore =>
    rw [exec, execHashCore]
    exact engineRun_ne_refused _ r .core
  | hash =>
    rw [exec, execHash]
    exact engineRun_ne_refused _ r .full

/-- Every command word has a meaning, from wherever the sequencer stands: one that is no command completes (R110). -/
theorem runCommand_ne_refused : s.runCommand ≠ .refused r := by
  unfold State.runCommand
  split
  · nofun
  · next i _ =>
    split
    · exact exec_ne_refused s r i
    · split
      · next c _ => exact engineRun_ne_refused s r c
      · exact exec_ne_refused s r i

theorem tickCommand_ne_refused : s.tickCommand ≠ .refused r := by
  unfold State.tickCommand
  split
  · nofun
  · next i _ =>
    split
    · exact EngineResult.outcome_ne_refused r _
    · exact exec_ne_refused s r i

theorem blockStep_ne_refused : s.blockStep ≠ .refused r := by
  unfold State.blockStep
  split
  · nofun
  · exact runCommand_ne_refused s r
  · nofun

theorem sequencerStep_ne_refused : s.sequencerStep ≠ .refused r := by
  unfold State.sequencerStep
  split
  · nofun
  · exact tickCommand_ne_refused s r
  · nofun

theorem busRead_ne_refused (addr : BitVec 64) (width : Nat) : s.busRead addr width ≠ .refused r := by
  unfold State.busRead
  split
  · split <;> nofun
  · split <;> nofun

theorem busWrite_ne_refused (addr : BitVec 64) (data : List Byte) : s.busWrite addr data ≠ .refused r := by
  unfold State.busWrite
  split
  · split <;> nofun
  · split <;> nofun

theorem laneStep_ne_refused (l : Nat) (action : LaneAction) : s.laneStep l action ≠ .refused r := by
  unfold State.laneStep
  split
  · cases action with
    | copy t e => nofun
    | arrive => nofun
    | lookup t e => dsimp only; split <;> nofun
  · nofun

theorem eventStep_ne_refused (ev : Event) : s.eventStep ev ≠ .refused r := by
  cases ev with
  | hostRead addr width => exact busRead_ne_refused s r addr width
  | hostWrite addr data => exact busWrite_ne_refused s r addr data
  | sequencer => exact sequencerStep_ne_refused s r
  | lane l action => exact laneStep_ne_refused s r l action
  | barrier => nofun
  | reset => nofun

theorem step_ne_refused : step s ≠ .refused r := by
  unfold step
  split
  · nofun
  · split
    · exact blockStep_ne_refused s r
    · exact eventStep_ne_refused _ r _

/-- Settles O10: every arm of the step ends in a next state or a fault. -/
theorem noStepIsRefused : Obligations.NoStepIsRefused := step_ne_refused

end Sys2Proof.Machine
end

section
/-! PROOFS. The machine's invariants, one section each: the state right after reset meets it, every move keeps it, so
every step does (10_state.md R37, R49, R60, R61, R64; 20_memory.md R91, R92; 60_exceptions.md R270, R272). -/

namespace Sys2Proof.Machine

/-- What every move keeps, and what does not look at the queue, every step keeps. -/
theorem step_keeps {P : State → Prop} (hq : ∀ (s : State) (rest : List Event), P s → P { s with events := rest })
    (hm : ∀ {s t : State} {ev : Option Event}, Move s ev t → P s → P t) {s t : State} (h : step s = .next t)
    (hs : P s) : P t := by
  obtain ⟨-, ⟨-, h⟩ | ⟨ev, rest, -, h⟩⟩ := step_moves h
  · exact hm h hs
  · exact hm h (hq s rest hs)

/-! STATUS and PHASE. -/

theorem State.StatusInv.congr {s t : State} (hs : s.StatusInv) (hp : t.phase = s.phase) (ht : t.status = s.status) :
    t.StatusInv where
  run := by rw [hp, ht]; exact hs.run
  idle := by rw [hp, ht]; exact hs.idle
  busy := by rw [ht]; exact hs.busy
  err := by rw [ht]; exact hs.err

/-- Every completion leaves the two in agreement, with an error code of the spec (R270, R271). -/
theorem statusInv_of_finished {t : State} {q : Status} {err : BitVec 4} (hp : t.phase = .idle)
    (ht : t.status = q.finished err) (he : err.toNat ≤ 5) : t.StatusInv := by
  rw [Status.finished] at ht
  exact ⟨fun h => by simp [hp] at h, fun _ => by rw [ht], fun h => by simp [ht] at h, by rw [ht]; exact he⟩

/-- Every acceptance does, whether the command runs or is held (R272). -/
theorem statusInv_of_accepted {t : State} {q : Status} (hp : t.phase ≠ .idle) (ht : t.status = q.accepted) :
    t.StatusInv := by
  rw [Status.accepted] at ht
  exact ⟨fun _ => by rw [ht], fun h => absurd h hp, fun _ => by simp [ht], by simp [ht]⟩

theorem HashEnd.statusInv {s t : State} (h : HashEnd s t) : t.StatusInv := by
  obtain ⟨err, he, ht⟩ := h.status
  exact statusInv_of_finished h.phase ht he

/-- After reset no command runs (R64). -/
theorem phase_resetOn_ne_run (p : Platform) : (State.resetOn p).phase ≠ .run := by
  rw [State.resetOn]
  cases p.tcache <;> nofun

theorem statusInv_resetOn (p : Platform) : (State.resetOn p).StatusInv where
  run h := absurd h (phase_resetOn_ne_run p)
  idle _ := rfl
  busy := nofun
  err := Nat.zero_le 5

theorem Move.keeps_statusInv {s t : State} {ev : Option Event} (h : Move s ev t) (hs : s.StatusInv) : t.StatusInv := by
  cases h with
  | stay => exact hs
  | illegal => exact statusInv_of_finished (err := 3) rfl rfl (by decide)
  | ended err _ _ _ he => exact statusInv_of_finished rfl rfl he
  | setkeyEnc | setkeyDec | block => exact statusInv_of_finished (err := 0) rfl rfl (by decide)
  | hashPart _ _ _ hf _ => exact hs.congr hf.phase hf.status
  | hashTickEnd _ _ _ he | hashExec _ _ _ _ he | hashRest _ _ _ _ he => exact he.statusInv
  | release hp =>
    cases hb : s.status.busy
    · exact ⟨by simp [hb], fun _ => hb, fun h => hs.busy h, hs.err⟩
    · exact ⟨fun _ => hb, by simp [hb], fun h => hs.busy h, hs.err⟩
  | status v =>
    exact ⟨hs.run, hs.idle, fun h => by simp [Status.clearedBy, hs.busy h], hs.err⟩
  | overrun => exact ⟨hs.run, hs.idle, hs.busy, hs.err⟩
  | held v _ hp => exact statusInv_of_accepted (by simp [hp]) rfl
  | refusedWord => exact statusInv_of_finished (err := 3) rfl rfl (by decide)
  | accepted => exact statusInv_of_accepted nofun rfl
  | respond | copyEntry | arrive | copyShare | ctrl | dataAddr | dataLen | scratchAddr | key | din | rkey | stateBuf
  | memory => exact hs.congr rfl rfl
  | reset => exact (statusInv_resetOn s.platform).congr rfl rfl

/-- Settles O56: a completion, an acceptance and the release each set both registers, and nothing else sets one of the
two but a write to STATUS, which only clears flags. -/
theorem statusAndPhaseStayInAgreement : Obligations.StatusAndPhaseStayInAgreement := fun _ _ h hs =>
  step_keeps (fun _ _ hs => hs.congr rfl rfl) Move.keeps_statusInv h hs

/-! The sequencer's counters. -/

theorem State.CounterInv.congr {s t : State} (hs : s.CounterInv) (h : t.seq = s.seq) : t.CounterInv :=
  ⟨h ▸ hs.i, h ▸ hs.n⟩

/-- Where both counters are 0, as at the start of a rule and of a stage, they are in range. -/
theorem counterInv_of_zero {t : State} (hi : t.seq.i = 0) (hn : t.seq.n = 0) : t.CounterInv :=
  ⟨by rw [hi]; decide, by rw [hn]; decide⟩

theorem counterInv_of_start {t : State} (h : t.seq = Sequencer.start) : t.CounterInv :=
  counterInv_of_zero (by rw [h]; rfl) (by rw [h]; rfl)

theorem counterInv_enter (s : State) (g : Stage) : (s.enter g).CounterInv := counterInv_of_zero rfl rfl

theorem Sequencer.nextBlock_n (q : Sequencer) : q.nextBlock.n = q.n := by
  rw [Sequencer.nextBlock]
  split <;> rfl

/-- A turn of a sweep that is not the last leaves `i` in range. -/
theorem counterInv_of_sweepPos {t : State} (h : t.seq.sweepPos < sweepBlocks) (hn : t.seq.n < mixIters) :
    t.CounterInv := by
  refine ⟨?_, hn⟩
  rw [Sequencer.sweepPos, sweepBlocks] at h
  omega

/-- A part of a command after which it goes on leaves the counters in range. -/
def EngineResult.CountersInRange : EngineResult → Prop
  | .more t => t.CounterInv
  | .ended _ => True
  | .fault _ => True

theorem countersInRange_importKey (s : State) (key : Bytes 32) (g : Stage) : (s.importKey key g).CountersInRange := by
  rw [State.importKey]
  split
  · trivial
  · split
    · exact counterInv_enter _ g
    · trivial

theorem countersInRange_fillGuard {s : State} {go : EngineResult} (h : go.CountersInRange) :
    (s.fillGuard go).CountersInRange := by
  rw [State.fillGuard]
  split
  · split
    · exact h
    · trivial
  · trivial

theorem countersInRange_tableGuard {s : State} {go : EngineResult} (h : go.CountersInRange) :
    (s.tableGuard go).CountersInRange := by
  rw [State.tableGuard]
  split
  · exact h
  · trivial

theorem countersInRange_stageCheck (c : HashKind) (s : State) : (stageCheck c s).CountersInRange := by
  unfold stageCheck
  split
  · cases c
    · exact counterInv_enter _ _
    · exact counterInv_enter _ _
  · trivial

theorem countersInRange_stageAbsorb (s : State) : (stageAbsorb s).CountersInRange := by
  rw [stageAbsorb]
  split
  · exact counterInv_enter _ _
  · trivial

theorem countersInRange_tickFill {s : State} (hs : s.CounterInv) : (tickFill s).CountersInRange := by
  refine countersInRange_fillGuard ?_
  split
  · split
    · next h => exact counterInv_of_sweepPos h (by rw [State.fillBlock_seq, Sequencer.nextBlock_n]; exact hs.n)
    · exact counterInv_enter _ _
  · exact counterInv_enter _ _

theorem countersInRange_tickMix {s : State} (hs : s.CounterInv) : (tickMix s).CountersInRange := by
  refine countersInRange_tableGuard ?_
  split
  · split
    · next h => exact ⟨by rw [State.mixIteration_seq]; exact hs.i, h⟩
    · exact counterInv_enter _ _
  · exact counterInv_enter _ _

theorem countersInRange_tickFold {s : State} (hs : s.CounterInv) : (tickFold s).CountersInRange := by
  refine countersInRange_tableGuard ?_
  split
  · split
    · next h => exact counterInv_of_sweepPos h (by rw [State.foldBlock_seq, Sequencer.nextBlock_n]; exact hs.n)
    · exact counterInv_enter _ _
  · exact counterInv_enter _ _

theorem countersInRange_stageWriteBack (c : HashKind) (s : State) : (stageWriteBack c s).CountersInRange := by
  cases c
  · trivial
  · exact counterInv_enter _ _

/-- A micro-step keeps the counters in range, since a loop's last turn enters the next stage (R218, R223, R225). -/
theorem countersInRange_engineTick (c : HashKind) {s : State} (hs : s.CounterInv) :
    (engineTick c s).CountersInRange := by
  unfold engineTick
  split
  · exact countersInRange_stageCheck c s
  · exact countersInRange_stageAbsorb s
  · exact countersInRange_importKey _ _ _
  · exact countersInRange_tickFill hs
  · exact counterInv_enter _ _
  · exact countersInRange_tickMix hs
  · exact countersInRange_importKey _ _ _
  · exact countersInRange_tickFold hs
  · exact countersInRange_stageWriteBack c s
  · trivial

theorem counterInv_of_engineTick {c : HashKind} {s t : State} (h : engineTick c s = .more t) (hs : s.CounterInv) :
    t.CounterInv := by
  have ht := countersInRange_engineTick c hs
  rwa [h] at ht

theorem Move.keeps_counterInv {s t : State} {ev : Option Event} (h : Move s ev t) (hs : s.CounterInv) :
    t.CounterInv := by
  cases h with
  | illegal | ended | setkeyEnc | setkeyDec | block | held | refusedWord | accepted | reset =>
    exact counterInv_of_start rfl
  | hashPart _ _ ht => exact counterInv_of_engineTick ht hs
  | hashTickEnd _ _ _ he | hashExec _ _ _ _ he | hashRest _ _ _ _ he => exact counterInv_of_start he.seq
  | stay | respond | copyEntry | arrive | copyShare | release | ctrl | status | overrun | dataAddr | dataLen
  | scratchAddr | key | din | rkey | stateBuf | memory => exact hs.congr rfl

/-- Settles O58: only a micro-step counts, and the last turn of a loop sets the counters back to 0. -/
theorem countersStayInRange : Obligations.CountersStayInRange := fun _ _ h hs =>
  step_keeps (fun _ _ hs => hs.congr rfl) Move.keeps_counterInv h hs

/-! The table cache. -/

theorem State.CacheInv.congr {s t : State} (hs : s.CacheInv) (ha : t.tcArrived = s.tcArrived)
    (hp : t.platform = s.platform) (htc : t.tc = s.tc) (hv : t.tcValid = s.tcValid)
    (hf : t.phase = .tcfill ↔ s.phase = .tcfill) : t.CacheInv where
  lanes := by rw [ha, hp]; exact hs.lanes
  valid := by rw [hp, hv, htc]; exact hs.valid
  arrived l hl h := by
    rw [State.shareCopied, hp, htc]
    rw [State.arrived, ha] at h
    exact hs.arrived l (hp ▸ hl) h
  phase h := hf.trans (by rw [hv]; exact hs.phase (hp ▸ h))
  noCache h hft := hs.noCache (hp ▸ h) (hf.mp hft)

/-- A move between IDLE and RUN that leaves the cache alone. -/
theorem State.CacheInv.congr_of_ne {s t : State} (hs : s.CacheInv) (ha : t.tcArrived = s.tcArrived)
    (hp : t.platform = s.platform) (htc : t.tc = s.tc) (hv : t.tcValid = s.tcValid) (hps : s.phase ≠ .tcfill)
    (hpt : t.phase ≠ .tcfill) : t.CacheInv :=
  hs.congr ha hp htc hv (iff_of_false hpt hps)

theorem State.CacheInv.engineFrame {s t : State} (hs : s.CacheInv) (h : EngineFrame s t) : t.CacheInv := by
  have hr := (onlyHashEffects_iff s t).mp h.regs
  exact hs.congr (by simp only [hr]) h.platform h.tc.1 h.tc.2 (by rw [h.phase])

theorem State.CacheInv.hashEnd {s t : State} (hs : s.CacheInv) (h : HashEnd s t) (hp : s.phase = .run) :
    t.CacheInv := by
  have hr := (onlyHashEffects_iff s t).mp h.regs
  exact hs.congr_of_ne (by simp only [hr]) (by simp only [hr]) (by simp only [hr]) (by simp only [hr]) (by simp [hp])
    (by simp [h.phase])

/-- TCFILL tells that there is a table cache, not yet released. -/
theorem State.CacheInv.of_tcfill {s : State} (hs : s.CacheInv) (hp : s.phase = .tcfill) :
    s.platform.tcache = true ∧ s.tcValid = false := by
  have hc : s.platform.tcache = true := by
    by_contra h
    exact hs.noCache (by simpa using h) hp
  exact ⟨hc, (hs.phase hc).mp hp⟩

/-- Setting a lane's flag lets no other lane arrive. -/
theorem arrived_of_set {s : State} {l m : Nat} (h : (s.tcArrived.set l true).getD m false = true) :
    m = l ∨ s.arrived m = true := by
  by_cases hm : l = m
  · exact .inl hm.symm
  · refine .inr ?_
    rwa [List.getD_eq_getElem?_getD, List.getElem?_set_ne hm, ← List.getD_eq_getElem?_getD] at h

/-- Copying from the ROM keeps every share that is copied. -/
theorem shareCopied_copySlots {s : State} {l : Nat} (which : TableId → Nat → Bool) (h : s.shareCopied l = true) :
    State.shareCopied { s with tc := copySlots which rom s.tc } l = true := by
  rw [shareCopied_iff] at *
  intro t e he
  rw [tableSlot_copySlots, h t e he, ite_self]

/-- A lane that copies its share has it copied. -/
theorem shareCopied_copyShare (s : State) (l : Nat) :
    State.shareCopied { s with tc := copySlots (laneShare s.platform l) rom s.tc } l = true := by
  rw [shareCopied_iff]
  intro t e he
  rw [tableSlot_copySlots, if_pos (by simpa [laneShare] using he)]

/-- Lanes may copy and arrive during population, as long as an arrived lane's share is copied. -/
theorem State.CacheInv.of_population {s t : State} (hs : s.CacheInv) (hp : s.phase = .tcfill)
    (hl : t.tcArrived.length = s.tcArrived.length) (hpl : t.platform = s.platform) (hv : t.tcValid = s.tcValid)
    (hpt : t.phase = s.phase)
    (ha : ∀ l, l < s.platform.groupLanes → t.tcArrived.getD l false = true → t.shareCopied l = true) :
    t.CacheInv := by
  obtain ⟨hc, hv'⟩ := hs.of_tcfill hp
  refine ⟨by rw [hl, hpl, hs.lanes], ?_, by rwa [hpl], ?_, ?_⟩
  · simp [hv, hv']
  · simp [hpt, hp, hv, hv']
  · simp [hpl, hc]

/-- Once every lane has arrived, TC equals the ROM: every slot is in some lane's share (R90, R91). -/
theorem State.CacheInv.tc_eq_rom {s : State} (hs : s.CacheInv) (ha : s.allArrived = true) : s.tc = rom := by
  refine tables_ext fun t e => ?_
  have hl : e % s.platform.groupLanes < s.platform.groupLanes := Nat.mod_lt e (Nat.succ_pos _)
  have hall : ∀ l, l < s.platform.groupLanes → s.arrived l = true := by
    simpa [State.allArrived] using ha
  exact (shareCopied_iff s _).mp (hs.arrived _ hl (hall _ hl)) t e rfl

/-- After reset no lane has arrived (R64). -/
theorem arrived_resetOn (p : Platform) (l : Nat) : (State.resetOn p).arrived l = false := by
  simp only [State.arrived, State.resetOn, List.getD_eq_getElem?_getD, List.getElem?_replicate]
  split <;> rfl

theorem cacheInv_resetOn (p : Platform) : (State.resetOn p).CacheInv where
  lanes := List.length_replicate
  valid := nofun
  arrived l _ h := by simp [arrived_resetOn] at h
  phase h := by
    have h : p.tcache = true := h
    simp [State.resetOn, h]
  noCache h := by
    have h : p.tcache = false := h
    simp [State.resetOn, h]

theorem Move.keeps_cacheInv {s t : State} {ev : Option Event} (h : Move s ev t) (hs : s.CacheInv) : t.CacheInv := by
  cases h with
  | illegal hp | ended _ hp | setkeyEnc hp | setkeyDec hp | block _ hp =>
    exact hs.congr_of_ne rfl rfl rfl rfl (by simp [hp]) nofun
  | hashPart _ _ _ hf _ => exact hs.engineFrame hf
  | hashTickEnd hp _ _ he | hashExec hp _ _ _ he | hashRest hp _ _ _ he => exact hs.hashEnd he hp
  | copyEntry _ hp =>
    refine hs.of_population hp rfl rfl rfl rfl fun m hm h => ?_
    exact shareCopied_copySlots _ (hs.arrived m hm h)
  | arrive _ hp hc =>
    refine hs.of_population hp List.length_set rfl rfl rfl fun m hm h => ?_
    obtain rfl | h := arrived_of_set h
    · exact hc
    · exact hs.arrived m hm h
  | copyShare hp =>
    refine hs.of_population hp List.length_set rfl rfl rfl fun m hm h => ?_
    obtain rfl | h := arrived_of_set h
    · exact shareCopied_copyShare s m
    · exact shareCopied_copySlots _ (hs.arrived m hm h)
  | release hp ha =>
    refine ⟨hs.lanes, fun _ _ => hs.tc_eq_rom ha, hs.arrived, fun _ => ?_, fun h => ?_⟩
    · cases s.status.busy <;> simp
    · exact absurd hp (hs.noCache h)
  | refusedWord _ _ hp | accepted _ _ hp => exact hs.congr_of_ne rfl rfl rfl rfl hp nofun
  | stay | respond | ctrl | status | overrun | held | dataAddr | dataLen | scratchAddr | key | din | rkey | stateBuf
  | memory => exact hs.congr rfl rfl rfl rfl Iff.rfl
  | reset => exact (cacheInv_resetOn s.platform).congr rfl rfl rfl rfl Iff.rfl

/-- Settles O55: TC is written from the ROM alone and during population alone, and the release waits for every lane. -/
theorem tableCacheStaysRight : Obligations.TableCacheStaysRight := fun _ _ h hs =>
  step_keeps (fun _ _ hs => hs.congr rfl rfl rfl rfl Iff.rfl) Move.keeps_cacheInv h hs

end Sys2Proof.Machine
end

section
/-! PROOFS. The host context stays consistent with the key that made it (10_state.md R47 to R49;
41_aes_key_schedule.md R170, R174, R177, R178). -/

namespace Sys2Proof.Machine

/-- A schedule fills at most the 60 words of its register (R171). -/
theorem roundsOf_fits (bits : Nat) : 4 * (roundsOf bits + 1) ≤ 60 := by
  rw [roundsOf]
  split
  · decide
  · split <;> decide

theorem toNat_roundsOf (bits : Nat) : (BitVec.ofNat 32 (roundsOf bits)).toNat = roundsOf bits := by
  have := roundsOf_fits bits
  rw [BitVec.toNat_ofNat]
  omega

theorem isKeySize_of_keyBits {k : KeySize} {bits : Nat} (h : keyBits k = some bits) : isKeySize bits := by
  cases k with
  | bits128 => exact .inl (Option.some.inj h).symm
  | bits192 => exact .inr (.inl (Option.some.inj h).symm)
  | bits256 => exact .inr (.inr (Option.some.inj h).symm)
  | unsupported => cases h

/-- A stored key expansion from the ROM word by word. -/
theorem scheduleWord_keyExpansion (key : Bytes 32) {bits : Nat} (h : isKeySize bits) (above : Nat → Word) {i : Nat}
    (hi : i < 4 * (roundsOf bits + 1)) :
    scheduleWord (storeSchedule (keyExpansion rom key bits) above) i = (keyExpansion rom key bits).getD i 0 :=
  scheduleWord_storeSchedule _ _ (by rwa [length_keyExpansion rom key h]) (hi.trans_le (roundsOf_fits bits))

/-- The round constants that a schedule uses are ten (R141). -/
theorem rcon_in_range {bits i : Nat} (h : isKeySize bits) (hi : i < 4 * (roundsOf bits + 1)) :
    i / (bits / 32) - 1 < 10 := by
  obtain rfl | rfl | rfl := h <;> simp [roundsOf] at hi <;> omega

/-- KeyExpansion on the ROM follows R170's recurrence. -/
theorem isKeySchedule_keyExpansion (key : Bytes 32) {bits : Nat} (h : isKeySize bits) (above : Nat → Word) :
    ByteAes.IsKeySchedule key bits (storeSchedule (keyExpansion rom key bits) above) := by
  have hnk : bits / 32 ≤ 4 * (roundsOf bits + 1) := by obtain rfl | rfl | rfl := h <;> decide
  constructor
  · intro i hi
    rw [scheduleWord_keyExpansion key h above (hi.trans_le hnk), getD_keyExpansion_key rom key bits hi]
  · intro i h1 h2
    rw [scheduleWord_keyExpansion key h above h2, getD_keyExpansion_step rom key h h1 h2, scheduleStep,
      ← scheduleWord_keyExpansion key h above (i := i - bits / 32) (by omega),
      ← scheduleWord_keyExpansion key h above (i := i - 1) (by omega), rom_rcon (rcon_in_range h h2)]
    simp only [subRotWord_rom, subWordOnly_rom]

/-- DeriveDecrypt on the ROM follows R174. -/
theorem isDecryptSchedule_deriveDecrypt (key : Bytes 32) {bits : Nat} (h : isKeySize bits) (a b : Nat → Word) :
    ByteAes.IsDecryptSchedule (storeSchedule (keyExpansion rom key bits) a)
      (storeSchedule (deriveDecrypt rom (keyExpansion rom key bits) (roundsOf bits)) b) (roundsOf bits) := by
  intro r c hr hc
  have hfit := roundsOf_fits bits
  rw [scheduleWord_storeSchedule _ b (by rw [length_deriveDecrypt]; omega) (by omega),
    getD_deriveDecrypt rom _ _ hr hc, scheduleWord_keyExpansion key h a (by omega), invMixWord_rom]

/-- With the cache right, a table read that is no hazard reads the ROM (R92). -/
theorem State.CacheInv.tables_eq_rom {s : State} (hs : s.CacheInv) (h : s.tablesReady = true) : s.tables = rom :=
  Machine.tables_eq_rom fun hc => by
    have hv : s.tcValid = true := by simpa [State.tablesReady, hc] using h
    exact ⟨hv, hs.valid hc hv⟩

theorem State.ContextInv.congr {s t : State} (hs : s.ContextInv) (h1 : t.status.ekValid = s.status.ekValid)
    (h2 : t.status.dkValid = s.status.dkValid) (h3 : t.rounds = s.rounds) (h4 : t.ek = s.ek) (h5 : t.dk = s.dk) :
    t.ContextInv where
  ek := by rw [h1, h3, h4]; exact hs.ek
  dk := by rw [h1, h2, h3, h4, h5]; exact hs.dk
  noKey := by rw [h1, h3]; exact hs.noKey

theorem contextInv_resetOn (p : Platform) : (State.resetOn p).ContextInv := ⟨nofun, nofun, fun _ => rfl⟩

/-- A completion keeps the valid flags (R271). -/
theorem State.ContextInv.hashEnd {s t : State} (hs : s.ContextInv) (h : HashEnd s t) : t.ContextInv := by
  have hr := (onlyHashEffects_iff s t).mp h.regs
  obtain ⟨err, -, ht⟩ := h.status
  exact hs.congr (by rw [ht, Status.finished]) (by rw [ht, Status.finished]) (by simp only [hr]) (by simp only [hr])
    (by simp only [hr])

theorem State.ContextInv.engineFrame {s t : State} (hs : s.ContextInv) (h : EngineFrame s t) : t.ContextInv := by
  have hr := (onlyHashEffects_iff s t).mp h.regs
  exact hs.congr (by rw [h.status]) (by rw [h.status]) (by simp only [hr]) (by simp only [hr]) (by simp only [hr])

/-- SETKEY_ENC makes a consistent context whatever stood there before (R177). -/
theorem contextInv_setEncryptKey {s : State} {bits : Nat} (h : isKeySize bits) (hT : s.tables = rom) :
    (s.setEncryptKey bits).ContextInv where
  ek _ := ⟨s.key, bits, h, rfl, by rw [State.setEncryptKey_ek, hT]; exact isKeySchedule_keyExpansion s.key h _⟩
  dk := nofun
  noKey := nofun

/-- SETKEY_DEC does, with DK of the same key (R178). -/
theorem contextInv_setDecryptKey {s : State} {bits : Nat} (h : isKeySize bits) (hT : s.tables = rom) :
    ((s.setEncryptKey bits).setDecryptKey bits).ContextInv where
  ek _ := (contextInv_setEncryptKey h hT).ek rfl
  dk _ := by
    have hT' : (s.setEncryptKey bits).tables = rom := hT
    refine ⟨rfl, ?_⟩
    rw [State.setDecryptKey_ek, State.setDecryptKey_dk, State.setDecryptKey_rounds, State.setEncryptKey_ek,
      State.setEncryptKey_rounds, State.setEncryptKey_ksave, toNat_roundsOf, hT, hT']
    exact isDecryptSchedule_deriveDecrypt s.key h _ _
  noKey := nofun

theorem Move.keeps_contextInv {s t : State} {ev : Option Event} (h : Move s ev t) (hc : s.CacheInv)
    (hs : s.ContextInv) : t.ContextInv := by
  cases h with
  | setkeyEnc _ _ hk ht =>
    exact (contextInv_setEncryptKey (isKeySize_of_keyBits hk) (hc.tables_eq_rom ht)).congr rfl rfl rfl rfl rfl
  | setkeyDec _ _ hk ht =>
    exact (contextInv_setDecryptKey (isKeySize_of_keyBits hk) (hc.tables_eq_rom ht)).congr rfl rfl rfl rfl rfl
  | hashPart _ _ _ hf _ => exact hs.engineFrame hf
  | hashTickEnd _ _ _ he | hashExec _ _ _ _ he | hashRest _ _ _ _ he => exact hs.hashEnd he
  | reset => exact (contextInv_resetOn s.platform).congr rfl rfl rfl rfl rfl
  | stay | respond | illegal | ended | block | copyEntry | arrive | copyShare | release | ctrl | status | overrun | held
  | refusedWord | accepted | dataAddr | dataLen | scratchAddr | key | din | rkey | stateBuf | memory =>
    exact hs.congr rfl rfl rfl rfl rfl

/-- Settles O54: only SETKEY and reset change the context, and SETKEY reads tables that equal the ROM. -/
theorem contextStaysConsistent : Obligations.ContextStaysConsistent := fun _ _ h hc hs =>
  (step_keeps (P := fun u => u.CacheInv ∧ u.ContextInv)
    (fun _ _ ⟨hc, hs⟩ => ⟨hc.congr rfl rfl rfl rfl Iff.rfl, hs.congr rfl rfl rfl rfl rfl⟩)
    (fun hm ⟨hc, hs⟩ => ⟨hm.keeps_cacheInv hc, hm.keeps_contextInv hc hs⟩) h ⟨hc, hs⟩).2

end Sys2Proof.Machine
end

section
/-! PROOFS. What a host reads while a command runs, of the identification, and after reset (10_state.md R34, R35, R44,
R64; 70_reset_and_hazards.md R314; 44_control.md R251, R252). -/

namespace Sys2Proof.Machine

/-! Registers while a command runs. -/

/-- No host-visible register, and no schedule of the host context, differs (R44). -/
def State.sameRegisters (s t : State) : Prop :=
  t.dout = s.dout ∧ t.digest = s.digest ∧ t.stateBuf = s.stateBuf ∧ t.rounds = s.rounds ∧ t.status = s.status ∧
    t.irqEn = s.irqEn ∧ t.key = s.key ∧ t.din = s.din ∧ t.rkey = s.rkey ∧ t.dataAddr = s.dataAddr ∧
    t.dataLen = s.dataLen ∧ t.scratchAddr = s.scratchAddr ∧ t.ek = s.ek ∧ t.dk = s.dk

theorem EngineFrame.sameRegisters {s t : State} (h : EngineFrame s t) : s.sameRegisters t := by
  have hr := (onlyHashEffects_iff s t).mp h.regs
  simp only [State.sameRegisters, hr, h.stateBuf, h.digest, h.status, and_self]

theorem HashEnd.not_busy {s t : State} (h : HashEnd s t) : t.status.busy = false := by
  obtain ⟨err, -, ht⟩ := h.status
  rw [ht, Status.finished]

/-- A move by which the command in flight stays in flight changes no register a host reads. -/
theorem Move.sameRegisters {s t : State} {ev : Option Event} (h : Move s ev t) (hb : t.status.busy = true)
    (hw : ∀ addr data, ev ≠ some (.hostWrite addr data)) (hr : ev ≠ some .reset) : s.sameRegisters t := by
  cases h with
  | stay | respond | copyEntry | arrive | copyShare | release =>
    exact ⟨rfl, rfl, rfl, rfl, rfl, rfl, rfl, rfl, rfl, rfl, rfl, rfl, rfl, rfl⟩
  | illegal | ended | setkeyEnc | setkeyDec | block => cases hb
  | hashPart _ _ _ hf _ => exact hf.sameRegisters
  | hashTickEnd _ _ _ he | hashExec _ _ _ _ he | hashRest _ _ _ _ he => simp [he.not_busy] at hb
  | ctrl | status | overrun | held | refusedWord | accepted | dataAddr | dataLen | scratchAddr | key | din | rkey
  | stateBuf | memory => exact absurd rfl (hw _ _)
  | reset => exact absurd rfl hr

/-- Settles O8: a command's results are written by its completion alone, by which BUSY falls. -/
theorem resultsAppearOnlyAtCompletion : Obligations.ResultsAppearOnlyAtCompletion := by
  intro s t h _ hb hw hr
  obtain ⟨-, ⟨-, hm⟩ | ⟨ev, rest, he, hm⟩⟩ := step_moves h
  · exact hm.sameRegisters hb nofun nofun
  · refine hm.sameRegisters hb ?_ ?_
    · rintro addr data ⟨⟩
      exact hw ⟨addr, data, rest, he⟩
    · rintro ⟨⟩
      exact hr ⟨rest, he⟩

/-! Identification. -/

theorem Move.platform {s t : State} {ev : Option Event} (h : Move s ev t) : t.platform = s.platform := by
  cases h with
  | hashPart _ _ _ hf _ => exact hf.platform
  | hashTickEnd _ _ _ he | hashExec _ _ _ _ he | hashRest _ _ _ _ he =>
    have hr := (onlyHashEffects_iff s t).mp he.regs
    simp only [hr]
  | _ => rfl

/-- CAP as a number (R35, R252). -/
theorem capWord_eq (p : Platform) : capWord p = BitVec.ofNat 32 (28 + 2 * p.tcache.toNat + p.hwRound.toNat) := by
  rw [capWord]
  cases p.tcache <;> cases p.hwRound <;> decide

theorem readsAs_id {s : State} (hs : s.Good) : s.ReadsAs 0x000 0x4A4F484E :=
  s.readsAs_of ⟨by decide, rfl⟩ hs rfl

theorem readsAs_cap {s : State} (hs : s.Good) :
    s.ReadsAs 0x004 (BitVec.ofNat 32 (28 + 2 * s.platform.tcache.toNat + s.platform.hwRound.toNat)) :=
  s.readsAs_of ⟨by decide, rfl⟩ hs (capWord_eq s.platform)

/-- Settles O17: ID is a constant and CAP a function of the platform, which no move changes. -/
theorem identificationAndCapabilityNeverChange : Obligations.IdentificationAndCapabilityNeverChange := by
  intro s t h
  have hp : t.platform = s.platform :=
    step_keeps (P := fun u => u.platform = s.platform) (fun _ _ h => h) (fun hm h => hm.platform.trans h) h rfl
  exact ⟨hp, fun ht => ⟨readsAs_id ht, hp ▸ readsAs_cap ht⟩⟩

/-! Reset. -/

/-- Settles O22: ID and CAP read as on every platform, and the rest are the fields of `State.resetOn`. -/
theorem resetStateHoldsTheSpecifiedValues : Obligations.ResetStateHoldsTheSpecifiedValues := by
  intro p s
  have hs : s.Good := rfl
  have hz : ∀ n (k : Fin n), (Vector.replicate n (0 : Byte))[k] = 0 := fun n k => Vector.getElem_replicate k.isLt
  exact ⟨readsAs_id hs, readsAs_cap hs, rfl, rfl, rfl, rfl, rfl, rfl, hz 32, hz 16, hz 16, hz 16, hz 32, hz 200, rfl,
    rfl, rfl, arrived_resetOn p, rfl, rfl, rfl, rfl⟩

theorem windowInv_resetOn (p : Platform) : (State.resetOn p).WindowInv where
  start _ := rfl
  aligned h := absurd h (phase_resetOn_ne_run p)
  admitted h := absurd h (phase_resetOn_ne_run p)

/-- Settles O60, invariant by invariant. -/
theorem resetMeetsTheInvariants : Obligations.ResetMeetsTheInvariants := fun p =>
  ⟨contextInv_resetOn p, cacheInv_resetOn p, statusInv_resetOn p, windowInv_resetOn p, counterInv_of_start rfl,
    ⟨.nil, nofun⟩, rfl⟩

end Sys2Proof.Machine
end

section
/-! PROOFS. A hash command before its scratch window is admitted, the checks behind a running one, and the memory the
block writes (20_memory.md R74, R78, R79, R86; 43_hash_engine.md R211, R212; 70_reset_and_hazards.md R301, R321). -/

namespace Sys2Proof.Machine

/-! Stages 0 to 3 of a command whose scratch window is not admitted. -/

/-- A hash command ends with an error, and no byte outside its scratch window changes, wherever the window lies. -/
def State.FailsOutside (s t : State) : Prop :=
  t.status.err ≠ 0 ∧ (s.mem.wf → ∀ x, s.outsideScratch x → t.mem.read x = s.mem.read x)

/-- A part of a hash command that gets no further than stage 3 and writes no memory, but for the draw of the window of a
command that fails. -/
def EngineResult.BeforeAdmission (s : State) : EngineResult → Prop
  | .more t => t.mem = s.mem ∧ t.seq.stage.number ≤ 3
  | .ended t => s.FailsOutside t
  | .fault _ => True

/-- The rest of a hash command that does so. -/
def RestBeforeAdmission (s : State) : Host.Outcome State Fault Refusal → Prop
  | .next t => s.FailsOutside t
  | .fault _ => True
  | .refused _ => True

theorem failsOutside_drawWindow_finish (s : State) : s.FailsOutside (s.drawWindow.finish 5) :=
  ⟨by simp [Status.finished], fun hm x hx => by
    rw [State.finish_mem]; exact read_drawWindow_outside s hm hx⟩

theorem failsOutside_endHash (s : State) : s.FailsOutside (s.endHash 2) :=
  ⟨by simp [Status.finished], fun hm x hx => by
    rw [State.endHash_mem, ← State.drawWindow_mem]; exact read_drawWindow_outside s hm hx⟩

/-- Memory that is left alone is what a part finds before it and what the rest finds after it. -/
theorem State.FailsOutside.after {s t u : State} (h : t.FailsOutside u) (hf : EngineFrame s t) (hm : t.mem = s.mem) :
    s.FailsOutside u :=
  ⟨h.1, fun hw x hx => by rw [h.2 (hf.wf hw) x ((hf.outsideScratch x).mpr hx), hm]⟩

theorem beforeAdmission_enter {s t : State} {g : Stage} (hm : t.mem = s.mem) (hg : g.number ≤ 3) :
    (EngineResult.more (t.enter g)).BeforeAdmission s := ⟨hm, hg⟩

theorem beforeAdmission_stageCheck (c : HashKind) (s : State) : (stageCheck c s).BeforeAdmission s := by
  unfold stageCheck
  split
  · cases c
    · exact beforeAdmission_enter rfl (by decide)
    · exact beforeAdmission_enter rfl (by decide)
  · exact failsOutside_drawWindow_finish s

theorem beforeAdmission_stageAbsorb (s : State) : (stageAbsorb s).BeforeAdmission s := by
  rw [stageAbsorb]
  split
  · exact beforeAdmission_enter rfl (by decide)
  · trivial

/-- A refused key ends the command by a draw; an accepted one is imported without a memory access (R213, R227). -/
theorem beforeAdmission_stageSeed (s : State) : (stageSeed s).BeforeAdmission s := by
  rw [stageSeed, State.importKey]
  split
  · exact (failsOutside_endHash s.loadText).after (engineFrame_loadText s) (State.loadText_mem s)
  · split
    · exact beforeAdmission_enter rfl (by decide)
    · trivial

/-- Stage 3 checks admission before its first write (R212). -/
theorem fillGuard_of_not_admitted {s : State} (h : s.scratchAdmitted = false) (go : EngineResult) :
    s.fillGuard go = .fault .memNotAdmitted := by
  rw [State.fillGuard, h, if_neg Bool.false_ne_true]

theorem beforeAdmission_engineTick (c : HashKind) {s : State} (h : s.scratchAdmitted = false)
    (hn : s.seq.stage.number ≤ 3) : (engineTick c s).BeforeAdmission s := by
  unfold engineTick
  split
  case h_1 => exact beforeAdmission_stageCheck c s
  case h_2 => exact beforeAdmission_stageAbsorb s
  case h_3 => exact beforeAdmission_stageSeed s
  case h_4 => rw [tickFill, fillGuard_of_not_admitted h]; trivial
  all_goals next hg => rw [hg] at hn; exact absurd hn (by decide)

/-- A part that writes no memory, then a rest, where the part may end the command. -/
theorem EngineResult.BeforeAdmission.andThen {s : State} {r : EngineResult} (h : r.BeforeAdmission s) (hr : r.Sound s)
    {rest : State → Host.Outcome State Fault Refusal}
    (hrest : ∀ t, EngineFrame s t → RestBeforeAdmission t (rest t)) : RestBeforeAdmission s (r.andThen rest) := by
  cases r with
  | more t =>
    have ht := hrest t hr.1
    simp only [EngineResult.andThen]
    generalize rest t = o at ht
    cases o with
    | next u => exact State.FailsOutside.after ht hr.1 h.1
    | fault f => trivial
    | refused r => trivial
  | ended t => exact h
  | fault f => trivial

theorem restBeforeAdmission_runFill (c : HashKind) {s : State} (h : s.scratchAdmitted = false) :
    RestBeforeAdmission s (runFill c s) := by
  rw [runFill, stageFill, fillGuard_of_not_admitted h]
  trivial

theorem restBeforeAdmission_runSeed (c : HashKind) {s : State} (h : s.scratchAdmitted = false) :
    RestBeforeAdmission s (runSeed c s) :=
  (beforeAdmission_stageSeed s).andThen (sound_stageSeed s) fun _ hf =>
    restBeforeAdmission_runFill c (hf.scratchAdmitted.trans h)

theorem restBeforeAdmission_runAbsorb (c : HashKind) {s : State} (h : s.scratchAdmitted = false) :
    RestBeforeAdmission s (runAbsorb c s) :=
  (beforeAdmission_stageAbsorb s).andThen (sound_stageAbsorb s) fun _ hf =>
    restBeforeAdmission_runSeed c (hf.scratchAdmitted.trans h)

theorem restBeforeAdmission_runCheck (c : HashKind) {s : State} (h : s.scratchAdmitted = false) :
    RestBeforeAdmission s (runCheck c s) :=
  (beforeAdmission_stageCheck c s).andThen (sound_stageCheck c s) fun _ hf => by
    cases c
    · exact restBeforeAdmission_runSeed _ (hf.scratchAdmitted.trans h)
    · exact restBeforeAdmission_runAbsorb _ (hf.scratchAdmitted.trans h)

theorem restBeforeAdmission_engineRun (c : HashKind) {s : State} (h : s.scratchAdmitted = false)
    (hn : s.seq.stage.number ≤ 3) : RestBeforeAdmission s (engineRun c s) := by
  unfold engineRun
  split
  case h_1 => exact restBeforeAdmission_runCheck c h
  case h_2 => exact restBeforeAdmission_runAbsorb c h
  case h_3 => exact restBeforeAdmission_runSeed c h
  case h_4 => exact restBeforeAdmission_runFill c h
  all_goals next hg => rw [hg] at hn; exact absurd hn (by decide)

/-- A hash command, as it is executed, is the engine's run from its check (R230, R231). -/
theorem exec_instr (c : HashKind) (s : State) : exec c.instr s = runCheck c (s.enter .check) := by
  cases c <;> rfl

theorem restBeforeAdmission_exec (c : HashKind) {s : State} (h : s.scratchAdmitted = false) :
    RestBeforeAdmission s (exec c.instr s) := by
  rw [exec_instr]
  exact restBeforeAdmission_runCheck c (s := s.enter .check) h

/-- A command that is past stage 3 only with its window admitted is not past it with a window that is not. -/
theorem not_past_admission {s : State} (h : 4 ≤ s.seq.stage.number → s.scratchOpen) (ho : ¬ s.scratchOpen) :
    s.scratchAdmitted = false ∧ s.seq.stage.number ≤ 3 := by
  refine ⟨by rwa [← Bool.not_eq_true, scratchAdmitted_eq_true], ?_⟩
  by_contra hn
  exact ho (h (by omega))

/-! The checks behind a running hash command. -/

theorem State.WindowInv.congr {s t : State} (hs : s.WindowInv) (hp : t.phase = s.phase) (hc : t.cmdl = s.cmdl)
    (hq : t.seq = s.seq) (ha : t.scratchAddr = s.scratchAddr) (hpl : t.platform = s.platform) : t.WindowInv where
  start := by rw [hp, hq]; exact hs.start
  aligned := by
    rw [State.latchedHash, State.latched, State.alignedScratch, hp, hq, hc, ha]
    exact hs.aligned
  admitted := by
    rw [State.latchedHash, State.latched, State.scratchOpen, hp, hq, hc, ha, hpl]
    exact hs.admitted

/-- At the start of a rule there is no check behind. -/
theorem windowInv_of_check {t : State} (h : t.seq.stage = .check) : t.WindowInv where
  start _ := h
  aligned _ _ hg := absurd h hg
  admitted _ _ hn := by rw [h] at hn; exact absurd hn (by decide)

/-- A command goes on from its check only with SCRATCH_ADDR aligned (R211). -/
theorem aligned_of_engineTick_check {c : HashKind} {s t : State} (h : engineTick c s = .more t)
    (hg : s.seq.stage = .check) : s.alignedScratch := by
  rw [← scratchAligned_eq_true]
  by_contra ha
  rw [engineTick, hg] at h
  simp [stageCheck, ha] at h

/-- A command goes on from stage 3 only with its window admitted (R212). -/
theorem open_of_engineTick {c : HashKind} {s t : State} (h : engineTick c s = .more t)
    (hs : 4 ≤ s.seq.stage.number → s.scratchOpen) (hn : 4 ≤ t.seq.stage.number) : s.scratchOpen := by
  by_contra ho
  obtain ⟨ha, hn'⟩ := not_past_admission hs ho
  have ht := beforeAdmission_engineTick c ha hn'
  rw [h] at ht
  exact absurd ht.2 (by omega)

theorem EngineFrame.alignedScratch {s t : State} (h : EngineFrame s t) : t.alignedScratch ↔ s.alignedScratch := by
  rw [State.alignedScratch, State.alignedScratch, h.scratchAddr]

theorem EngineFrame.scratchOpen {s t : State} (h : EngineFrame s t) : t.scratchOpen ↔ s.scratchOpen := by
  rw [State.scratchOpen, State.scratchOpen, h.platform, h.scratchAddr]

/-- A micro-step after which a hash command goes on keeps it behind its checks. -/
theorem State.WindowInv.engineTick {c : HashKind} {s t : State} (hs : s.WindowInv) (hp : s.phase = .run)
    (hd : decode s.cmdl = .ok c.instr) (h : engineTick c s = .more t) (hf : EngineFrame s t) : t.WindowInv := by
  have hl := latchedHash_of_decode hd
  refine ⟨fun hn => absurd (hf.phase.trans hp) hn, fun _ _ _ => hf.alignedScratch.mpr ?_,
    fun _ _ hn => hf.scratchOpen.mpr (open_of_engineTick h (hs.admitted hp hl) hn)⟩
  by_cases hg : s.seq.stage = .check
  · exact aligned_of_engineTick_check h hg
  · exact hs.aligned hp hl hg

theorem Move.keeps_windowInv {s t : State} {ev : Option Event} (h : Move s ev t) (hst : s.StatusInv)
    (hs : s.WindowInv) : t.WindowInv := by
  cases h with
  | illegal | ended | setkeyEnc | setkeyDec | block | held | refusedWord | accepted | reset =>
    exact windowInv_of_check rfl
  | hashPart hp hd ht hf _ => exact hs.engineTick hp hd ht hf
  | hashTickEnd _ _ _ he | hashExec _ _ _ _ he | hashRest _ _ _ _ he => exact windowInv_of_check (by rw [he.seq]; rfl)
  | release hp => exact windowInv_of_check (hs.start (by simp [hp]))
  | scratchAddr _ hn => exact windowInv_of_check (hs.start fun hp => by simp [hst.run hp] at hn)
  | stay | respond | copyEntry | arrive | copyShare | ctrl | status | overrun | dataAddr | dataLen | key | din | rkey
  | stateBuf | memory => exact hs.congr rfl rfl rfl rfl rfl

/-- STATUS agrees with PHASE and a running hash command is behind its checks: the second of the two is kept only with
the first, which forbids a write to SCRATCH_ADDR in RUN. -/
def State.Checked (s : State) : Prop := s.StatusInv ∧ s.WindowInv

theorem step_keeps_checked {s t : State} (h : step s = .next t) (hs : s.Checked) : t.Checked :=
  step_keeps (P := State.Checked) (fun _ _ ⟨hb, hw⟩ => ⟨hb.congr rfl rfl, hw.congr rfl rfl rfl rfl rfl⟩)
    (fun hm ⟨hb, hw⟩ => ⟨hm.keeps_statusInv hb, hm.keeps_windowInv hb hw⟩) h hs

/-- Settles O57: a micro-step passes a check only where it holds, and SCRATCH_ADDR does not change in RUN. -/
theorem runningHashStaysChecked : Obligations.RunningHashStaysChecked := fun _ _ h hb hs =>
  (step_keeps_checked h ⟨hb, hs⟩).2

/-! The canonical form of memory. -/

theorem Move.keeps_mem_wf {s t : State} {ev : Option Event} (h : Move s ev t) (hs : s.mem.wf) : t.mem.wf := by
  cases h with
  | hashPart _ _ _ hf _ => exact hf.wf hs
  | hashTickEnd _ _ _ he | hashExec _ _ _ _ he | hashRest _ _ _ _ he => exact he.wf hs
  | memory => exact Memory.writeBytes_wf hs _ _
  | reset =>
    rw [State.resetBlock_mem]
    split
    · exact Memory.drawBytes_wf hs _ _ _
    · exact hs
  | stay | respond | illegal | ended | setkeyEnc | setkeyDec | block | copyEntry | arrive | copyShare | release | ctrl
  | status | overrun | held | refusedWord | accepted | dataAddr | dataLen | scratchAddr | key | din | rkey | stateBuf =>
    exact hs

theorem step_keeps_mem_wf {s t : State} (h : step s = .next t) (hs : s.mem.wf) : t.mem.wf :=
  step_keeps (P := fun u => u.mem.wf) (fun _ _ hs => hs) Move.keeps_mem_wf h hs

/-- The memory of a held command is kept, dropped, or taken from memory as it stands (R312). -/
theorem Move.heldMem_cases {s t : State} {ev : Option Event} (h : Move s ev t) :
    t.heldMem = s.heldMem ∨ t.heldMem = none ∨ t.heldMem = some s.mem := by
  cases h with
  | hashPart _ _ _ hf _ => exact .inl (by simp only [(onlyHashEffects_iff s t).mp hf.regs])
  | hashTickEnd _ _ _ he | hashExec _ _ _ _ he | hashRest _ _ _ _ he =>
    exact .inl (by simp only [(onlyHashEffects_iff s t).mp he.regs])
  | held => exact .inr (.inr rfl)
  | refusedWord | accepted | reset => exact .inr (.inl rfl)
  | stay | respond | illegal | ended | setkeyEnc | setkeyDec | block | copyEntry | arrive | copyShare | release | ctrl
  | status | overrun | dataAddr | dataLen | scratchAddr | key | din | rkey | stateBuf | memory => exact .inl rfl

/-- Memory is canonical, and so is the memory a held command was accepted with. -/
def State.CanonicalMemory (s : State) : Prop := s.mem.wf ∧ ∀ m, s.heldMem = some m → m.wf

theorem Move.keeps_canonicalMemory {s t : State} {ev : Option Event} (h : Move s ev t) (hs : s.CanonicalMemory) :
    t.CanonicalMemory := by
  refine ⟨h.keeps_mem_wf hs.1, fun m hm => ?_⟩
  obtain he | he | he := h.heldMem_cases
  · exact hs.2 m (he ▸ hm)
  · simp [he] at hm
  · rw [he] at hm
    exact Option.some.inj hm ▸ hs.1

/-- Settles O59: every write and every draw keeps the form, and a held command's memory is a copy of memory. -/
theorem memoryStaysCanonical : Obligations.MemoryStaysCanonical := fun _ _ h hs =>
  ⟨step_keeps_mem_wf h hs, fun hh =>
    (step_keeps (P := State.CanonicalMemory) (fun _ _ hs => hs) Move.keeps_canonicalMemory h ⟨hs, hh⟩).2⟩

/-! What the block writes. -/

/-- A byte of memory changes as the block may change it: in the window of a hash command in flight, which the platform
admits unless the change is the draw of a command that a reset abandons or that fails. -/
def State.MayChange (s t : State) (ev : Option Event) (x : Nat) : Prop :=
  s.latchedHash = true ∧ s.status.busy = true ∧ ¬ s.outsideScratch x ∧
    (s.scratchOpen ∨ ev = some .reset ∨ (t.status.busy = false ∧ t.status.err ≠ 0))

/-- A part of a running hash command within the frame changes bytes of an admitted window only. -/
theorem mayChange_of_engineTick {c : HashKind} {s t : State} {x : Nat} (ev : Option Event) (hp : s.phase = .run)
    (hd : decode s.cmdl = .ok c.instr) (hs : s.Checked) (hm : s.mem.wf) (h : engineTick c s = .more t)
    (hf : EngineFrame s t) (hx : t.mem.read x ≠ s.mem.read x) : s.MayChange t ev x := by
  have hl := latchedHash_of_decode hd
  have ho : s.scratchOpen := by
    by_contra ho
    obtain ⟨ha, hn⟩ := not_past_admission (hs.2.admitted hp hl) ho
    have ht := beforeAdmission_engineTick c ha hn
    rw [h] at ht
    exact hx (by rw [ht.1])
  exact ⟨hl, hs.1.run hp, fun hout => hx (hf.outside hm (scratchOpen_fits ho) x hout), .inl ho⟩

/-- The end of a running hash command changes bytes of its window only, which is admitted unless the command fails
before stage 4. -/
theorem mayChange_of_hashEnd {c : HashKind} {s t : State} {x : Nat} (ev : Option Event) (hp : s.phase = .run)
    (hd : decode s.cmdl = .ok c.instr) (hs : s.Checked) (hm : s.mem.wf) (he : HashEnd s t)
    (h : s.scratchAdmitted = false → s.seq.stage.number ≤ 3 → s.FailsOutside t)
    (hx : t.mem.read x ≠ s.mem.read x) : s.MayChange t ev x := by
  have hl := latchedHash_of_decode hd
  refine ⟨hl, hs.1.run hp, ?_⟩
  by_cases ho : s.scratchOpen
  · exact ⟨fun hout => hx (he.outside hm (scratchOpen_fits ho) x hout), .inl ho⟩
  · obtain ⟨ha, hn⟩ := not_past_admission (hs.2.admitted hp hl) ho
    obtain ⟨herr, hout⟩ := h ha hn
    exact ⟨fun h => hx (hout hm x h), .inr (.inr ⟨he.not_busy, herr⟩)⟩

theorem mayChange_of_reset {s : State} {x : Nat} (hm : s.mem.wf)
    (hx : s.resetBlock.mem.read x ≠ s.mem.read x) : s.MayChange s.resetBlock (some .reset) x := by
  rw [State.resetBlock_mem] at hx
  split at hx
  · next ha =>
    obtain ⟨hbusy, hl⟩ : s.status.busy = true ∧ s.latchedHash = true := by
      simpa [State.abandonsHash] using ha
    refine ⟨hl, hbusy, fun hout => hx ?_, .inr (.inl rfl)⟩
    rw [← State.drawWindow_mem]
    exact read_drawWindow_outside s hm hout
  · exact absurd rfl hx

theorem Move.mayChange {s t : State} {ev : Option Event} {x : Nat} (h : Move s ev t) (hs : s.Checked) (hm : s.mem.wf)
    (hw : ∀ addr data, ev ≠ some (.hostWrite addr data)) (hx : t.mem.read x ≠ s.mem.read x) :
    s.MayChange t ev x := by
  cases h with
  | hashPart hp hd ht hf _ => exact mayChange_of_engineTick _ hp hd hs hm ht hf hx
  | @hashTickEnd c _ hp hd ht he =>
    refine mayChange_of_hashEnd _ hp hd hs hm he (fun ha hn => ?_) hx
    have hr := beforeAdmission_engineTick c ha hn
    rwa [ht] at hr
  | @hashExec c _ hp hd ht _ he =>
    refine mayChange_of_hashEnd _ hp hd hs hm he (fun ha _ => ?_) hx
    have hr := restBeforeAdmission_exec c ha
    rwa [ht] at hr
  | @hashRest c _ hp hd ht _ he =>
    refine mayChange_of_hashEnd _ hp hd hs hm he (fun ha hn => ?_) hx
    have hr := restBeforeAdmission_engineRun c ha hn
    rwa [ht] at hr
  | reset => exact mayChange_of_reset hm hx
  | memory => exact absurd rfl (hw _ _)
  | stay | respond | illegal | ended | setkeyEnc | setkeyDec | block | copyEntry | arrive | copyShare | release | ctrl
  | status | overrun | held | refusedWord | accepted | dataAddr | dataLen | scratchAddr | key | din | rkey | stateBuf =>
    exact absurd rfl hx

/-- A step that is no bus write changes memory as the block may change it (R74, R86, R301). -/
theorem step_changes_window {s t : State} (h : step s = .next t) (hs : s.Checked) (hm : s.mem.wf) (hw : ¬ s.seesWrite)
    {x : Nat} (hx : t.mem.read x ≠ s.mem.read x) :
    s.latchedHash = true ∧ s.status.busy = true ∧ ¬ s.outsideScratch x ∧
      (s.scratchOpen ∨ s.seesReset ∨ (t.status.busy = false ∧ t.status.err ≠ 0)) := by
  obtain ⟨-, ⟨-, hmove⟩ | ⟨ev, rest, he, hmove⟩⟩ := step_moves h
  · obtain ⟨hl, hbusy, hout, ho | ho | ho⟩ := hmove.mayChange hs hm nofun hx
    · exact ⟨hl, hbusy, hout, .inl ho⟩
    · cases ho
    · exact ⟨hl, hbusy, hout, .inr (.inr ho)⟩
  · have hs' : State.Checked { s with events := rest } := ⟨hs.1.congr rfl rfl, hs.2.congr rfl rfl rfl rfl rfl⟩
    obtain ⟨hl, hbusy, hout, ho | ho | ho⟩ := hmove.mayChange hs' hm
      (by rintro addr data ⟨⟩; exact hw ⟨addr, data, rest, he⟩) hx
    · exact ⟨hl, hbusy, hout, .inl ho⟩
    · exact ⟨hl, hbusy, hout, .inr (.inl ⟨rest, by rw [he, Option.some.inj ho]⟩)⟩
    · exact ⟨hl, hbusy, hout, .inr (.inr ho)⟩

/-! Runs whose bus writes all go to registers. -/

/-- Every bus write to come reaches the register window (R101). -/
def State.writesRegistersOnly (s : State) : Prop :=
  ∀ addr data, .hostWrite addr data ∈ s.events →
    overlap addr.toNat (max data.length 1) (pBase s.platform).toNat 0x400

theorem commandRequest_mem (s : State) (v : Word) : (s.commandRequest v).mem = s.mem := by
  obtain ⟨-, h⟩ | ⟨-, -, h⟩ | ⟨-, -, -, h⟩ | ⟨-, -, -, h⟩ := commandRequest_cases s v <;> rw [h]

theorem writeOperand_mem (s : State) (v : Word) (r : Reg) : (s.writeOperand v r).mem = s.mem := by
  obtain h | ⟨_, h⟩ | ⟨_, h⟩ | ⟨_, h⟩ | ⟨_, h⟩ | ⟨_, h⟩ | ⟨_, h⟩ | ⟨_, h⟩ := writeOperand_cases s v r <;> rw [h]

theorem writeReg_mem (s : State) (r : Reg) (v : Word) : (s.writeReg r v).mem = s.mem := by
  obtain h | h | h | ⟨-, h⟩ | ⟨-, h⟩ | h := writeReg_cases s r v <;> rw [h]
  · exact commandRequest_mem s v
  · exact writeOperand_mem s v r

/-- A bus write that reaches the register window writes no memory (R101). -/
theorem busWrite_registers_mem {s t : State} {addr : BitVec 64} {data : List Byte}
    (hr : reachesRegisters s.platform addr data.length = true) (h : s.busWrite addr data = .next t) : t.mem = s.mem := by
  rw [State.busWrite, if_pos hr] at h
  split at h
  · rw [← Host.Outcome.next.inj h]
    exact writeReg_mem s _ _
  · cases h

theorem Move.events {s t : State} {ev : Option Event} (h : Move s ev t) : t.events = s.events := by
  cases h with
  | hashPart _ _ _ hf _ => simp only [(onlyHashEffects_iff s t).mp hf.regs]
  | hashTickEnd _ _ _ he | hashExec _ _ _ _ he | hashRest _ _ _ _ he =>
    simp only [(onlyHashEffects_iff s t).mp he.regs]
  | _ => rfl

/-- A step adds no event. -/
theorem mem_events_of_step {s t : State} (h : step s = .next t) {ev : Event} (hev : ev ∈ t.events) :
    ev ∈ s.events := by
  obtain ⟨-, ⟨-, hm⟩ | ⟨e, rest, he, hm⟩⟩ := step_moves h
  · rwa [hm.events] at hev
  · rw [hm.events] at hev
    rw [he]
    exact List.mem_cons_of_mem e hev

theorem step_platform {s t : State} (h : step s = .next t) : t.platform = s.platform :=
  step_keeps (P := fun u => u.platform = s.platform) (fun _ _ h => h) (fun hm h => hm.platform.trans h) h rfl

theorem step_writesRegistersOnly {s t : State} (h : step s = .next t) (hs : s.writesRegistersOnly) :
    t.writesRegistersOnly := fun addr data hev => by
  rw [step_platform h]
  exact hs addr data (mem_events_of_step h hev)

/-- A byte inside the scratch window is touched by it. -/
theorem touches_scratchWindow {s : State} {x : Nat} (hb : x < 2 ^ 64) (h : ¬ s.outsideScratch x) :
    s.scratchWindow.touches x 1 = true := by
  have hi : s.scratchAddr.toNat ≤ x ∧ x < s.scratchAddr.toNat + 2 ^ 21 := by
    by_contra hc
    exact h ⟨hb, by omega⟩
  exact (touches_eq_true ..).mpr ⟨x, le_rfl, Nat.lt_succ_self x, hi⟩

/-- The step of a run whose bus writes all go to registers changes no byte outside the window in use. -/
theorem step_mem_outside {s t : State} (h : step s = .next t) (hs : s.Checked) (hm : s.mem.wf)
    (hw : s.writesRegistersOnly) {x : Nat} (hb : x < 2 ^ 64) (hx : ∀ w ∈ s.scratchInUse, w.touches x 1 = false) :
    t.mem.read x = s.mem.read x := by
  by_cases hsw : s.seesWrite
  · obtain ⟨addr, data, rest, he⟩ := hsw
    have hr : reachesRegisters s.platform addr data.length = true :=
      (touches_eq_true ..).mpr (hw addr data (by simp [he]))
    obtain ⟨-, ⟨hn, -⟩ | ⟨hn, -⟩ | ⟨hn, -⟩ | ⟨ev, rest', he', hev⟩⟩ := step_cases h
    · simp [he] at hn
    · simp [he] at hn
    · simp [he] at hn
    · obtain ⟨rfl, rfl⟩ := List.cons.inj (he.symm.trans he')
      rw [busWrite_registers_mem (s := { s with events := rest }) hr hev]
  · by_contra hx'
    obtain ⟨hl, hbusy, hin, -⟩ := step_changes_window h hs hm hsw hx'
    have hu : s.scratchInUse = [s.scratchWindow] := by simp [State.scratchInUse, State.usesScratch, hl, hbusy]
    have := hx s.scratchWindow (by simp [hu])
    rw [touches_scratchWindow hb hin] at this
    cases this

/-- A run of one step and more, of any machine. -/
theorem run_succ_cases {M : Host.Core} {n : Nat} {s t : M.State} (h : M.run (n + 1) s = .next t) :
    ∃ u, M.step s = .next u ∧ M.run n u = .next t := by
  rw [Host.Core.run] at h
  split at h
  · next u hu => exact ⟨u, hu, h⟩
  · cases h
  · cases h

theorem run_succ {n : Nat} {s t : State} (h : Sys2Proof.core.run (n + 1) s = .next t) :
    ∃ u, step s = .next u ∧ Sys2Proof.core.run n u = .next t := run_succ_cases (M := Sys2Proof.core) h

theorem scratchUsed_succ {n : Nat} {s u : State} (h : step s = .next u) :
    s.scratchUsed (n + 1) = s.scratchInUse ++ u.scratchUsed n := by
  rw [State.scratchUsed, h]

theorem run_platform {n : Nat} {s t : State} (h : Sys2Proof.core.run n s = .next t) : t.platform = s.platform := by
  induction n generalizing s with
  | zero => exact congrArg State.platform (Host.Outcome.next.inj h).symm
  | succ n ih =>
    obtain ⟨u, hu, h⟩ := run_succ h
    exact (ih h).trans (step_platform hu)

/-- A run whose bus writes all go to registers changes no byte outside the windows used in it (R321). -/
theorem run_mem_outside {n : Nat} {s t : State} (h : Sys2Proof.core.run n s = .next t) (hs : s.Checked)
    (hm : s.mem.wf) (hw : s.writesRegistersOnly) {x : Nat} (hb : x < 2 ^ 64)
    (hx : ∀ w ∈ s.scratchUsed n, w.touches x 1 = false) : t.mem.read x = s.mem.read x := by
  induction n generalizing s with
  | zero => rw [Host.Outcome.next.inj h]
  | succ n ih =>
    obtain ⟨u, hu, h⟩ := run_succ h
    rw [scratchUsed_succ hu] at hx
    calc t.mem.read x
      _ = u.mem.read x := ih h (step_keeps_checked hu hs) (step_keeps_mem_wf hu hm) (step_writesRegistersOnly hu hw)
          fun w hwm => hx w (List.mem_append_right _ hwm)
      _ = s.mem.read x := step_mem_outside hu hs hm hw hb fun w hwm => hx w (List.mem_append_left _ hwm)

/-- An address that is observed is memory, and outside the windows used. -/
theorem untouched_of_observable {p : Platform} {used : List Window} {x : Nat} (h : observable p used x = true) :
    x < 2 ^ 64 ∧ ∀ w ∈ used, w.touches x 1 = false := by
  simp only [observable, Bool.and_eq_true, decide_eq_true_eq, List.all_eq_true, Bool.not_eq_true'] at h
  exact ⟨h.1.1, h.2⟩

/-- Settles O21, move by move: the block writes memory in stages 3 and 5 and by the draw at a hash command's end or at a
reset; the run is an induction on its steps. -/
theorem blockWritesOnlyItsScratchWindow : Obligations.BlockWritesOnlyItsScratchWindow := by
  refine ⟨fun s t h hb hs hm hw x _ hx => step_changes_window h ⟨hb, hs⟩ hm hw hx,
    fun n s t h hb hs hm hw => ?_⟩
  funext x
  simp only [State.observe, run_platform h]
  split
  · next ho =>
    obtain ⟨hx, hu⟩ := untouched_of_observable ho
    rw [run_mem_outside h ⟨hb, hs⟩ hm hw hx hu]
  · rfl

/-! A misaligned scratch address. -/

theorem stageCheck_of_misaligned {s : State} (c : HashKind) (h : ¬ s.alignedScratch) :
    stageCheck c s = .ended (s.drawWindow.finish 5) := by
  rw [← scratchAligned_eq_true] at h
  unfold stageCheck
  rw [if_neg h]

/-- Settles O43: the alignment check is the first of a hash command, and all that follows it is the draw of the window. -/
theorem misalignedScratchEndsWithErrorFive : Obligations.MisalignedScratchEndsWithErrorFive := by
  intro s c ha hm
  have hend := hashEnd_drawWindow_finish (s.enter .check) 5 (by decide)
  refine ⟨(s.enter .check).drawWindow.finish 5, ?_, rfl, rfl, hend.wf hm, ?_, rfl⟩
  · rw [exec_instr]
    unfold runCheck
    rw [stageCheck_of_misaligned c (s := s.enter .check) ha, EngineResult.andThen]
  · exact (failsOutside_drawWindow_finish (s.enter .check)).2 hm

end Sys2Proof.Machine
end

section
/-! PROOFS. Bus accesses: to registers that are not aligned 32-bit accesses, to memory, and to a window of a running hash
command (20_memory.md R72, R74, R76, R77, R87). -/

namespace Sys2Proof.Machine

/-- With no event pending, a good state's step is the block's move. -/
theorem step_of_no_event {s : State} (hs : s.Good) (he : s.events = []) : step s = s.blockStep := by
  have hs : s.fault = none := hs
  simp only [step, hs, he]

/-- The oldest event is what a good state's step does. -/
theorem step_of_event {s : State} {ev : Event} {rest : List Event} (hs : s.Good) (he : s.events = ev :: rest) :
    step s = State.eventStep { s with events := rest } ev := by
  have hs : s.fault = none := hs
  simp only [step, hs, he]

theorem step_event {s : State} (hs : s.Good) (ev : Event) (rest : List Event) :
    step { s with events := ev :: rest } = State.eventStep { s with events := rest } ev :=
  step_of_event (s := { s with events := ev :: rest }) hs rfl

/-! Register accesses that are not aligned 32-bit accesses. -/

theorem reachesRegisters_of_window {p : Platform} {addr : BitVec 64} (width : Nat)
    (hl : (pBase p).toNat ≤ addr.toNat) (hu : addr.toNat < (pBase p).toNat + 0x400) :
    reachesRegisters p addr width = true :=
  (touches_eq_true ..).mpr ⟨addr.toNat, le_rfl, by omega, hl, hu⟩

theorem alignedAccess_eq_false {addr : BitVec 64} {width : Nat} (h : width ≠ 4 ∨ addr.toNat % 4 ≠ 0) :
    alignedAccess addr width = false := by
  rw [alignedAccess, lowBits_eq_zero, ← Bool.decide_and, decide_eq_false_iff_not, not_and_or]
  exact h

/-- Settles O18: an access that starts in the window reaches it, whatever its width. -/
theorem unalignedRegisterAccessFaults : Obligations.UnalignedRegisterAccessFaults := by
  intro s addr hs hl hu
  refine ⟨fun width h rest => ?_, fun data h rest => ?_⟩
  · rw [step_event hs, State.eventStep, State.busRead, reachesRegisters_of_window width hl hu,
      alignedAccess_eq_false h]
    rfl
  · rw [step_event hs, State.eventStep, State.busWrite, reachesRegisters_of_window data.length hl hu,
      alignedAccess_eq_false h]
    rfl

/-! Accesses to memory. -/

theorem scratchHeld_eq_true (s : State) : s.scratchHeld = true ↔ s.phase = .run ∧ s.latchedHash = true := by
  rw [State.scratchHeld, Bool.and_eq_true, beq_iff_eq]

theorem dataHeld_eq_true (s : State) : s.dataHeld = true ↔ s.phase = .run ∧ s.latched = some .hash := by
  rw [State.dataHeld, Bool.and_eq_true, beq_iff_eq, beq_iff_eq]

/-- The access meets the scratch window of a running hash command. -/
def State.meetsScratch (s : State) (addr : BitVec 64) (n : Nat) : Prop :=
  s.phase = .run ∧ s.latchedHash = true ∧ overlap addr.toNat n s.scratchAddr.toNat (2 ^ 21)

/-- The access meets the data window of a running HASH. -/
def State.meetsData (s : State) (addr : BitVec 64) (n : Nat) : Prop :=
  s.phase = .run ∧ s.latched = some .hash ∧ overlap addr.toNat n s.dataAddr.toNat s.dataLen.toNat

section
variable {s : State} {addr : BitVec 64} {n : Nat}

theorem meetsScratch_iff :
    s.meetsScratch addr n ↔ (s.scratchHeld && s.scratchWindow.touches addr.toNat n) = true := by
  rw [Bool.and_eq_true, scratchHeld_eq_true, touches_eq_true, and_assoc]
  rfl

theorem meetsData_iff : s.meetsData addr n ↔ (s.dataHeld && s.dataWindow.touches addr.toNat n) = true := by
  rw [Bool.and_eq_true, dataHeld_eq_true, touches_eq_true, and_assoc]
  rfl

/-! What an access below 2^64 runs into (R87): the scratch window is looked at first (log 24). -/

theorem accessFault_scratch (hfit : addr.toNat + n ≤ 2 ^ 64) (h : s.meetsScratch addr n) (isWrite : Bool) :
    s.accessFault addr n isWrite = some .scratchRace := by
  rw [State.accessFault, if_neg (by omega), if_pos (meetsScratch_iff.mp h)]

theorem accessFault_data (hfit : addr.toNat + n ≤ 2 ^ 64) (h : ¬ s.meetsScratch addr n) (hd : s.meetsData addr n) :
    s.accessFault addr n true = some .dataRace := by
  rw [State.accessFault, if_neg (by omega), if_neg (mt meetsScratch_iff.mpr h), Bool.true_and,
    if_pos (meetsData_iff.mp hd)]

theorem accessFault_read (hfit : addr.toNat + n ≤ 2 ^ 64) (h : ¬ s.meetsScratch addr n) :
    s.accessFault addr n false = none := by
  rw [State.accessFault, if_neg (by omega), if_neg (mt meetsScratch_iff.mpr h), Bool.false_and, Bool.false_and,
    if_neg Bool.false_ne_true]

theorem accessFault_write (hfit : addr.toNat + n ≤ 2 ^ 64) (h : ¬ s.meetsScratch addr n)
    (hd : ¬ s.meetsData addr n) : s.accessFault addr n true = none := by
  rw [State.accessFault, if_neg (by omega), if_neg (mt meetsScratch_iff.mpr h), Bool.true_and,
    if_neg (mt meetsData_iff.mpr hd)]

/-- A read of memory that runs into nothing returns its bytes (R76). -/
theorem takes_hostRead_memory (hs : s.Good) (hm : s.inMemory addr n) (h : ¬ s.meetsScratch addr n) :
    s.Takes (.hostRead addr n) { s with response := some (.bytes (s.mem.readBytes addr n)) } := by
  intro rest
  have hf : State.accessFault { s with events := rest } addr n false = none :=
    accessFault_read hm.2.1 h
  rw [step_event hs, State.eventStep, State.busRead, reachesRegisters_of_inMemory (s := { s with events := rest }) hm, hf]
  rfl

/-- A write of memory that runs into nothing writes its bytes (R77). -/
theorem takes_hostWrite_memory {data : List Byte} (hs : s.Good) (hm : s.inMemory addr data.length)
    (h : ¬ s.meetsScratch addr data.length) (hd : ¬ s.meetsData addr data.length) :
    s.Takes (.hostWrite addr data) { s with mem := s.mem.writeBytes addr data } := by
  intro rest
  have hf : State.accessFault { s with events := rest } addr data.length true = none :=
    accessFault_write hm.2.1 h hd
  rw [step_event hs, State.eventStep, State.busWrite, reachesRegisters_of_inMemory (s := { s with events := rest }) hm, hf]
  rfl

theorem faultsOn_hostRead_memory {f : Fault} (hs : s.Good) (hm : s.inMemory addr n)
    (h : s.accessFault addr n false = some f) : s.FaultsOn (.hostRead addr n) f := by
  intro rest
  have hf : State.accessFault { s with events := rest } addr n false = some f := h
  rw [step_event hs, State.eventStep, State.busRead, reachesRegisters_of_inMemory (s := { s with events := rest }) hm, hf]
  rfl

theorem faultsOn_hostWrite_memory {data : List Byte} {f : Fault} (hs : s.Good) (hm : s.inMemory addr data.length)
    (h : s.accessFault addr data.length true = some f) : s.FaultsOn (.hostWrite addr data) f := by
  intro rest
  have hf : State.accessFault { s with events := rest } addr data.length true = some f := h
  rw [step_event hs, State.eventStep, State.busWrite, reachesRegisters_of_inMemory (s := { s with events := rest }) hm, hf]
  rfl

end

/-- Byte `k` of a read of memory that does not pass 2^64 - 1 is the byte at `addr + k` (R76). -/
theorem getElem?_readBytes (m : Memory) {addr : BitVec 64} {n k : Nat} (hfit : addr.toNat + n ≤ 2 ^ 64) (hk : k < n) :
    (m.readBytes addr n)[k]? = some (m.read (addr.toNat + k)) := by
  rw [List.getElem?_eq_getElem (by rwa [m.readBytes_length]), m.getElem_readBytes addr n k hk, BitVec.toNat_add,
    BitVec.toNat_ofNat, Nat.mod_eq_of_lt (a := k) (by omega), Nat.mod_eq_of_lt (by omega)]

/-- What every address reads as after a write that does not pass 2^64 - 1 (R77). -/
theorem read_writeBytes_of_fits {m : Memory} (hm : m.wf) {addr : BitVec 64} {data : List Byte}
    (hfit : addr.toNat + data.length ≤ 2 ^ 64) {x : Nat} (hx : x < 2 ^ 64) :
    (m.writeBytes addr data).read x =
      if addr.toNat ≤ x ∧ x < addr.toNat + data.length then data.getD (x - addr.toNat) 0 else m.read x := by
  have hoff := addrOffset_eq addr x hx
  have ha := addr.isLt
  rw [Memory.read_writeBytes hm addr data (by omega) hx]
  split
  · next h =>
    have he : addrOffset addr x = x - addr.toNat := by omega
    rw [he, List.getD_eq_getElem?_getD, List.getElem?_eq_getElem (by omega), Option.getD_some, Option.getD_some]
  · next h => rw [List.getElem?_eq_none (by omega), Option.getD_none]

/-- Settles O19: an access that is no race goes to memory, byte for byte. -/
theorem hostMemoryAccessReadsAndWritesItsBytes : Obligations.HostMemoryAccessReadsAndWritesItsBytes := by
  intro s addr n hs hwf hm hscr
  have hS : ¬ s.meetsScratch addr n := fun ⟨hp, hl, ho⟩ => hscr hp hl ho
  refine ⟨⟨_, takes_hostRead_memory hs hm hS, Memory.readBytes_length .., fun k hk =>
    getElem?_readBytes _ hm.2.1 hk⟩, ?_⟩
  rintro data rfl hdata
  have hD : ¬ s.meetsData addr data.length := fun ⟨hp, hl, ho⟩ => hdata hp hl ho
  exact ⟨_, takes_hostWrite_memory hs hm hS hD, Memory.writeBytes_wf hwf addr data, fun x hx =>
    read_writeBytes_of_fits hwf hm.2.1 hx⟩

/-- Settles O20: an access to the scratch window is a race, else a write to the data window is one. -/
theorem racesAreFaults : Obligations.RacesAreFaults := by
  intro s addr data hs hp hm
  have hfit := hm.2.1
  refine ⟨fun hl ho => ?_, fun hl ho hns => ?_⟩
  · have hS : s.meetsScratch addr data.length := ⟨hp, hl, ho⟩
    exact ⟨faultsOn_hostRead_memory hs hm (accessFault_scratch hfit hS false),
      faultsOn_hostWrite_memory hs hm (accessFault_scratch hfit hS true)⟩
  · have hS : ¬ s.meetsScratch addr data.length := fun h => hns h.2.2
    exact ⟨faultsOn_hostWrite_memory hs hm (accessFault_data hfit hS ⟨hp, hl, ho⟩),
      _, takes_hostRead_memory hs hm hS⟩

end Sys2Proof.Machine
end

section
/-! PROOFS. The table cache: its lanes, its barrier, the command held until the release, and early reads (20_memory.md R90
to R93; 00_scope.md R25; 60_exceptions.md R288). -/

namespace Sys2Proof.Machine

/-! The barrier. -/

theorem allArrived_iff (s : State) :
    s.allArrived = true ↔ ∀ l, l < s.platform.groupLanes → s.arrived l = true := by
  rw [State.allArrived, List.all_eq_true]
  simp only [List.mem_range]

theorem release_of_enabled {s : State} (hp : s.phase = .tcfill) (ha : s.allArrived = true) :
    s.release = { s with tcValid := true, phase := if s.status.busy then .run else .idle } := by
  rw [State.release, if_pos ⟨hp, ha⟩]

theorem release_of_not_enabled {s : State} (h : ¬ (s.phase = .tcfill ∧ s.allArrived = true)) : s.release = s := by
  rw [State.release, if_neg h]

theorem takes_barrier_of_enabled {s : State} (hs : s.Good) (hp : s.phase = .tcfill) (ha : s.allArrived = true) :
    s.Takes .barrier { s with tcValid := true, phase := if s.status.busy then .run else .idle } := fun rest =>
  (step_event hs ..).trans <| congrArg Host.Outcome.next <|
    release_of_enabled (s := { s with events := rest }) hp ha

theorem takes_barrier_of_not_enabled {s : State} (hs : s.Good) (h : ¬ (s.phase = .tcfill ∧ s.allArrived = true)) :
    s.Takes .barrier s := fun rest =>
  (step_event hs ..).trans <| congrArg Host.Outcome.next <| release_of_not_enabled (s := { s with events := rest }) h

/-- After the release no move but a reset writes TC or TC_VALID (R91). -/
theorem Move.keeps_released {s t : State} {ev : Option Event} (h : Move s ev t) (hp : s.phase ≠ .tcfill)
    (hr : ev ≠ some .reset) : t.tcValid = s.tcValid ∧ t.tc = s.tc := by
  cases h with
  | hashPart _ _ _ hf _ => exact ⟨hf.tc.2, hf.tc.1⟩
  | hashTickEnd _ _ _ he | hashExec _ _ _ _ he | hashRest _ _ _ _ he =>
    simp only [(onlyHashEffects_iff s t).mp he.regs, and_self]
  | copyEntry _ hf | arrive _ hf | copyShare hf | release hf => exact absurd hf hp
  | reset => exact absurd rfl hr
  | stay | respond | illegal | ended | setkeyEnc | setkeyDec | block | ctrl | status | overrun | held | refusedWord
  | accepted | dataAddr | dataLen | scratchAddr | key | din | rkey | stateBuf | memory => exact ⟨rfl, rfl⟩

/-- Once TC is released PHASE is never TCFILL. -/
theorem State.CacheInv.phase_of_released {s : State} (hs : s.CacheInv) (hc : s.platform.tcache = true)
    (hv : s.tcValid = true) : s.phase ≠ .tcfill := fun hp => by
  rw [(hs.phase hc).mp hp] at hv
  cases hv

/-- Settles O26: the release's guard is TCFILL with every lane arrived, and TC is written in TCFILL alone. -/
theorem barrierReleasesWhenAllLanesArrived : Obligations.BarrierReleasesWhenAllLanesArrived := by
  refine ⟨fun s hs hp => ⟨fun ha => takes_barrier_of_enabled hs hp ((allArrived_iff s).mpr ha), ?_⟩,
    fun s hs hp => takes_barrier_of_not_enabled hs fun h => hp h.1, fun s t h hs hc hv hr => ?_⟩
  · rintro ⟨l, hl, ha⟩
    refine takes_barrier_of_not_enabled hs fun h => ?_
    have := (allArrived_iff s).mp h.2 l hl
    rw [ha] at this
    cases this
  · have hp := hs.phase_of_released hc hv
    rw [← hv]
    obtain ⟨-, ⟨-, hm⟩ | ⟨ev, rest, he, hm⟩⟩ := step_moves h
    · exact hm.keeps_released hp nofun
    · refine hm.keeps_released hp ?_
      rintro ⟨⟩
      exact hr ⟨rest, he⟩

/-! The lanes. -/

/-- The tables with one entry copied from the ROM. -/
def State.withEntryCopied (s : State) (t : TableId) (e : Nat) : State :=
  { s with tc := copySlots (fun t' e' => t' == t && e' == e) rom s.tc }

/-- Outside population no step of a lane is enabled (R25, R288; log 18). -/
theorem laneStep_outside {s : State} (hp : s.phase ≠ .tcfill) (l : Nat) (action : LaneAction) :
    s.laneStep l action = .next s := by
  unfold State.laneStep
  split
  · cases action with
    | copy t e => exact congrArg _ (if_neg fun h => hp h.1)
    | arrive => exact congrArg _ (if_neg fun h => hp h.1)
    | lookup t e => exact if_neg fun h => hp h.1
  · rfl

section
variable {s : State} {l : Nat} (hl : s.hasLane l = true)
include hl

/-- A lane that has not arrived copies an entry of its share (R90). -/
theorem laneStep_copy {t : TableId} {e : Nat} (hp : s.phase = .tcfill) (ha : s.arrived l = false)
    (he : laneShare s.platform l t e = true) : s.laneStep l (.copy t e) = .next (s.withEntryCopied t e) := by
  unfold State.laneStep
  rw [if_pos hl]
  exact congrArg _ (if_pos ⟨hp, ha, he⟩)

theorem laneStep_copy_of_other_share {t : TableId} {e : Nat} (he : ¬ laneShare s.platform l t e = true) :
    s.laneStep l (.copy t e) = .next s := by
  unfold State.laneStep
  rw [if_pos hl]
  exact congrArg _ (if_neg fun h => he h.2.2)

/-- A lane whose share is copied arrives (R90). -/
theorem laneStep_arrive (hp : s.phase = .tcfill) (hc : s.shareCopied l = true) :
    s.laneStep l .arrive = .next { s with tcArrived := s.tcArrived.set l true } := by
  unfold State.laneStep
  rw [if_pos hl]
  exact congrArg _ (if_pos ⟨hp, hc⟩)

theorem laneStep_arrive_of_not_copied (hc : ¬ s.shareCopied l = true) : s.laneStep l .arrive = .next s := by
  unfold State.laneStep
  rw [if_pos hl]
  exact congrArg _ (if_neg fun h => hc h.2)

/-- A lane's read of a slot before the release (R92). -/
theorem laneStep_lookup {t : TableId} {e : Nat} (hp : s.phase = .tcfill) (hv : s.tcValid = false)
    (ht : (tableSlot s.tc t e).isSome = true) : s.laneStep l (.lookup t e) = .fault .tcacheHazard := by
  unfold State.laneStep
  rw [if_pos hl]
  exact if_pos ⟨hp, hv, ht⟩

end

/-- A step of a lane that does not look at the queue, as the next event. -/
theorem takes_lane {s t : State} {l : Nat} {action : LaneAction} (hs : s.Good)
    (h : ∀ rest, State.laneStep { s with events := rest } l action = .next { t with events := rest }) :
    s.Takes (.lane l action) t := fun rest => (step_event hs ..).trans (h rest)

theorem takes_lane_outside {s : State} (hs : s.Good) (hp : s.phase ≠ .tcfill) (l : Nat) (action : LaneAction) :
    s.Takes (.lane l action) s :=
  takes_lane hs fun rest => laneStep_outside (s := { s with events := rest }) hp l action

theorem laneShare_eq_true {p : Platform} {l e : Nat} (t : TableId) :
    laneShare p l t e = true ↔ e % p.groupLanes = l := by
  rw [laneShare, beq_iff_eq]

theorem hasLane_eq_true {s : State} {l : Nat} (hc : s.platform.tcache = true) (hl : l < s.platform.groupLanes) :
    s.hasLane l = true := by
  rw [State.hasLane, hc, Bool.true_and, decide_eq_true hl]

/-- A lane's copy writes TC alone. -/
theorem withEntryCopied_frame (s : State) (t : TableId) (e : Nat) : { s.withEntryCopied t e with tc := s.tc } = s := by
  simp only [State.withEntryCopied]

/-- A copied entry is the ROM's (R90). -/
theorem tableSlot_withEntryCopied (s : State) (t : TableId) (e : Nat) :
    tableSlot (s.withEntryCopied t e).tc t e = tableSlot rom t e := by
  rw [State.withEntryCopied, tableSlot_copySlots, if_pos (by simp)]

/-- Every other entry stays as it was. -/
theorem tableSlot_withEntryCopied_other (s : State) {t t' : TableId} {e e' : Nat} (h : (t', e') ≠ (t, e)) :
    tableSlot (s.withEntryCopied t e).tc t' e' = tableSlot s.tc t' e' := by
  rw [State.withEntryCopied, tableSlot_copySlots, if_neg (by simpa using h)]

/-- Settles O27: the guards of a lane's copy and of its arrival. -/
theorem lanesCopyTheirShareThenArrive : Obligations.LanesCopyTheirShareThenArrive := by
  refine ⟨fun s l action hs hp => takes_lane_outside hs hp l action, fun s l hs hc hp hlt => ?_⟩
  have hl := hasLane_eq_true hc hlt
  refine ⟨fun t e ha he => ⟨s.withEntryCopied t e, ?_, withEntryCopied_frame s t e,
      tableSlot_withEntryCopied s t e, fun t' e' h => tableSlot_withEntryCopied_other s h⟩, fun t e he => ?_, fun h => ?_, ?_⟩
  · exact takes_lane hs fun rest =>
      laneStep_copy (s := { s with events := rest }) hl hp ha ((laneShare_eq_true t).mpr he)
  · exact takes_lane hs fun rest =>
      laneStep_copy_of_other_share (s := { s with events := rest }) hl fun h => he ((laneShare_eq_true t).mp h)
  · exact takes_lane hs fun rest =>
      laneStep_arrive (s := { s with events := rest }) hl hp ((shareCopied_iff s l).mpr h)
  · rintro ⟨t, e, he, hne⟩
    exact takes_lane hs fun rest =>
      laneStep_arrive_of_not_copied (s := { s with events := rest }) hl fun h =>
        hne ((shareCopied_iff s l).mp h t e he)

/-! A command held in population. -/

/-- A command that is held stays held, with its registers, until the release (R93). -/
def State.HoldsOver (s t : State) : Prop :=
  t.status.busy = true ∧ t.cmdl = s.cmdl ∧ t.dout = s.dout ∧ t.digest = s.digest ∧ t.stateBuf = s.stateBuf ∧
    t.rounds = s.rounds ∧ t.key = s.key ∧ t.din = s.din ∧ t.rkey = s.rkey ∧ t.dataAddr = s.dataAddr ∧
    t.dataLen = s.dataLen ∧ t.scratchAddr = s.scratchAddr ∧ t.ek = s.ek ∧ t.dk = s.dk ∧ t.heldMem = s.heldMem ∧
    (t.phase = .tcfill ∨
      (t.phase = .run ∧ t.tcValid = true ∧ ∀ l, l < s.platform.groupLanes → s.arrived l = true))

theorem Move.holdsOver {s t : State} {ev : Option Event} (h : Move s ev t) (hp : s.phase = .tcfill)
    (hb : s.status.busy = true) (hr : ev ≠ some .reset) : s.HoldsOver t := by
  cases h with
  | stay | respond | copyEntry | arrive | copyShare | ctrl | status | overrun | memory =>
    exact ⟨hb, rfl, rfl, rfl, rfl, rfl, rfl, rfl, rfl, rfl, rfl, rfl, rfl, rfl, rfl, .inl hp⟩
  | release _ ha =>
    exact ⟨hb, rfl, rfl, rfl, rfl, rfl, rfl, rfl, rfl, rfl, rfl, rfl, rfl, rfl, rfl,
      .inr ⟨if_pos hb, rfl, (allArrived_iff s).mp ha⟩⟩
  | illegal hp' | ended _ hp' | setkeyEnc hp' | setkeyDec hp' | block _ hp' | hashPart hp' | hashTickEnd hp'
  | hashExec hp' | hashRest hp' => simp [hp] at hp'
  | held _ hb' | refusedWord _ hb' | accepted _ hb' | dataAddr _ hb' | dataLen _ hb' | scratchAddr _ hb' | key _ hb'
  | din _ hb' | rkey _ hb' | stateBuf _ hb' => simp [hb] at hb'
  | reset => exact absurd rfl hr

/-- Settles O9: in TCFILL no command moves, BUSY loses every write to an operand register, and only the release leaves
the phase. -/
theorem heldCommandWaitsForTheRelease : Obligations.HeldCommandWaitsForTheRelease := by
  intro s t h hp hb hr
  obtain ⟨-, ⟨-, hm⟩ | ⟨ev, rest, he, hm⟩⟩ := step_moves h
  · exact hm.holdsOver hp hb nofun
  · refine hm.holdsOver hp hb ?_
    rintro ⟨⟩
    exact hr ⟨rest, he⟩

/-! Early reads. -/

theorem isSome_getElem?_vector {α : Type} {n : Nat} (u v : Vector α n) (e : Nat) : u[e]?.isSome = v[e]?.isSome := by
  by_cases h : e < n
  · rw [Vector.getElem?_eq_getElem h, Vector.getElem?_eq_getElem h, Option.isSome_some, Option.isSome_some]
  · rw [Vector.getElem?_eq_none (by omega), Vector.getElem?_eq_none (by omega)]

/-- Any two lookup-table sets have the same slots. -/
theorem isSome_tableSlot (A B : LookupTables) (t : TableId) (e : Nat) :
    (tableSlot A t e).isSome = (tableSlot B t e).isSome := by
  cases t
  case td4 =>
    rw [tableSlot, tableSlot, Option.isSome_map, Option.isSome_map]
    exact isSome_getElem?_vector ..
  all_goals exact isSome_getElem?_vector ..

/-- With the cache right, a machine in RUN has good tables (R92, R93). -/
theorem State.CacheInv.tablesGood {s : State} (hs : s.CacheInv) (hp : s.phase = .run) : s.TablesGood := fun hc => by
  have hv : s.tcValid = true := by
    by_contra hv
    have := (hs.phase hc).mpr (by simpa using hv)
    simp [hp] at this
  exact ⟨hv, hs.valid hc hv⟩

theorem writeDout_ne_hazard {s : State} (ht : s.tablesReady = true) (f : LookupTables → Block → Block) :
    s.writeDout f ≠ .fault .tcacheHazard := by
  rw [State.writeDout, if_pos ht]
  nofun

/-- A hash command raises the hazard only where tables are not ready. -/
theorem RestSound.ne_hazard {s : State} {o : Host.Outcome State Fault Refusal} (h : RestSound s o)
    (ht : s.tablesReady = true) : o ≠ .fault .tcacheHazard := by
  rintro rfl
  obtain ⟨hf, -⟩ | ⟨-, hf⟩ := h
  · cases hf
  · rw [ht] at hf
    cases hf

theorem EngineResult.Sound.ne_hazard {s : State} {r : EngineResult} (h : r.Sound s) (ht : s.tablesReady = true) :
    r.outcome ≠ .fault .tcacheHazard := by
  cases r with
  | more t => nofun
  | ended t => nofun
  | fault f =>
    intro hf
    obtain rfl := Host.Outcome.fault.inj hf
    exact RestSound.ne_hazard (o := .fault .tcacheHazard) h ht rfl

/-- A command whose tables are ready raises no hazard. -/
theorem exec_ne_hazard {s : State} (ht : s.tablesReady = true) (i : Instr) : exec i s ≠ .fault .tcacheHazard := by
  have hrest (c : HashKind) : exec c.instr s ≠ .fault .tcacheHazard := by
    rw [exec_instr]
    exact (sound_runCheck c (s.enter .check)).ne_hazard ht
  cases i with
  | nop => nofun
  | setkeyEnc k =>
    simp only [exec, execSetkeyEnc, ht, if_true]
    split <;> nofun
  | setkeyDec k =>
    simp only [exec, execSetkeyDec, ht, if_true]
    split <;> nofun
  | encrypt =>
    rw [exec, execEncrypt]
    split
    · exact writeDout_ne_hazard ht _
    · nofun
  | decrypt =>
    rw [exec, execDecrypt]
    split
    · exact writeDout_ne_hazard ht _
    · nofun
  | aesRound =>
    rw [exec, execAesRound]
    exact writeDout_ne_hazard ht _
  | hashCore => exact hrest .core
  | hash => exact hrest .full

theorem runCommand_ne_hazard {s : State} (ht : s.tablesReady = true) : s.runCommand ≠ .fault .tcacheHazard := by
  unfold State.runCommand
  split
  · nofun
  · next i _ =>
    split
    · exact exec_ne_hazard ht i
    · split
      · next c _ => exact (sound_engineRun c s).ne_hazard ht
      · exact exec_ne_hazard ht i

theorem tickCommand_ne_hazard {s : State} (ht : s.tablesReady = true) : s.tickCommand ≠ .fault .tcacheHazard := by
  unfold State.tickCommand
  split
  · nofun
  · next i _ =>
    split
    · next c _ => exact (sound_engineTick c s).ne_hazard ht
    · exact exec_ne_hazard ht i

/-- No move of the block or of its sequencer with the tables ready raises the hazard. -/
theorem blockStep_ne_hazard {s : State} (ht : s.tablesReady = true) : s.blockStep ≠ .fault .tcacheHazard := by
  unfold State.blockStep
  split
  · nofun
  · exact runCommand_ne_hazard ht
  · nofun

theorem sequencerStep_ne_hazard {s : State} (ht : s.tablesReady = true) : s.sequencerStep ≠ .fault .tcacheHazard := by
  unfold State.sequencerStep
  split
  · nofun
  · exact tickCommand_ne_hazard ht
  · nofun

/-- Settles O28: TC_VALID is 0 exactly in TCFILL, where no command runs, and a released TC is the ROM. -/
theorem earlyTableReadIsAHazard : Obligations.EarlyTableReadIsAHazard := by
  refine ⟨fun s l t e w hs hc hlt hw hcache => ⟨fun hv => ?_, fun hv => ⟨?_, ?_⟩⟩, fun s hcache hp => ?_⟩
  · have ht : (tableSlot s.tc t e).isSome = true := by rw [isSome_tableSlot s.tc rom, hw, Option.isSome_some]
    exact fun rest => (step_event hs ..).trans <|
      laneStep_lookup (s := { s with events := rest }) (hasLane_eq_true hc hlt) ((hcache.phase hc).mpr hv) hv ht
  · rw [hcache.valid hc hv, hw]
  · exact takes_lane_outside hs (hcache.phase_of_released hc hv) l _
  · have hT := hcache.tablesGood hp
    have ht := tablesReady_eq_true hT
    refine ⟨tables_eq_rom hT, fun ev rest hs he => ?_⟩
    obtain he | ⟨he, rfl⟩ := he
    · rw [step_of_no_event hs he]
      exact blockStep_ne_hazard ht
    · rw [step_of_event hs he]
      exact sequencerStep_ne_hazard (s := { s with events := rest }) ht

end Sys2Proof.Machine
end

section
/-! PROOFS. The command word (30_encoding.md R104 to R106, R110, R113): decoding inverts encoding, and a word is Illegal
exactly when a check of its fields fails. -/

namespace Sys2Proof

/-- Decoding an encoded command gives it back (R104 to R106). -/
@[simp] theorem decode_encode (i : Instr) : decode (encode i) = .ok i := by
  cases i with
  | setkeyEnc k | setkeyDec k => cases k <;> rfl
  | nop | encrypt | decrypt | aesRound | hashCore | hash => rfl

/-- No bit of KSZ is dropped (R105). -/
theorem code_decodeKeySize : ∀ k : BitVec 2, (decodeKeySize k).code = k := by decide

/-- A word fails to decode exactly when its fields fail a check (R110). -/
theorem decode_error_iff (w : Word) : (∃ e, decode w = .error e) ↔ (splitWord w).wellFormed = false := by
  unfold decode
  generalize splitWord w = f
  simp only [CommandFields.wellFormed]
  cases f.reservedClear
  · simp
  cases f.opcodeKnown
  · simp
  cases f.keySizeAllowed
  · simp
  · simp only [Bool.not_true, Bool.false_eq_true, if_false, Bool.and_self, reduceCtorEq, iff_false]
    rintro ⟨e, he⟩
    split_ifs at he

theorem wellFormed_of_decode {w : Word} {i : Instr} (h : decode w = .ok i) : (splitWord w).wellFormed = true := by
  rw [← Bool.not_eq_false, ← decode_error_iff, h]
  nofun

/-- The checks passed, as equations on the fields (R110). -/
theorem wellFormed_iff (f : CommandFields) :
    f.wellFormed = true ↔ f.rsv = 0 ∧ f.opc.toNat ≤ 7 ∧ (f.ksz = 0 ∨ f.opc = 1 ∨ f.opc = 2) := by
  simp [CommandFields.wellFormed, CommandFields.reservedClear, CommandFields.opcodeKnown,
    CommandFields.keySizeAllowed, and_assoc, or_assoc]

/-- The fields of a legal word, by its opcode (R105). -/
theorem fields_of_opc {f : CommandFields} (hf : f.wellFormed = true) {o : BitVec 8} (ho : f.opc = o) :
    f = ⟨o, (decodeKeySize f.ksz).code, 0⟩ := by
  obtain ⟨hrsv, -, -⟩ := (wellFormed_iff f).mp hf
  rw [code_decodeKeySize, ← ho, ← hrsv]

/-- On an opcode that takes no key size KSZ is 0 (R110). -/
theorem fields_of_opc_no_size {f : CommandFields} (hf : f.wellFormed = true) {o : BitVec 8} (ho : f.opc = o)
    (h1 : o ≠ 1) (h2 : o ≠ 2) : f = ⟨o, 0, 0⟩ := by
  obtain ⟨hrsv, -, hksz⟩ := (wellFormed_iff f).mp hf
  subst ho
  rw [← hrsv, ← hksz.resolve_right fun h => h.elim h1 h2]

/-- The fields of a word that decodes to a command are the command's (R105, R106). -/
theorem splitWord_of_decode {w : Word} {i : Instr} (h : decode w = .ok i) : splitWord w = i.fields := by
  have hf := wellFormed_of_decode h
  obtain ⟨-, hopc, -⟩ := (wellFormed_iff _).mp hf
  have hchecks := hf
  simp only [CommandFields.wellFormed, Bool.and_eq_true] at hchecks
  simp only [decode, hchecks, Bool.not_true, Bool.false_eq_true, if_false] at h
  generalize splitWord w = f at *
  split_ifs at h with h0 h1 h2 h3 h4 h5 h6 <;> cases h
  · exact fields_of_opc_no_size hf h0 nofun nofun
  · exact fields_of_opc hf h1
  · exact fields_of_opc hf h2
  · exact fields_of_opc_no_size hf h3 nofun nofun
  · exact fields_of_opc_no_size hf h4 nofun nofun
  · exact fields_of_opc_no_size hf h5 nofun nofun
  · exact fields_of_opc_no_size hf h6 nofun nofun
  · exact fields_of_opc_no_size hf (o := 7) (by bv_omega) nofun nofun

/-- Settles O1: the fields of a decoded word are its command's, and a word is made of its fields. -/
theorem decodeAndEncodeAgree : Obligations.DecodeAndEncodeAgree :=
  ⟨decode_encode, fun w i h => by rw [encode, ← splitWord_of_decode h, joinWord_splitWord]⟩

theorem decode_eq_ok_iff (w : Word) (i : Instr) : decode w = .ok i ↔ w = encode i := by
  obtain ⟨-, hw⟩ := decodeAndEncodeAgree
  exact ⟨hw w i, fun h => h ▸ decode_encode i⟩

/-- The three cases of R110, as R104 numbers the bits. -/
theorem decode_error_iff_bits (w : Word) :
    (∃ e, decode w = .error e) ↔
      8 ≤ (w.extractLsb' 0 8).toNat ∨ w.extractLsb' 10 22 ≠ 0 ∨
        (w.extractLsb' 8 2 ≠ 0 ∧ w.extractLsb' 0 8 ≠ 1 ∧ w.extractLsb' 0 8 ≠ 2) := by
  have hopc : 8 ≤ (w.extractLsb' 0 8).toNat ↔ ¬ (w.extractLsb' 0 8).toNat ≤ 7 := Nat.not_le.symm
  rw [decode_error_iff, ← Bool.not_eq_true, wellFormed_iff, hopc]
  simp only [splitWord]
  tauto

end Sys2Proof

namespace Sys2Proof.Machine

/-- R113's table is the graph of `encode`. -/
theorem mem_legalWords (w : Word) (i : Instr) : (w, i) ∈ legalWords ↔ w = encode i := by
  cases i with
  | setkeyEnc k | setkeyDec k => cases k <;> simp [legalWords] <;> rfl
  | nop | encrypt | decrypt | aesRound | hashCore | hash => simp [legalWords]; rfl

/-- A word that is no command's encoding is Illegal. -/
theorem decode_error_of_not_legal {w : Word} (h : ∀ i, (w, i) ∉ legalWords) : ∃ e, decode w = .error e := by
  cases hd : decode w with
  | error e => exact ⟨e, rfl⟩
  | ok i => exact absurd ((mem_legalWords w i).mpr ((decode_eq_ok_iff w i).mp hd)) (h i)

/-- Settles O2: R113's table lists the fourteen encodings, and the unsupported size has no key length. -/
theorem legalWordsAreTheFourteen : Obligations.LegalWordsAreTheFourteen :=
  ⟨fun w i => (decode_eq_ok_iff w i).trans (mem_legalWords w i).symm, fun _ => decode_error_of_not_legal,
    fun _ => ⟨⟨_, rfl, rfl, rfl, rfl, rfl, rfl⟩, ⟨_, rfl, rfl, rfl, rfl, rfl, rfl⟩⟩⟩

/-- Settles O4: the decoder computes each. -/
theorem wordsWrittenFromTheSpecDecode : Obligations.WordsWrittenFromTheSpecDecode :=
  ⟨rfl, rfl, rfl, rfl, rfl, rfl, rfl, rfl, rfl, rfl, rfl⟩

end Sys2Proof.Machine
end

section
/-! PROOFS. Acceptance, Illegal words, and the latched command in RUN (30_encoding.md R108 to R110; 20_memory.md R93;
60_exceptions.md R271, R272). -/

namespace Sys2Proof.Machine

/-! What a command request does, outcome by outcome. -/

section

variable {s : State} {w : Word}

theorem commandRequest_of_busy (hb : s.status.busy = true) :
    s.commandRequest w = { s with status := s.status.overrun } := by
  rw [State.commandRequest, if_pos hb]

theorem commandRequest_in_population (hb : s.status.busy = false) (hp : s.phase = .tcfill) :
    s.commandRequest w =
      { s with cmdl := w, status := s.status.accepted, seq := .start, heldMem := some s.mem } := by
  rw [State.commandRequest, if_neg (by simp [hb]), if_pos hp]

theorem commandRequest_of_error {e : DecodeError} (hb : s.status.busy = false) (hp : s.phase ≠ .tcfill)
    (hd : decode w = .error e) :
    s.commandRequest w =
      { s with cmdl := w, status := s.status.ended 3, phase := .idle, seq := .start, heldMem := none } := by
  simp [State.commandRequest, hb, hp, hd, State.finish, Status.finished, Status.accepted, Status.ended]

theorem commandRequest_of_ok {i : Instr} (hb : s.status.busy = false) (hp : s.phase ≠ .tcfill)
    (hd : decode w = .ok i) :
    s.commandRequest w =
      { s with cmdl := w, status := s.status.accepted, phase := .run, seq := .start, heldMem := none } := by
  simp [State.commandRequest, hb, hp, hd]

/-- A write to CMD is a command request (R102). -/
theorem writes_cmd {t : State} (hs : s.Good)
    (h : ∀ rest, State.commandRequest { s with events := rest } w = { t with events := rest }) : s.Writes 0x010 w t :=
  s.writes_of ⟨by decide, rfl⟩ hs h

/-! The block and its sequencer in RUN. -/

theorem blockStep_of_run (hp : s.phase = .run) : s.blockStep = s.runCommand := by
  rw [State.blockStep, hp]

theorem sequencerStep_of_run (hp : s.phase = .run) : s.sequencerStep = s.tickCommand := by
  rw [State.sequencerStep, hp]

theorem runCommand_of_error {e : DecodeError} (hd : decode s.cmdl = .error e) : s.runCommand = .next (s.finish 3) := by
  rw [State.runCommand, hd]

theorem tickCommand_of_error {e : DecodeError} (hd : decode s.cmdl = .error e) :
    s.tickCommand = .next (s.finish 3) := by
  rw [State.tickCommand, hd]

theorem runCommand_of_check {i : Instr} (hd : decode s.cmdl = .ok i) (hg : s.seq.stage = .check) :
    s.runCommand = exec i s := by
  simp only [State.runCommand, hd, hg, if_true]

theorem tickCommand_of_no_hash {i : Instr} (hd : decode s.cmdl = .ok i) (hi : hashKind i = none) :
    s.tickCommand = exec i s := by
  simp only [State.tickCommand, hd, hi]

/-- A step in RUN with no event pending, at the start of a rule. -/
theorem step_of_running {i : Instr} (hs : s.Running i .check) (he : s.events = []) : step s = exec i s := by
  obtain ⟨hf, hp, hd, hg⟩ := hs
  rw [step_of_no_event hf he, blockStep_of_run hp, runCommand_of_check hd hg]

end

theorem hashKind_eq_none {i : Instr} (h : ∀ c : HashKind, i ≠ c.instr) : hashKind i = none := by
  cases hk : hashKind i with
  | none => rfl
  | some c => exact absurd (hashKind_eq_some hk) (h c)

/-- Settles O5: from the start of a rule the block runs `exec`, and so does the sequencer for a command of one step. -/
theorem stepRunsTheLatchedCommand : Obligations.StepRunsTheLatchedCommand := by
  refine ⟨fun _ _ hs he => step_of_running hs he, fun s i g rest hs hi he => ?_⟩
  obtain ⟨hf, hp, hd, -⟩ := hs
  rw [step_of_event hf he]
  exact (sequencerStep_of_run (s := { s with events := rest }) hp).trans
    (tickCommand_of_no_hash hd (hashKind_eq_none hi))

/-- Settles O3: a word fails to decode by R110's cases; a command request completes, or in TCFILL holds, an Illegal one,
and a held one completes when it runs. -/
theorem illegalWordsCompleteWithErrorThree : Obligations.IllegalWordsCompleteWithErrorThree := by
  refine ⟨decode_error_iff_bits, fun s w e hs hb hd => ⟨fun hp => ?_, fun hp => ?_⟩,
    fun s e hs hp hd => ⟨fun he => ?_, fun rest => ?_⟩⟩
  · exact writes_cmd hs fun rest => commandRequest_of_error (s := { s with events := rest }) hb hp hd
  · exact writes_cmd hs fun rest => commandRequest_in_population (s := { s with events := rest }) hb hp
  · rw [step_of_no_event hs he, blockStep_of_run hp, runCommand_of_error hd]
    rfl
  · rw [step_event hs]
    exact (sequencerStep_of_run (s := { s with events := rest }) hp).trans (tickCommand_of_error hd)

/-- Settles O6: an accepted command runs at once, or in TCFILL is held; once in RUN it is the latched command. -/
theorem commandWriteIsAccepted : Obligations.CommandWriteIsAccepted := by
  intro s w i hs hb hd
  refine ⟨_, writes_cmd hs fun rest => ?_, rfl, fun hp => ?_⟩
  · by_cases hp : s.phase = .tcfill
    · rw [if_pos hp, if_pos hp, ← hp]
      exact commandRequest_in_population (s := { s with events := rest }) hb hp
    · rw [if_neg hp, if_neg hp]
      exact commandRequest_of_ok (s := { s with events := rest }) hb hp hd
  · exact step_of_running ⟨hs, if_neg hp, hd, rfl⟩ rfl

end Sys2Proof.Machine
end

section
/-! PROOFS. Register reads and operand writes by offset (10_state.md R36, R37, R40, R45; 20_memory.md R70, R73;
30_encoding.md R101, R102, R109). -/

namespace Sys2Proof.Machine

/-! Bits and bytes of a register word. -/

/-- The value of an appended pair of fields. -/
theorem toNat_append_fields {m n : Nat} (x : BitVec m) (y : BitVec n) : (x ++ y).toNat = x.toNat * 2 ^ n + y.toNat := by
  rw [BitVec.toNat_append, ← Nat.shiftLeft_add_eq_or_of_lt y.isLt, Nat.shiftLeft_eq]

/-- CTRL as a number (R36). -/
theorem ctrlWord_eq (b : Bool) : (BitVec.ofBool b).setWidth 32 = BitVec.ofNat 32 b.toNat := by cases b <;> rfl

/-- STATUS as a number (R37). -/
theorem statusWord_eq (t : Status) :
    t.word = BitVec.ofNat 32 (t.busy.toNat + 2 * t.done.toNat + 4 * t.ovr.toNat + 16 * t.err.toNat +
      256 * t.ekValid.toNat + 512 * t.dkValid.toNat) := by
  apply BitVec.eq_of_toNat_eq
  have := t.err.isLt
  have := t.busy.toNat_le
  have := t.done.toNat_le
  have := t.ovr.toNat_le
  have := t.ekValid.toNat_le
  have := t.dkValid.toNat_le
  simp only [Status.word, toNat_append_fields, BitVec.toNat_ofBool, BitVec.ofNat_eq_ofNat, BitVec.toNat_ofNat]
  omega

theorem lowHalf_eq (x : BitVec 64) : lowHalf x = BitVec.ofNat 32 x.toNat := rfl

theorem highHalf_eq (x : BitVec 64) : highHalf x = BitVec.ofNat 32 (x.toNat / 2 ^ 32) := by
  rw [← Nat.shiftRight_eq_div_pow]
  rfl

@[simp] theorem lowHalf_setLowHalf (x : BitVec 64) (v : Word) : lowHalf (setLowHalf x v) = v :=
  BitVec.extractLsb'_append_eq_right

@[simp] theorem highHalf_setHighHalf (x : BitVec 64) (v : Word) : highHalf (setHighHalf x v) = v :=
  BitVec.extractLsb'_append_eq_left

/-- Byte `k` of register `i` of a buffer (R70). -/
theorem extractLsb'_bufferWord {n : Nat} (v : Bytes n) (i : Nat) (h : 4 * i + 4 ≤ n) (k : Fin 4) :
    (bufferWord v i h).extractLsb' (8 * k) 8 = v[4 * i + k.val] := by
  have := v[4 * i].isLt
  have := v[4 * i + 1].isLt
  have := v[4 * i + 2].isLt
  have := v[4 * i + 3].isLt
  apply BitVec.eq_of_toNat_eq
  simp only [bufferWord, BitVec.extractLsb'_toNat, Nat.shiftRight_eq_div_pow, toNat_append_fields]
  match k with
  | 0 | 1 | 2 | 3 => simp; omega

/-- A buffer's byte after a write of one of its registers. -/
theorem getElem_setBufferWord {n : Nat} (v : Bytes n) (i : Nat) (w : Word) {p : Nat} (hp : p < n) :
    (setBufferWord v i w)[p] = if 4 * i ≤ p ∧ p < 4 * i + 4 then w.extractLsb' (8 * (p - 4 * i)) 8 else v[p] := by
  simp [setBufferWord]

theorem getElem_setBufferWord_same {n : Nat} (v : Bytes n) (i : Nat) (w : Word) (h : 4 * i + 4 ≤ n) (k : Fin 4) :
    (setBufferWord v i w)[4 * i + k.val] = w.extractLsb' (8 * k) 8 := by
  rw [getElem_setBufferWord, if_pos (by omega), Nat.add_sub_cancel_left]

theorem getElem_setBufferWord_other {n : Nat} (v : Bytes n) (i : Nat) (w : Word) (p : Fin n) (h : p.val / 4 ≠ i) :
    (setBufferWord v i w)[p] = v[p] := by
  rw [Fin.getElem_fin, getElem_setBufferWord, if_neg (by omega), Fin.getElem_fin]

/-- A register of a buffer reads as it was written (R70). -/
@[simp] theorem bufferWord_setBufferWord {n : Nat} (v : Bytes n) (i : Nat) (w : Word) (h : 4 * i + 4 ≤ n) :
    bufferWord (setBufferWord v i w) i h = w := by
  have hbyte := getElem_setBufferWord_same v i w h
  have h0 : (setBufferWord v i w)[4 * i] = byte0 w := hbyte 0
  have h1 : (setBufferWord v i w)[4 * i + 1] = byte1 w := hbyte 1
  have h2 : (setBufferWord v i w)[4 * i + 2] = byte2 w := hbyte 2
  have h3 : (setBufferWord v i w)[4 * i + 3] = byte3 w := hbyte 3
  rw [bufferWord, h0, h1, h2, h3]
  exact busWord_busBytes w

/-! The register at an offset (R101). -/

theorem regAt_key : ∀ i : Fin 8, regAt (0x040 + 4 * i) = .key i := by decide

theorem regAt_din : ∀ i : Fin 4, regAt (0x060 + 4 * i) = .din i := by decide

theorem regAt_dout : ∀ i : Fin 4, regAt (0x070 + 4 * i) = .dout i := by decide

theorem regAt_rkey : ∀ i : Fin 4, regAt (0x080 + 4 * i) = .rkey i := by decide

theorem regAt_digest : ∀ i : Fin 8, regAt (0x090 + 4 * i) = .digest i := by decide

theorem regAt_state : ∀ i : Fin 50, regAt (0x100 + 4 * i) = .state i := by decide

theorem regAt_reserved {o : Nat} (ho : reservedOffset o) : regAt o = .reserved := by
  obtain ⟨-, hr⟩ := ho
  rw [regAt]
  iterate 12 rw [if_neg (by omega)]
  iterate 6 rw [dif_neg (by omega)]

/-- An operand offset is that of one of the 64-bit registers' halves, or of a word of KEY or DIN, RKEY, or STATE. -/
theorem operandOffset_cases {o : Nat} (ho : operandOffset o) :
    (∃ j : Fin 6, o = 0x018 + 4 * j) ∨ (∃ j : Fin 12, o = 0x040 + 4 * j) ∨ (∃ j : Fin 4, o = 0x080 + 4 * j) ∨
      ∃ j : Fin 50, o = 0x100 + 4 * j := by
  obtain ⟨⟨-, h4⟩, h | h | h | h⟩ := ho
  · exact .inl ⟨⟨(o - 0x018) / 4, by omega⟩, by simp only; omega⟩
  · exact .inr (.inl ⟨⟨(o - 0x040) / 4, by omega⟩, by simp only; omega⟩)
  · exact .inr (.inr (.inl ⟨⟨(o - 0x080) / 4, by omega⟩, by simp only; omega⟩))
  · exact .inr (.inr (.inr ⟨⟨(o - 0x100) / 4, by omega⟩, by simp only; omega⟩))

theorem isOperand_regAt {o : Nat} (ho : operandOffset o) : (regAt o).isOperand = true := by
  obtain ⟨j, rfl⟩ | ⟨j, rfl⟩ | ⟨j, rfl⟩ | ⟨j, rfl⟩ := operandOffset_cases ho
  · clear ho; revert j; decide
  · clear ho; revert j; decide
  · clear ho; revert j; decide
  · rw [regAt_state, Reg.isOperand]

/-! Reads. -/

theorem readsAs_reserved {s : State} {o : Nat} (hs : s.Good) (ho : reservedOffset o) : s.ReadsAs o 0 :=
  s.readsAs_of ho.1 hs (by rw [regAt_reserved ho, State.readReg])

/-- A register of a buffer reads as the four bytes of its word (R70). -/
theorem readsAs_buffer {s : State} {n i o : Nat} {v : Bytes n} {h : 4 * i + 4 ≤ n} (hs : s.Good) (ho : isOffset o)
    (hr : s.readReg (regAt o) = bufferWord v i h) :
    ∃ w, s.ReadsAs o w ∧ ∀ k : Fin 4, w.extractLsb' (8 * k) 8 = v[4 * i + k.val] :=
  ⟨_, s.readsAs_of ho hs hr, extractLsb'_bufferWord v i h⟩

theorem isOffset_add {b j : Nat} (hb : b % 4 = 0) (h : b + 4 * j < 0x400) : isOffset (b + 4 * j) := ⟨h, by omega⟩

/-- Settles O12: each offset's register, and its bits as numbers or bytes. -/
theorem readsReturnTheRegisters : Obligations.ReadsReturnTheRegisters := by
  intro s hs
  refine ⟨readsAs_id hs, readsAs_cap hs, ?_, ?_, ?_, ?_, ?_, ?_, ?_, ?_, ?_, ?_, fun o => readsAs_reserved hs,
    fun i => ?_, fun i => ?_, fun i => ?_, fun i => ?_, fun i => ?_, fun i => ?_⟩
  · exact s.readsAs_of ⟨by decide, rfl⟩ hs (ctrlWord_eq s.irqEn)
  · exact s.readsAs_of ⟨by decide, rfl⟩ hs (statusWord_eq s.status)
  · exact s.readsAs_of ⟨by decide, rfl⟩ hs rfl
  · exact s.readsAs_of ⟨by decide, rfl⟩ hs rfl
  · exact s.readsAs_of ⟨by decide, rfl⟩ hs (lowHalf_eq s.dataAddr)
  · exact s.readsAs_of ⟨by decide, rfl⟩ hs (highHalf_eq s.dataAddr)
  · exact s.readsAs_of ⟨by decide, rfl⟩ hs (lowHalf_eq s.dataLen)
  · exact s.readsAs_of ⟨by decide, rfl⟩ hs (highHalf_eq s.dataLen)
  · exact s.readsAs_of ⟨by decide, rfl⟩ hs (lowHalf_eq s.scratchAddr)
  · exact s.readsAs_of ⟨by decide, rfl⟩ hs (highHalf_eq s.scratchAddr)
  · exact readsAs_buffer hs (isOffset_add rfl (by omega)) (by rw [regAt_key, State.readReg])
  · exact readsAs_buffer hs (isOffset_add rfl (by omega)) (by rw [regAt_din, State.readReg])
  · exact readsAs_buffer hs (isOffset_add rfl (by omega)) (by rw [regAt_dout, State.readReg])
  · exact readsAs_buffer hs (isOffset_add rfl (by omega)) (by rw [regAt_rkey, State.readReg])
  · exact readsAs_buffer hs (isOffset_add rfl (by omega)) (by rw [regAt_digest, State.readReg])
  · exact readsAs_buffer hs (isOffset_add rfl (by omega)) (by rw [regAt_state, State.readReg])

/-! Writes of operand registers. -/

section

variable {s : State} {v : Word} {r : Reg}

/-- An operand register is written unless BUSY (R45, R102). -/
theorem writeReg_operand (hr : r.isOperand = true) :
    s.writeReg r v = if s.status.busy then { s with status := s.status.overrun } else s.writeOperand v r := by
  cases r with
  | id | cap | ctrl | status | cmd | rounds | dout | digest | reserved => cases hr
  | _ => rfl

theorem writeReg_operand_of_busy (hr : r.isOperand = true) (hb : s.status.busy = true) :
    s.writeReg r v = { s with status := s.status.overrun } := by
  rw [writeReg_operand hr, if_pos hb]

theorem writeReg_operand_of_not_busy (hr : r.isOperand = true) (hb : s.status.busy = false) :
    s.writeReg r v = s.writeOperand v r := by
  rw [writeReg_operand hr, if_neg (by simp [hb])]

end

/-- Settles O7: a request and an operand write find BUSY = 1. -/
theorem writesWhileBusyAreLost : Obligations.WritesWhileBusyAreLost := by
  rintro s o v hs hb (rfl | ho)
  · exact writes_cmd hs fun rest => commandRequest_of_busy (s := { s with events := rest }) hb
  · exact s.writes_of ho.1 hs fun rest =>
      writeReg_operand_of_busy (s := { s with events := rest }) (isOperand_regAt ho) hb

/-- An operand write does not look at the queue. -/
theorem writeOperand_events (s : State) (v : Word) (r : Reg) (rest : List Event) :
    State.writeOperand { s with events := rest } v r = { s.writeOperand v r with events := rest } := by
  cases r <;> rfl

theorem writes_operand {s : State} {o : Nat} (hs : s.Good) (hb : s.status.busy = false) (ho : operandOffset o)
    (v : Word) : s.Writes o v (s.writeOperand v (regAt o)) :=
  s.writes_of ho.1 hs fun rest =>
    (writeReg_operand_of_not_busy (s := { s with events := rest }) (isOperand_regAt ho) hb).trans
      (writeOperand_events s v _ rest)

theorem writeOperand_fault (s : State) (v : Word) (r : Reg) : (s.writeOperand v r).fault = s.fault := by
  cases r <;> simp only [State.writeOperand]

/-- An operand register reads as it was written (R70, R102). -/
theorem readReg_writeOperand (s : State) (v : Word) {r : Reg} (hr : r.isOperand = true) :
    (s.writeOperand v r).readReg r = v := by
  cases r with
  | id | cap | ctrl | status | cmd | rounds | dout | digest | reserved => cases hr
  | dataAddrLo | dataLenLo | scratchAddrLo => exact lowHalf_setLowHalf _ v
  | dataAddrHi | dataLenHi | scratchAddrHi => exact highHalf_setHighHalf _ v
  | key | din | rkey | state => rw [State.writeOperand, State.readReg, bufferWord_setBufferWord]

/-- Settles O13: the register at the offset is written while BUSY = 0, in its own bits or bytes, and reads back. -/
theorem operandWritesSetTheirRegister : Obligations.OperandWritesSetTheirRegister := by
  intro s v hs hb
  have hw : ∀ {o : Nat} {r : Reg}, operandOffset o → regAt o = r → s.Writes o v (s.writeOperand v r) :=
    fun ho hr => hr ▸ writes_operand hs hb ho v
  refine ⟨?_, ?_, ?_, ?_, ?_, ?_, fun i => ?_, fun i => ?_, fun i => ?_, fun i => ?_, fun o ho => ?_⟩
  · exact hw ⟨⟨by decide, rfl⟩, by decide⟩ rfl
  · exact hw ⟨⟨by decide, rfl⟩, by decide⟩ rfl
  · exact hw ⟨⟨by decide, rfl⟩, by decide⟩ rfl
  · exact hw ⟨⟨by decide, rfl⟩, by decide⟩ rfl
  · exact hw ⟨⟨by decide, rfl⟩, by decide⟩ rfl
  · exact hw ⟨⟨by decide, rfl⟩, by decide⟩ rfl
  · exact ⟨_, hw ⟨isOffset_add rfl (by omega), by omega⟩ (regAt_key i),
      getElem_setBufferWord_same s.key i v (by omega), getElem_setBufferWord_other s.key i v⟩
  · exact ⟨_, hw ⟨isOffset_add rfl (by omega), by omega⟩ (regAt_din i),
      getElem_setBufferWord_same s.din i v (by omega), getElem_setBufferWord_other s.din i v⟩
  · exact ⟨_, hw ⟨isOffset_add rfl (by omega), by omega⟩ (regAt_rkey i),
      getElem_setBufferWord_same s.rkey i v (by omega), getElem_setBufferWord_other s.rkey i v⟩
  · exact ⟨_, hw ⟨isOffset_add rfl (by omega), by omega⟩ (regAt_state i),
      getElem_setBufferWord_same s.stateBuf i v (by omega), getElem_setBufferWord_other s.stateBuf i v⟩
  · exact ⟨_, writes_operand hs hb ho v, State.readsAs_of ho.1 ((writeOperand_fault s v _).trans hs)
      (readReg_writeOperand s v (isOperand_regAt ho))⟩

end Sys2Proof.Machine
end

section
/-! PROOFS. What every command leaves alone (30_encoding.md R107; 43_hash_engine.md R230; 60_exceptions.md R271). -/

namespace Sys2Proof.Machine

/-! HASH_CORE leaves DIGEST alone (R230): no stage before the last writes it. -/

/-- A part of a hash command after which DIGEST is `x`. -/
def EngineResult.LeavesDigest (x : Bytes 32) : EngineResult → Prop
  | .more t => t.digest = x
  | .ended t => t.digest = x
  | .fault _ => True

/-- The rest of a hash command after which DIGEST is `x`. -/
def RestLeavesDigest (x : Bytes 32) : Host.Outcome State Fault Refusal → Prop
  | .next t => t.digest = x
  | .fault _ => True
  | .refused _ => True

theorem EngineResult.LeavesDigest.andThen {x : Bytes 32} {r : EngineResult} (h : r.LeavesDigest x)
    {rest : State → Host.Outcome State Fault Refusal} (hrest : ∀ t, RestLeavesDigest t.digest (rest t)) :
    RestLeavesDigest x (r.andThen rest) := by
  cases r with
  | more t => exact h ▸ hrest t
  | ended t => exact h
  | fault f => trivial

theorem leavesDigest_fillGuard {s : State} {x : Bytes 32} {go : EngineResult} (h : go.LeavesDigest x) :
    (s.fillGuard go).LeavesDigest x := by
  unfold State.fillGuard
  split
  · split
    · exact h
    · trivial
  · trivial

theorem leavesDigest_tableGuard {s : State} {x : Bytes 32} {go : EngineResult} (h : go.LeavesDigest x) :
    (s.tableGuard go).LeavesDigest x := by
  unfold State.tableGuard
  split
  · exact h
  · trivial

theorem leavesDigest_importKey (s : State) (key : Bytes 32) (g : Stage) : (s.importKey key g).LeavesDigest s.digest := by
  unfold State.importKey
  split
  · simp [EngineResult.LeavesDigest]
  · split
    · simp [EngineResult.LeavesDigest]
    · trivial

theorem leavesDigest_stageCheck_core (s : State) : (stageCheck .core s).LeavesDigest s.digest := by
  unfold stageCheck
  split <;> simp [EngineResult.LeavesDigest]

theorem leavesDigest_stageSeed (s : State) : (stageSeed s).LeavesDigest s.digest :=
  leavesDigest_importKey s.loadText _ _

theorem leavesDigest_stageFill (s : State) : (stageFill s).LeavesDigest s.digest :=
  leavesDigest_fillGuard (EngineFrame.iterate engineFrame_fillBlock _ s).digest

theorem leavesDigest_stageMix (s : State) : (stageMix s).LeavesDigest s.digest :=
  leavesDigest_tableGuard (EngineFrame.iterate engineFrame_mixIteration _ s).digest

theorem leavesDigest_stageRekey (s : State) : (stageRekey s).LeavesDigest s.digest :=
  leavesDigest_importKey s.loadText _ _

theorem leavesDigest_stageFold (s : State) : (stageFold s).LeavesDigest s.digest :=
  leavesDigest_tableGuard (EngineFrame.iterate engineFrame_foldBlock _ s).digest

/-- The rest of HASH_CORE from the end of stage 6 on is that end: stage 7 is HASH's (R210). -/
theorem restLeavesDigest_runWriteBack_core (s : State) : RestLeavesDigest s.digest (runWriteBack .core s) := by
  simp only [runWriteBack, stageWriteBack, EngineResult.andThen, RestLeavesDigest, State.endHash_digest]

theorem restLeavesDigest_runMix_core (s : State) : RestLeavesDigest s.digest (runMix .core s) :=
  (leavesDigest_stageMix s).andThen fun t => (leavesDigest_stageRekey t).andThen fun u =>
    (leavesDigest_stageFold u).andThen restLeavesDigest_runWriteBack_core

theorem restLeavesDigest_runSeed_core (s : State) : RestLeavesDigest s.digest (runSeed .core s) :=
  (leavesDigest_stageSeed s).andThen fun t => (leavesDigest_stageFill t).andThen fun u =>
    (engineFrame_stageDerive u).digest ▸ restLeavesDigest_runMix_core (stageDerive u)

theorem digest_of_hashCore {s t : State} (h : exec .hashCore s = .next t) : t.digest = s.digest := by
  have hr : RestLeavesDigest s.digest (exec .hashCore s) :=
    (leavesDigest_stageCheck_core (s.enter .check)).andThen restLeavesDigest_runSeed_core
  rwa [h] at hr

/-- Settles O52: by kind of command, each ends by `finish` or as a hash command, and what its rule writes is all that
differs. -/
theorem commandsWriteOnlyTheirRegisters : Obligations.CommandsWriteOnlyTheirRegisters := by
  intro i s t h
  obtain ⟨k, bits, rfl, -, -, rfl⟩ | ⟨k, bits, rfl, -, -, rfl⟩ | ⟨x, hi, rfl⟩ | ⟨err, -, -, rfl⟩ | ⟨c, rfl, hend⟩ :=
    exec_cases h
  · simp [Status.finished, Status.withKeys]
  · simp [Status.finished, Status.withKeys]
  · obtain rfl | rfl | rfl := hi <;> simp [Status.finished]
  · simp [Status.finished]
  · obtain ⟨err, -, hst⟩ := hend.status
    have hregs := (onlyHashEffects_iff s t).mp hend.regs
    refine ⟨?_, ?_, fun _ _ => ?_, fun _ => ?_, fun _ _ _ => ?_, fun hi => ?_, fun hcore hfull => ?_⟩
    · simp only [hst, hend.phase, Status.finished, and_self]
    · simp only [hregs, and_self]
    · simp only [hregs, hst, Status.finished, and_self]
    · simp only [hregs]
    · simp only [hregs, and_self]
    · cases c with
      | core => exact digest_of_hashCore h
      | full => exact absurd rfl hi
    · cases c with
      | core => exact absurd rfl hcore
      | full => exact absurd rfl hfull

end Sys2Proof.Machine
end

section
/-! PROOFS. The field GF(2^8) and the substitution's formula (40_aes_primitives.md R130 to R135): the product is
associative, so an inverse is the only one, and the one that the table S tells is the one that `gfInv` finds. -/

namespace Sys2Proof.Machine

/-- What holds of the 256 values holds of every byte; a check of them by evaluation needs the values as numbers. -/
theorem forall_byte {P : Byte → Prop} (h : ∀ n, n < 256 → P (BitVec.ofNat 8 n)) (x : Byte) : P x := by
  have hx := h x.toNat x.isLt
  rwa [BitVec.ofNat_toNat, BitVec.setWidth_eq] at hx

/-- A byte is the sum of its bits. -/
theorem xor_bits_eq (b : Byte) :
    ((List.range 8).map fun k => b &&& BitVec.twoPow 8 k).foldr (· ^^^ ·) 0 = b := by
  apply BitVec.eq_of_getLsbD_eq
  intro i hi
  interval_cases i <;> simp [List.range_succ]

/-- What holds of 0, of every single bit, and of sums, holds of every byte. -/
theorem byte_xor_induction {P : Byte → Prop} (zero : P 0) (bit : ∀ k, k < 8 → P (BitVec.twoPow 8 k))
    (xor : ∀ x y, P x → P y → P (x ^^^ y)) (b : Byte) : P b := by
  rw [← xor_bits_eq b]
  refine List.foldrRecOn (motive := P) _ _ zero fun y hy x hx => xor x y ?_ hy
  obtain ⟨k, hk, rfl⟩ := List.mem_map.mp hx
  rw [BitVec.and_twoPow]
  split
  · exact bit k (List.mem_range.mp hk)
  · exact zero

/-! The product: additive, commuting with the multiplication by x, hence associative. -/

theorem xtime_xor (a b : Byte) : xtime (a ^^^ b) = xtime a ^^^ xtime b := by
  have hxor : ∀ p q : Bool, (if (p ^^ q) = true then (0x1B : Byte) else 0x00) =
      (if p then 0x1B else 0x00) ^^^ (if q then 0x1B else 0x00) := by decide
  simp only [xtime, BitVec.shiftLeft_xor_distrib, BitVec.getLsbD_xor, hxor]
  ac_rfl

theorem gfMul_zero (a : Byte) : gfMul a 0 = 0 := by simp [gfMul, gfMulLoop]

/-- The factor x^k multiplies `k` times by x. -/
theorem gfMul_twoPow (a : Byte) {k : Nat} (h : k < 8) : gfMul a (BitVec.twoPow 8 k) = xtime^[k] a := by
  interval_cases k <;> simp [gfMul, gfMulLoop, BitVec.twoPow]

theorem gfMul_one (a : Byte) : gfMul a 1 = a := gfMul_twoPow a (k := 0) (by decide)

@[simp] theorem one_gfMul (a : Byte) : gfMul 1#8 a = a := by
  induction a using byte_xor_induction with
  | zero => exact gfMul_zero 1
  | bit k hk => interval_cases k <;> rfl
  | xor x y hx hy => rw [gfMul_xor, hx, hy]

theorem xtime_iterate_xor (k : Nat) (a b : Byte) : xtime^[k] (a ^^^ b) = xtime^[k] a ^^^ xtime^[k] b := by
  induction k with
  | zero => rfl
  | succ k ih => rw [Function.iterate_succ_apply', ih, xtime_xor, ← Function.iterate_succ_apply' xtime,
      ← Function.iterate_succ_apply' xtime]

theorem xor_gfMul (a b c : Byte) : gfMul (a ^^^ b) c = gfMul a c ^^^ gfMul b c := by
  induction c using byte_xor_induction with
  | zero =>
    rw [gfMul_zero, gfMul_zero, gfMul_zero]
    exact BitVec.xor_self.symm
  | bit k hk => rw [gfMul_twoPow _ hk, gfMul_twoPow _ hk, gfMul_twoPow _ hk, xtime_iterate_xor]
  | xor x y hx hy =>
    rw [gfMul_xor, gfMul_xor, gfMul_xor, hx, hy]
    ac_rfl

theorem zero_gfMul (a : Byte) : gfMul 0 a = 0 := by
  have h := xor_gfMul 0 0 a
  rwa [BitVec.xor_self, BitVec.xor_self] at h

/-- The reduction of R131: x^8 is x^4 + x^3 + x + 1. -/
theorem xtime_iterate_eight (a : Byte) : xtime^[8] a = gfMul a 0x1B := by
  induction a using byte_xor_induction with
  | zero => rfl
  | bit k hk => interval_cases k <;> rfl
  | xor x y hx hy => rw [xtime_iterate_xor, hx, hy, xor_gfMul]

theorem gfMul_xtime_twoPow (a : Byte) {k : Nat} (h : k < 8) :
    gfMul a (xtime (BitVec.twoPow 8 k)) = xtime (gfMul a (BitVec.twoPow 8 k)) := by
  rw [gfMul_twoPow a h, ← Function.iterate_succ_apply' xtime k a]
  obtain hk | rfl := Nat.lt_succ_iff_lt_or_eq.mp h
  · rw [← gfMul_twoPow a (Nat.succ_lt_succ hk)]
    interval_cases k <;> rfl
  · exact (xtime_iterate_eight a).symm

theorem gfMul_xtime (a b : Byte) : gfMul a (xtime b) = xtime (gfMul a b) := by
  induction b using byte_xor_induction with
  | zero => rw [show xtime 0 = 0 from rfl, gfMul_zero, show xtime 0 = 0 from rfl]
  | bit k hk => exact gfMul_xtime_twoPow a hk
  | xor x y hx hy => rw [xtime_xor, gfMul_xor, hx, hy, gfMul_xor, xtime_xor]

/-- The product's loop passes a factor on, from what it multiplies and from its sum so far. -/
theorem gfMulLoop_gfMul (n : Nat) (a b c r : Byte) :
    gfMulLoop n (gfMul a b) c (gfMul a r) = gfMul a (gfMulLoop n b c r) := by
  induction n generalizing b c r with
  | zero => rfl
  | succ n ih => rw [gfMulLoop, gfMulLoop, ← ih, gfMul_xtime, apply_ite (gfMul a), gfMul_xor]

theorem gfMul_assoc (a b c : Byte) : gfMul (gfMul a b) c = gfMul a (gfMul b c) := by
  have h := gfMulLoop_gfMul 8 a b c 0
  rwa [gfMul_zero] at h

/-- A left inverse is equal to a right inverse. -/
theorem inverses_eq {x l r : Byte} (hl : gfMul l x = 1) (hr : gfMul x r = 1) : l = r :=
  calc l
    _ = gfMul l (gfMul x r) := by rw [hr, gfMul_one]
    _ = gfMul (gfMul l x) r := (gfMul_assoc l x r).symm
    _ = gfMul 1 r := by rw [hl]
    _ = r := one_gfMul r

/-! The inverse. -/

theorem mem_allBytes (x : Byte) : x ∈ allBytes :=
  List.mem_map.mpr ⟨x.toNat, List.mem_range.mpr x.isLt, by rw [BitVec.ofNat_toNat, BitVec.setWidth_eq]⟩

/-- The search of R132 finds an inverse where there is one. -/
theorem gfMul_gfInv_of_inverse {x y : Byte} (h : gfMul x y = 1) : gfMul x (gfInv x) = 1 := by
  rw [gfInv]
  cases hf : allBytes.find? fun z => gfMul x z == 1 with
  | none => exact absurd (beq_iff_eq.mpr h) (List.find?_eq_none.mp hf y (mem_allBytes y))
  | some z => exact beq_iff_eq.mp (List.find?_some (p := fun z => gfMul x z == 1) hf)

/-- The affine map of R133. -/
def affineMap (b : Byte) : Byte :=
  b ^^^ b.rotateLeft 1 ^^^ b.rotateLeft 2 ^^^ b.rotateLeft 3 ^^^ b.rotateLeft 4 ^^^ 0x63

theorem sboxFormula_eq (x : Byte) : sboxFormula x = affineMap (gfInv x) := rfl

/-- What the affine map takes to `s`. -/
def affineInverse (s : Byte) : Byte := s.rotateLeft 1 ^^^ s.rotateLeft 3 ^^^ s.rotateLeft 6 ^^^ 0x05

/-- The table S holds what the affine map makes of inverses: one check of its 256 values for both parts. -/
theorem affineInverse_sbox_inverts : ∀ x : Byte,
    affineMap (affineInverse (sbox x)) = sbox x ∧ (x ≠ 0 → gfMul x (affineInverse (sbox x)) = 1) :=
  forall_byte (by decide +kernel)

/-- An inverse commutes: its own inverse is the byte that it inverts. -/
theorem gfMul_comm_of_inverse {x y : Byte} (h : gfMul x y = 1) : gfMul y x = 1 := by
  have hy : y ≠ 0 := by
    rintro rfl
    rw [gfMul_zero] at h
    exact absurd h (by decide)
  have hz := (affineInverse_sbox_inverts y).2 hy
  rwa [← inverses_eq h hz] at hz

/-- R132: every byte but 0 has an inverse, and `gfInv` is it. -/
theorem gfMul_gfInv {x : Byte} (hx : x ≠ 0) : gfMul x (gfInv x) = 1 :=
  gfMul_gfInv_of_inverse ((affineInverse_sbox_inverts x).2 hx)

theorem gfInv_zero : gfInv 0 = 0 := by
  have hf : (allBytes.find? fun z => gfMul 0 z == 1) = none :=
    List.find?_eq_none.mpr fun z _ => by rw [zero_gfMul]; decide
  rw [gfInv, hf, Option.getD_none]

theorem gfInv_eq_affineInverse_sbox (x : Byte) : gfInv x = affineInverse (sbox x) := by
  by_cases hx : x = 0
  · rw [hx, gfInv_zero]
    rfl
  · exact inverses_eq (gfMul_comm_of_inverse (gfMul_gfInv hx)) ((affineInverse_sbox_inverts x).2 hx)

theorem sbox_eq_sboxFormula (x : Byte) : sbox x = sboxFormula x := by
  rw [sboxFormula_eq, gfInv_eq_affineInverse_sbox, (affineInverse_sbox_inverts x).1]

/-- Settles O39: inverses are unique, so the one that the table S tells is `gfInv`'s. -/
theorem substitutionTablesFollowTheFormula : Obligations.SubstitutionTablesFollowTheFormula :=
  ⟨fun x => ⟨sbox_eq_sboxFormula x, invSbox_sbox x⟩, fun _ hx => gfMul_gfInv hx⟩

end Sys2Proof.Machine
end

section
/-! PROOFS. The table-driven rounds are the byte-level transformations, column by column (40_aes_primitives.md R144,
R147 to R152; 42_aes_block.md R194). -/

namespace Sys2Proof.Machine

open ByteAes

/-! A Block and its columns (R144). -/

theorem putByte_getColumn (b : Block) (c r : Fin 4) : putByte (getColumn b c) r = b[4 * c.val + r.val] := by
  fin_cases r
  · exact byte3_wordOfBytes ..
  · exact byte2_wordOfBytes ..
  · exact byte1_wordOfBytes ..
  · exact byte0_wordOfBytes ..

theorem getElem_blockOfColumns (s : Columns) {i : Nat} (hi : i < 16) :
    (blockOfColumns s)[i] = putByte s[i / 4] (i % 4) := by
  simp only [blockOfColumns, blockOfWords, Vector.getElem_ofFn]
  split
  · simp only [show i / 4 = 0 by omega]
  · split
    · simp only [show i / 4 = 1 by omega]
    · split
      · simp only [show i / 4 = 2 by omega]
      · simp only [show i / 4 = 3 by omega]

/-- Columns that are a Block's make that Block. -/
theorem blockOfColumns_eq {s : Columns} {b : Block} (h : ∀ c : Fin 4, s[c] = getColumn b c) : blockOfColumns s = b := by
  refine Vector.ext fun i hi => ?_
  have hc : s[i / 4] = getColumn b ⟨i / 4, by omega⟩ := h ⟨i / 4, by omega⟩
  have hr := putByte_getColumn b ⟨i / 4, by omega⟩ ⟨i % 4, Nat.mod_lt i (by decide)⟩
  simp only [getElem_blockOfColumns s hi, hc, hr, Nat.div_add_mod]

@[simp] theorem getElem_columnsOf (b : Block) (c : Fin 4) : (columnsOf b)[c.val] = getColumn b c := by
  simp only [columnsOf, Vector.getElem_ofFn]

/-! The columns after each transformation (R151). -/

/-- InvSubBytes of one column. -/
def invSubWord (t : Word) : Word :=
  wordOfBytes (invSbox (byte3 t)) (invSbox (byte2 t)) (invSbox (byte1 t)) (invSbox (byte0 t))

/-- One column times the circulant matrix whose first row is `m`. -/
def circulantWord (m : Vector Byte 4) (w : Word) : Word :=
  let f := fun r => circulantRow m r (byte3 w) (byte2 w) (byte1 w) (byte0 w)
  wordOfBytes (f 0) (f 1) (f 2) (f 3)

theorem getColumn_xorBytes (x y : Block) (c : Fin 4) :
    getColumn (xorBytes x y) c = getColumn x c ^^^ getColumn y c := by
  simp [getColumn, xorBytes, wordOfBytes_xor]

theorem getColumn_subBytes (b : Block) (c : Fin 4) : getColumn (subBytes b) c = subWord (getColumn b c) := by
  simp [getColumn, subBytes, subWord]

theorem getColumn_invSubBytes (b : Block) (c : Fin 4) : getColumn (invSubBytes b) c = invSubWord (getColumn b c) := by
  simp [getColumn, invSubBytes, invSubWord]

theorem getColumn_shiftRows (b : Block) (c : Fin 4) :
    getColumn (shiftRows b) c =
      wordOfBytes (byte3 (getColumn b c)) (byte2 (getColumn b (c + 1))) (byte1 (getColumn b (c + 2)))
        (byte0 (getColumn b (c + 3))) := by
  fin_cases c <;> simp [getColumn, shiftRows]

theorem getColumn_invShiftRows (b : Block) (c : Fin 4) :
    getColumn (invShiftRows b) c =
      wordOfBytes (byte3 (getColumn b c)) (byte2 (getColumn b (c + 3))) (byte1 (getColumn b (c + 2)))
        (byte0 (getColumn b (c + 1))) := by
  fin_cases c <;> simp [getColumn, invShiftRows]

theorem getColumn_circulant (m : Vector Byte 4) (b : Block) (c : Fin 4) :
    getColumn (circulant m b) c = circulantWord m (getColumn b c) := by
  fin_cases c <;> simp [getColumn, circulant, circulantWord]

/-! The lookups of one column of a round (R147 to R150). -/

theorem teLookups_rom (x3 x2 x1 x0 : Byte) :
    entry rom.te0 x3 ^^^ entry rom.te1 x2 ^^^ entry rom.te2 x1 ^^^ entry rom.te3 x0 =
      circulantWord mixRow (wordOfBytes (sbox x3) (sbox x2) (sbox x1) (sbox x0)) := by
  simp [te0Entry, rotateRight_8_wordOfBytes, rotateRight_16_wordOfBytes, rotateRight_24_wordOfBytes, wordOfBytes_xor,
    circulantWord, circulantRow, mixRow]

theorem tdLookups_rom (x3 x2 x1 x0 : Byte) :
    entry rom.td0 x3 ^^^ entry rom.td1 x2 ^^^ entry rom.td2 x1 ^^^ entry rom.td3 x0 =
      circulantWord invMixRow (wordOfBytes (invSbox x3) (invSbox x2) (invSbox x1) (invSbox x0)) := by
  simp [td0Entry, rotateRight_8_wordOfBytes, rotateRight_16_wordOfBytes, rotateRight_24_wordOfBytes, wordOfBytes_xor,
    circulantWord, circulantRow, invMixRow]

/-- Four bytes shifted to their places make a word (R150). -/
theorem shifted_xor_eq_wordOfBytes (p q r s : Byte) :
    (p.setWidth 32 <<< 24) ^^^ (q.setWidth 32 <<< 16) ^^^ (r.setWidth 32 <<< 8) ^^^ s.setWidth 32 =
      wordOfBytes p q r s := by
  apply BitVec.eq_of_getLsbD_eq
  intro i hi
  simp only [getLsbD_wordOfBytes, BitVec.getLsbD_xor, BitVec.getLsbD_shiftLeft, BitVec.getLsbD_setWidth, hi]
  grind

theorem td4Lookups_rom (x3 x2 x1 x0 : Byte) :
    ((entry rom.td4 x3).setWidth 32 <<< 24) ^^^ ((entry rom.td4 x2).setWidth 32 <<< 16) ^^^
        ((entry rom.td4 x1).setWidth 32 <<< 8) ^^^ (entry rom.td4 x0).setWidth 32 =
      wordOfBytes (invSbox x3) (invSbox x2) (invSbox x1) (invSbox x0) := by
  simp only [entry_rom_td4, shifted_xor_eq_wordOfBytes]

/-! The four rounds (R147 to R151). -/

section
variable (b k : Block)

theorem encRound_rom : blockOfColumns (encRound rom (columnsOf b) (columnsOf k)) = ByteAes.round b k :=
  blockOfColumns_eq fun c => by
    simp only [encRound, Fin.getElem_fin, Vector.getElem_ofFn, getElem_columnsOf, teLookups_rom]
    simp [ByteAes.round, mixColumns, getColumn_xorBytes, getColumn_circulant, getColumn_shiftRows, getColumn_subBytes,
      subWord]

theorem encFinal_rom :
    blockOfColumns (encFinal rom (columnsOf b) (columnsOf k)) = xorBytes (shiftRows (subBytes b)) k :=
  blockOfColumns_eq fun c => by
    simp only [encFinal, Fin.getElem_fin, Vector.getElem_ofFn, getElem_columnsOf, maskedWord_rom]
    simp [getColumn_xorBytes, getColumn_shiftRows, getColumn_subBytes, subWord]

theorem decRound_rom :
    blockOfColumns (decRound rom (columnsOf b) (columnsOf k)) =
      xorBytes (invMixColumns (invShiftRows (invSubBytes b))) k :=
  blockOfColumns_eq fun c => by
    simp only [decRound, Fin.getElem_fin, Vector.getElem_ofFn, getElem_columnsOf, tdLookups_rom]
    simp [invMixColumns, getColumn_xorBytes, getColumn_circulant, getColumn_invShiftRows, getColumn_invSubBytes,
      invSubWord]

theorem decFinal_rom :
    blockOfColumns (decFinal rom (columnsOf b) (columnsOf k)) = xorBytes (invShiftRows (invSubBytes b)) k :=
  blockOfColumns_eq fun c => by
    simp only [decFinal, Fin.getElem_fin, Vector.getElem_ofFn, getElem_columnsOf, td4Lookups_rom]
    simp [getColumn_xorBytes, getColumn_invShiftRows, getColumn_invSubBytes, invSubWord]

end

/-- Settles O40: in each round a column's lookups are its substitution, its shifted rows and its mixing at once. -/
theorem tableRoundsAreTheByteLevelRounds : Obligations.TableRoundsAreTheByteLevelRounds := fun b k =>
  ⟨encRound_rom b k, encFinal_rom b k, decRound_rom b k, decFinal_rom b k⟩

/-! The command AES_ROUND. -/

/-- With good tables, a command that writes DOUT ends without error, by lookups in the ROM, and writes nothing else but
its own latch and the place of the sequencer (R92, R154, R192 to R194). -/
theorem writeDout_of_tablesGood {s : State} (h : s.TablesGood) (f : LookupTables → Block → Block) :
    ∃ t, s.writeDout f = .next t ∧ t.dout = f rom s.din ∧ t.status = s.status.ended 0 ∧ t.phase = .idle ∧
      { t with
        dout := s.dout, status := s.status, phase := s.phase, seq := s.seq, bsave := s.bsave, draws := s.draws } = s := by
  refine ⟨{ s with bsave := s.din, dout := f rom s.din }.releaseBlockLatch.finish 0, ?_, by simp, rfl, rfl, by simp⟩
  rw [State.writeDout, if_pos (tablesReady_eq_true h), tables_eq_rom h]

/-- Settles O35: AES_ROUND writes DOUT with the full encryption round. -/
theorem aesRoundWritesOneRoundOfDin : Obligations.AesRoundWritesOneRoundOfDin := by
  intro s h
  rw [← encRound_rom s.din s.rkey]
  exact writeDout_of_tablesGood h fun T x => aesRoundBlock T x s.rkey

end Sys2Proof.Machine
end

section
/-! PROOFS. The key-schedule commands, and what changes EK and DK (41_aes_key_schedule.md R170, R174, R176 to R179). -/

namespace Sys2Proof.Machine

/-! The commands SETKEY_ENC and SETKEY_DEC. -/

/-- The supported key sizes with their lengths and rounds (R11, R105). -/
theorem keyBits_of_mem {k : KeySize} {bits nr : Nat}
    (h : (k, bits, nr) ∈ [(KeySize.bits128, 128, 10), (KeySize.bits192, 192, 12), (KeySize.bits256, 256, 14)]) :
    keyBits k = some bits ∧ roundsOf bits = nr := by
  simp only [List.mem_cons, Prod.mk.injEq, List.not_mem_nil, or_false] at h
  obtain ⟨rfl, rfl, rfl⟩ | ⟨rfl, rfl, rfl⟩ | ⟨rfl, rfl, rfl⟩ := h <;> exact ⟨rfl, rfl⟩

theorem exec_setkeyEnc {s : State} {k : KeySize} {bits : Nat} (hk : keyBits k = some bits) (h : s.TablesGood) :
    exec (.setkeyEnc k) s = .next ((s.setEncryptKey bits).releaseKeyLatch.finish 0) := by
  simp only [exec, execSetkeyEnc, hk, tablesReady_eq_true h, if_true]

theorem exec_setkeyDec {s : State} {k : KeySize} {bits : Nat} (hk : keyBits k = some bits) (h : s.TablesGood) :
    exec (.setkeyDec k) s = .next (((s.setEncryptKey bits).setDecryptKey bits).releaseKeyLatch.finish 0) := by
  simp only [exec, execSetkeyDec, hk, tablesReady_eq_true h, if_true]

/-- With good tables, EK gets the key's schedule (R177). -/
theorem isKeySchedule_setEncryptKey {s : State} {bits : Nat} (hb : isKeySize bits) (h : s.TablesGood) :
    ByteAes.IsKeySchedule s.key bits (s.setEncryptKey bits).ek := by
  rw [State.setEncryptKey_ek, tables_eq_rom h]
  exact isKeySchedule_keyExpansion s.key hb _

/-- With good tables, DK gets the derivation of the schedule that EK got (R178). -/
theorem isDecryptSchedule_setDecryptKey {s : State} {bits : Nat} (hb : isKeySize bits) (h : s.TablesGood) :
    ByteAes.IsDecryptSchedule (s.setEncryptKey bits).ek ((s.setEncryptKey bits).setDecryptKey bits).dk
      (roundsOf bits) := by
  have hT : (s.setEncryptKey bits).tables = rom := tables_eq_rom h
  rw [State.setEncryptKey_ek, State.setDecryptKey_dk, State.setEncryptKey_ksave, tables_eq_rom h, hT]
  exact isDecryptSchedule_deriveDecrypt s.key hb _ _

/-- Settles O31: KeyExpansion on the ROM follows the recurrence, and `finish` and the latch keep what it wrote. -/
theorem setkeyEncExpandsTheKey : Obligations.SetkeyEncExpandsTheKey := by
  refine ⟨fun s => rfl, fun s k bits nr hm h => ?_⟩
  obtain ⟨hk, rfl⟩ := keyBits_of_mem hm
  exact ⟨_, exec_setkeyEnc hk h, isKeySchedule_setEncryptKey (isKeySize_of_keyBits hk) h, rfl, rfl, rfl, rfl⟩

/-- Settles O32: as for SETKEY_ENC, and DeriveDecrypt on the ROM follows its recurrence. -/
theorem setkeyDecDerivesTheSchedule : Obligations.SetkeyDecDerivesTheSchedule := by
  refine ⟨fun s => rfl, fun s k bits nr hm h => ?_⟩
  obtain ⟨hk, rfl⟩ := keyBits_of_mem hm
  have hb := isKeySize_of_keyBits hk
  exact ⟨_, exec_setkeyDec hk h, isKeySchedule_setEncryptKey hb h, isDecryptSchedule_setDecryptKey hb h, rfl, rfl, rfl,
    rfl⟩

/-! What changes EK and DK (R179). -/

/-- From `s` to `t`, a running SETKEY command of a supported size completes without error. -/
def State.SetsKey (s t : State) : Prop :=
  s.phase = .run ∧ t.status.err = 0 ∧ t.status.busy = false ∧
    ∃ k : KeySize, k ≠ .unsupported ∧ (s.latched = some (.setkeyEnc k) ∨ s.latched = some (.setkeyDec k))

theorem ne_unsupported_of_keyBits {k : KeySize} {bits : Nat} (h : keyBits k = some bits) : k ≠ .unsupported := by
  rintro rfl
  cases h

theorem Move.schedules_cases {s t : State} {ev : Option Event} (h : Move s ev t) :
    (t.ek = s.ek ∧ t.dk = s.dk) ∨ ev = some .reset ∨ s.SetsKey t := by
  cases h with
  | setkeyEnc hp hd hk _ =>
    exact .inr (.inr ⟨hp, rfl, rfl, _, ne_unsupported_of_keyBits hk, .inl (latched_of_decode hd)⟩)
  | setkeyDec hp hd hk _ =>
    exact .inr (.inr ⟨hp, rfl, rfl, _, ne_unsupported_of_keyBits hk, .inr (latched_of_decode hd)⟩)
  | reset => exact .inr (.inl rfl)
  | hashPart _ _ _ hf _ =>
    have hr := (onlyHashEffects_iff s t).mp hf.regs
    exact .inl (by simp only [hr, and_self])
  | hashTickEnd _ _ _ he | hashExec _ _ _ _ he | hashRest _ _ _ _ he =>
    have hr := (onlyHashEffects_iff s t).mp he.regs
    exact .inl (by simp only [hr, and_self])
  | stay | respond | illegal | ended | block | copyEntry | arrive | copyShare | release | ctrl | status | overrun | held
  | refusedWord | accepted | dataAddr | dataLen | scratchAddr | key | din | rkey | stateBuf | memory =>
    exact .inl ⟨rfl, rfl⟩

theorem Move.of_schedules_ne {s t : State} {ev : Option Event} (h : Move s ev t) (hne : t.ek ≠ s.ek ∨ t.dk ≠ s.dk) :
    ev = some .reset ∨ s.SetsKey t :=
  h.schedules_cases.resolve_left fun ⟨hek, hdk⟩ => hne.elim (· hek) (· hdk)

/-- Settles O38: of all moves, only SETKEY's and reset write EK or DK. -/
theorem onlySetkeyOrResetChangesTheSchedules : Obligations.OnlySetkeyOrResetChangesTheSchedules := by
  intro s t h hne
  obtain ⟨-, ⟨-, hm⟩ | ⟨ev, rest, he, hm⟩⟩ := step_moves h
  · exact .inr ((hm.of_schedules_ne hne).resolve_left nofun)
  · obtain ⟨⟨⟩⟩ | hk := hm.of_schedules_ne hne
    · exact .inl ⟨rest, he⟩
    · exact .inr hk

end Sys2Proof.Machine
end

section
/-! PROOFS. The cipher and its inverse at byte level (40_aes_primitives.md R151; 42_aes_block.md R190, R191), and that the
one undoes the other under a derived schedule (41_aes_key_schedule.md R175). -/

namespace Sys2Proof.Machine

open ByteAes

/-! A Block is its columns (R144). -/

theorem block_eq_of_getColumn {b b' : Block} (h : ∀ c : Fin 4, getColumn b c = getColumn b' c) : b = b' := by
  rw [← blockOfColumns_eq (s := columnsOf b) (b := b) fun c => getElem_columnsOf b c]
  exact blockOfColumns_eq fun c => (getElem_columnsOf b c).trans (h c)

/-- A word is the bytes that `putByte` takes from it. -/
theorem wordOfBytes_putByte (w : Word) : wordOfBytes (putByte w 0) (putByte w 1) (putByte w 2) (putByte w 3) = w :=
  wordOfBytes_bytes w

theorem getColumn_blockOfColumns (s : Columns) (c : Fin 4) : getColumn (blockOfColumns s) c = s[c] := by
  rw [← wordOfBytes_putByte s[c]]
  fin_cases c <;> simp [getColumn, getElem_blockOfColumns]

@[simp] theorem columnsOf_blockOfColumns (s : Columns) : columnsOf (blockOfColumns s) = s :=
  Vector.ext fun i hi => (getElem_columnsOf _ ⟨i, hi⟩).trans (getColumn_blockOfColumns s ⟨i, hi⟩)

theorem xorColumns_columnsOf (x y : Block) : xorColumns (columnsOf x) (columnsOf y) = columnsOf (xorBytes x y) :=
  Vector.ext fun i hi => by
    simp [xorColumns, columnsOf, getColumn_xorBytes]

/-- Round key `r` as bytes, column by column (R172). -/
theorem getColumn_keyOf (w : Vector Word 60) (r : Nat) (c : Fin 4) :
    getColumn (keyOf w r) c = scheduleWord w (4 * r + c) := by
  rw [← wordOfBytes_putByte (scheduleWord w (4 * r + c))]
  fin_cases c <;> simp [getColumn, keyOf]

theorem roundKey_eq (w : Vector Word 60) (r : Nat) : roundKey w r = columnsOf (keyOf w r) :=
  Vector.ext fun i hi => by simp [roundKey, columnsOf, getColumn_keyOf]

/-! The table-driven cipher and inverse cipher are the byte-level ones (R190, R191). -/

/-- Full rounds on columns are full rounds on Blocks. -/
theorem fullRounds_columnsOf {round : Columns → Columns → Columns} {byteRound : Block → Block → Block}
    (h : ∀ b k, blockOfColumns (round (columnsOf b) (columnsOf k)) = byteRound b k) (w : Vector Word 60)
    (n r : Nat) (b : Block) :
    fullRounds round w n r (columnsOf b) =
      columnsOf ((List.range n).foldl (fun s i => byteRound s (keyOf w (i + r))) b) := by
  induction n generalizing r b with
  | zero => rfl
  | succ n ih =>
    rw [fullRounds, roundKey_eq, ← columnsOf_blockOfColumns (round _ _), h, ih, List.range_succ_eq_map, List.foldl_cons,
      List.foldl_map, Nat.zero_add]
    simp only [Nat.succ_add_eq_add_succ, Nat.succ_eq_add_one]

theorem cipher_rom (b : Block) (w : Vector Word 60) (nr : Nat) : cipher rom b w nr = encrypt b w nr := by
  simp only [cipher, encrypt, roundKey_eq, xorColumns_columnsOf, fullRounds_columnsOf encRound_rom, encFinal_rom]

theorem invCipher_rom (b : Block) (v : Vector Word 60) (nr : Nat) : invCipher rom b v nr = decryptEquivalent b v nr := by
  simp only [invCipher, decryptEquivalent, roundKey_eq, xorColumns_columnsOf, fullRounds_columnsOf decRound_rom,
    decFinal_rom]

/-! Each transformation of a round is undone (R151). -/

theorem xorBytes_cancel {n : Nat} (x k : Bytes n) : xorBytes (xorBytes x k) k = x :=
  Vector.ext fun i hi => by simp [xorBytes]

theorem invSubBytes_subBytes (b : Block) : invSubBytes (subBytes b) = b :=
  Vector.ext fun i hi => by simp [invSubBytes, subBytes, invSbox_sbox]

theorem invShiftRows_shiftRows (b : Block) : invShiftRows (shiftRows b) = b :=
  block_eq_of_getColumn fun c => by
    fin_cases c <;> simp [getColumn_invShiftRows, getColumn_shiftRows, wordOfBytes_bytes]

/-- Substitution is bytewise, so it commutes with a permutation of the bytes. -/
theorem invSubBytes_shiftRows (b : Block) : invSubBytes (shiftRows b) = shiftRows (invSubBytes b) :=
  Vector.ext fun i hi => by simp [invSubBytes, shiftRows]

theorem invShiftRows_invSubBytes_shiftRows_subBytes (b : Block) :
    invShiftRows (invSubBytes (shiftRows (subBytes b))) = b := by
  rw [invSubBytes_shiftRows, invSubBytes_subBytes, invShiftRows_shiftRows]

/-! Circulant matrices act linearly, and their product is circulant, so InvMixColumns undoes MixColumns. -/

/-- The first row of the product of two circulant matrices: the first row of `m` times the columns of `n`. -/
def circulantMul (m n : Vector Byte 4) : Vector Byte 4 :=
  #v[circulantRow m 0 n[0] n[3] n[2] n[1], circulantRow m 0 n[1] n[0] n[3] n[2],
    circulantRow m 0 n[2] n[1] n[0] n[3], circulantRow m 0 n[3] n[2] n[1] n[0]]

/-! Each further row is the first row on the column rotated, so one row of a product is enough. -/

section
variable (m n : Vector Byte 4) (a0 a1 a2 a3 : Byte)

theorem circulantRow_one : circulantRow m 1 a0 a1 a2 a3 = circulantRow m 0 a1 a2 a3 a0 := by
  simp only [circulantRow, Nat.reduceMod, Nat.reduceSub]
  ac_rfl

theorem circulantRow_two : circulantRow m 2 a0 a1 a2 a3 = circulantRow m 0 a2 a3 a0 a1 := by
  simp only [circulantRow, Nat.reduceMod, Nat.reduceSub]
  ac_rfl

theorem circulantRow_three : circulantRow m 3 a0 a1 a2 a3 = circulantRow m 0 a3 a0 a1 a2 := by
  simp only [circulantRow, Nat.reduceMod, Nat.reduceSub]
  ac_rfl

theorem circulantRow_circulantMul :
    circulantRow (circulantMul m n) 0 a0 a1 a2 a3 =
      circulantRow m 0 (circulantRow n 0 a0 a1 a2 a3) (circulantRow n 0 a1 a2 a3 a0) (circulantRow n 0 a2 a3 a0 a1)
        (circulantRow n 0 a3 a0 a1 a2) := by
  simp [circulantRow, circulantMul, gfMul_xor, xor_gfMul, gfMul_assoc]
  ac_rfl

end

theorem circulantWord_circulantMul (m n : Vector Byte 4) (w : Word) :
    circulantWord (circulantMul m n) w = circulantWord m (circulantWord n w) := by
  simp [circulantWord, circulantRow_one, circulantRow_two, circulantRow_three, circulantRow_circulantMul]

theorem circulantRow_xor (m : Vector Byte 4) (r : Nat) (a0 a1 a2 a3 b0 b1 b2 b3 : Byte) :
    circulantRow m r (a0 ^^^ b0) (a1 ^^^ b1) (a2 ^^^ b2) (a3 ^^^ b3) =
      circulantRow m r a0 a1 a2 a3 ^^^ circulantRow m r b0 b1 b2 b3 := by
  simp only [circulantRow, gfMul_xor]
  ac_rfl

theorem circulantWord_xor (m : Vector Byte 4) (v w : Word) :
    circulantWord m (v ^^^ w) = circulantWord m v ^^^ circulantWord m w := by
  simp only [circulantWord, circulantRow_xor, wordOfBytes_xor, byte3_xor, byte2_xor, byte1_xor, byte0_xor]

theorem invMixRow_mul_mixRow : circulantMul invMixRow mixRow = #v[1, 0, 0, 0] := by decide

theorem circulantWord_one (w : Word) : circulantWord #v[1, 0, 0, 0] w = w := by
  have hz : ∀ a, gfMul 0#8 a = 0#8 := zero_gfMul
  simp [circulantWord, circulantRow, hz, wordOfBytes_bytes]

theorem invMixColumns_mixColumns (b : Block) : invMixColumns (mixColumns b) = b :=
  block_eq_of_getColumn fun c => by
    rw [invMixColumns, mixColumns, getColumn_circulant, getColumn_circulant, ← circulantWord_circulantMul,
      invMixRow_mul_mixRow, circulantWord_one]

theorem invMixColumns_xorBytes (x y : Block) :
    invMixColumns (xorBytes x y) = xorBytes (invMixColumns x) (invMixColumns y) :=
  block_eq_of_getColumn fun c => by
    simp only [invMixColumns, getColumn_circulant, getColumn_xorBytes, circulantWord_xor]

/-! The decryption schedule by round keys (R173, R174). -/

theorem invMixColumnWord_eq (v : Word) : invMixColumnWord v = circulantWord invMixRow v := rfl

section
variable {w v : Vector Word 60} {nr : Nat} (h : IsDecryptSchedule w v nr)
include h

theorem keyOf_decrypt_zero : keyOf v 0 = keyOf w nr :=
  block_eq_of_getColumn fun c => by
    simpa [getColumn_keyOf] using h 0 c (Nat.zero_le nr) c.isLt

theorem keyOf_decrypt_last : keyOf v nr = keyOf w 0 :=
  block_eq_of_getColumn fun c => by
    simpa [getColumn_keyOf] using h nr c le_rfl c.isLt

theorem keyOf_decrypt_between {r : Nat} (h1 : 1 ≤ r) (h2 : r < nr) :
    keyOf v r = invMixColumns (keyOf w (nr - r)) :=
  block_eq_of_getColumn fun c => by
    rw [invMixColumns, getColumn_circulant, getColumn_keyOf, getColumn_keyOf, h r c h2.le c.isLt, if_pos ⟨h1, h2⟩,
      invMixColumnWord_eq]

end

/-! Decryption goes back through the states of encryption. -/

/-- The state of the cipher after `r` full rounds (R190). -/
def encState (b : Block) (w : Vector Word 60) (r : Nat) : Block :=
  (List.range r).foldl (fun s i => round s (keyOf w (i + 1))) (xorBytes b (keyOf w 0))

/-- The state of the equivalent inverse cipher after `r` full rounds (R191). -/
def decState (b : Block) (v : Vector Word 60) (r : Nat) : Block :=
  (List.range r).foldl (fun s i => xorBytes (invMixColumns (invShiftRows (invSubBytes s))) (keyOf v (i + 1)))
    (xorBytes b (keyOf v 0))

theorem encrypt_eq (b : Block) (w : Vector Word 60) (nr : Nat) :
    encrypt b w nr = xorBytes (shiftRows (subBytes (encState b w (nr - 1)))) (keyOf w nr) := rfl

theorem decryptEquivalent_eq (b : Block) (v : Vector Word 60) (nr : Nat) :
    decryptEquivalent b v nr = xorBytes (invShiftRows (invSubBytes (decState b v (nr - 1)))) (keyOf v nr) := rfl

theorem encState_zero (b : Block) (w : Vector Word 60) : encState b w 0 = xorBytes b (keyOf w 0) := rfl

theorem decState_zero (b : Block) (v : Vector Word 60) : decState b v 0 = xorBytes b (keyOf v 0) := rfl

theorem encState_succ (b : Block) (w : Vector Word 60) (r : Nat) :
    encState b w (r + 1) = round (encState b w r) (keyOf w (r + 1)) := by
  rw [encState, List.range_succ, List.foldl_append]
  rfl

theorem decState_succ (b : Block) (v : Vector Word 60) (r : Nat) :
    decState b v (r + 1) = xorBytes (invMixColumns (invShiftRows (invSubBytes (decState b v r)))) (keyOf v (r + 1)) := by
  rw [decState, List.range_succ, List.foldl_append]
  rfl

/-- Inverse-mixing a full round's result, and adding its mixed key, gives the substituted and shifted state before it. -/
theorem invMixColumns_round (b k : Block) :
    xorBytes (invMixColumns (round b k)) (invMixColumns k) = shiftRows (subBytes b) := by
  rw [ByteAes.round, invMixColumns_xorBytes, xorBytes_cancel, invMixColumns_mixColumns]

/-- After `r` of its full rounds, decryption stands before the same substitution as encryption did. -/
theorem decState_encrypt {w v : Vector Word 60} {nr : Nat} (h : IsDecryptSchedule w v nr) (b : Block) {r : Nat}
    (hr : r < nr) : decState (encrypt b w nr) v r = shiftRows (subBytes (encState b w (nr - 1 - r))) := by
  induction r with
  | zero =>
    rw [decState_zero, encrypt_eq, keyOf_decrypt_zero h, xorBytes_cancel, Nat.sub_zero]
  | succ r ih =>
    have hs : nr - 1 - r = nr - 1 - (r + 1) + 1 := by omega
    have hk : nr - 1 - (r + 1) + 1 = nr - (r + 1) := by omega
    rw [decState_succ, ih (by omega), invShiftRows_invSubBytes_shiftRows_subBytes, hs, encState_succ, hk,
      keyOf_decrypt_between h (Nat.succ_pos r) hr, invMixColumns_round]

/-- R175 at byte level: the equivalent inverse cipher on a decryption schedule undoes the cipher. -/
theorem decryptEquivalent_encrypt {w v : Vector Word 60} {nr : Nat} (h : IsDecryptSchedule w v nr) (hnr : 0 < nr)
    (b : Block) : decryptEquivalent (encrypt b w nr) v nr = b := by
  rw [decryptEquivalent_eq, decState_encrypt h b (Nat.sub_one_lt_of_lt hnr),
    invShiftRows_invSubBytes_shiftRows_subBytes, keyOf_decrypt_last h, Nat.sub_self, encState_zero,
    xorBytes_cancel]

theorem roundsOf_pos (bits : Nat) : 0 < roundsOf bits := by
  rw [roundsOf]
  split
  · decide
  · split <;> decide

/-- Settles O36: on the ROM both ciphers are the byte-level ones, and the derived schedule is a decryption schedule. -/
theorem decryptionInvertsEncryption : Obligations.DecryptionInvertsEncryption := by
  intro bits key block above above' hb w nr
  rw [cipher_rom, invCipher_rom]
  exact decryptEquivalent_encrypt (isDecryptSchedule_deriveDecrypt key hb above above') (roundsOf_pos bits) block

end Sys2Proof.Machine
end

section
/-! PROOFS. The commands ENCRYPT and DECRYPT (42_aes_block.md R192, R193; 41_aes_key_schedule.md R175). -/

namespace Sys2Proof.Machine

theorem exec_encrypt_without_key {s : State} (hk : s.status.ekValid = false) :
    exec .encrypt s = .next (s.finish 4) := by
  simp [exec, execEncrypt, hk]

theorem exec_encrypt {s : State} (hk : s.status.ekValid = true) :
    exec .encrypt s = s.writeDout fun T x => cipher T x s.ek s.rounds.toNat := by
  simp only [exec, execEncrypt, hk, if_true]

theorem exec_decrypt_without_key {s : State} (hk : s.status.dkValid = false) :
    exec .decrypt s = .next (s.finish 4) := by
  simp [exec, execDecrypt, hk]

theorem exec_decrypt {s : State} (hk : s.status.dkValid = true) :
    exec .decrypt s = s.writeDout fun T x => invCipher T x s.dk s.rounds.toNat := by
  simp only [exec, execDecrypt, hk, if_true]

/-- Settles O33: without a key ENCRYPT only finishes; with one it writes DOUT with the cipher, which on the ROM is the
byte-level one. -/
theorem encryptWritesTheCipherOfDin : Obligations.EncryptWritesTheCipherOfDin := by
  refine fun s => ⟨fun hk => exec_encrypt_without_key hk, fun hk h => ?_⟩
  rw [exec_encrypt hk, ← cipher_rom]
  exact writeDout_of_tablesGood h fun T x => cipher T x s.ek s.rounds.toNat

/-- Settles O34: without a decryption schedule DECRYPT only finishes; with one it writes DOUT with the inverse cipher,
which on the ROM is the byte-level one. -/
theorem decryptWritesTheInverseCipherOfDin : Obligations.DecryptWritesTheInverseCipherOfDin := by
  refine fun s => ⟨fun hk => exec_decrypt_without_key hk, fun hk h => ?_⟩
  rw [exec_decrypt hk, ← invCipher_rom]
  exact writeDout_of_tablesGood h fun T x => invCipher T x s.dk s.rounds.toNat

/-- With a key set, there are rounds (R49, R170). -/
theorem State.ContextInv.rounds_pos {s : State} (hs : s.ContextInv) (hk : s.status.ekValid = true) :
    0 < s.rounds.toNat := by
  obtain ⟨-, bits, -, hr, -⟩ := hs.ek hk
  rw [hr, toNat_roundsOf]
  exact roundsOf_pos bits

/-- Settles O37: ENCRYPT leaves the context and the tables alone, so DECRYPT finds the decryption schedule of the EK
that encrypted. -/
theorem decryptAfterEncryptGivesTheBlockBack : Obligations.DecryptAfterEncryptGivesTheBlockBack := by
  intro s hs h hdk
  obtain ⟨hek, hsched⟩ := hs.dk hdk
  obtain ⟨t, ht, htout, htstatus, -, hframe⟩ := (encryptWritesTheCipherOfDin s).2 hek h
  have htdk : t.status.dkValid = true := htstatus ▸ hdk
  have hT : t.TablesGood := by
    rw [← hframe] at h
    exact h
  obtain ⟨u, hu, huout, -⟩ := (decryptWritesTheInverseCipherOfDin { t with din := t.dout }).2 htdk hT
  have hdkEq : t.dk = s.dk := by rw [← hframe]
  have hroundsEq : t.rounds = s.rounds := by rw [← hframe]
  refine ⟨t, u, ht, hu, ?_⟩
  rw [huout, htout, hdkEq, hroundsEq]
  exact decryptEquivalent_encrypt hsched (hs.rounds_pos hek) s.din

end Sys2Proof.Machine
end

section
/-! PROOFS. The execution strategies P_HW_ROUND, P_TCACHE, P_GROUP_LANES and P_UNROLL change no command's outcome
(00_scope.md R14; 42_aes_block.md R195; 43_hash_engine.md R234): part by part, a command commutes with the exchange of
the platform, because tables that are good are the ROM on both. -/

namespace Sys2Proof.Machine

/-- The same state on another platform. -/
def State.withPlatform (s : State) (p : Platform) : State := { s with platform := p }

/-- `p` differs from the platform of `s` in the strategies alone, and the tables are good on both. -/
structure State.StrategyVariant (s : State) (p : Platform) : Prop where
  basePage : p.basePage = s.platform.basePage
  admitted : p.admitted = s.platform.admitted
  refusedKeys : p.refusedKeys = s.platform.refusedKeys
  tables : s.TablesGood
  variantTables : (s.withPlatform p).TablesGood

/-- The same result on another platform. -/
def EngineResult.withPlatform (p : Platform) : EngineResult → EngineResult
  | .more s => .more (s.withPlatform p)
  | .ended s => .ended (s.withPlatform p)
  | .fault f => .fault f

/-- The same outcome on another platform. -/
def outcomeWithPlatform (p : Platform) : Host.Outcome State Fault Refusal → Host.Outcome State Fault Refusal
  | .next s => .next (s.withPlatform p)
  | .fault f => .fault f
  | .refused r => .refused r

/-- A state update is the same on the platform `p`. -/
def UpdateCommutes (p : Platform) (f : State → State) : Prop :=
  ∀ s : State, s.StrategyVariant p → f (s.withPlatform p) = (f s).withPlatform p

/-- A part of a hash command ends in the same way on the platform `p`. -/
def PartCommutes (p : Platform) (f : State → EngineResult) : Prop :=
  ∀ s : State, s.StrategyVariant p → f (s.withPlatform p) = (f s).withPlatform p

/-- A command, or the rest of one, has the same outcome on the platform `p`. -/
def RestCommutes (p : Platform) (f : State → Host.Outcome State Fault Refusal) : Prop :=
  ∀ s : State, s.StrategyVariant p → f (s.withPlatform p) = outcomeWithPlatform p (f s)

section
variable {p : Platform}

/-- A part of a hash command keeps the premises for the part after it. -/
theorem State.StrategyVariant.after {s t : State} (h : s.StrategyVariant p) (hf : EngineFrame s t) :
    t.StrategyVariant p := by
  obtain ⟨hb, ha, hr, hT, hT'⟩ := h
  obtain ⟨htc, hv⟩ := hf.tc
  constructor
  · rwa [hf.platform]
  · rwa [hf.platform]
  · rwa [hf.platform]
  · rw [State.TablesGood, hf.platform, htc, hv]
    exact hT
  · intro hc
    exact ⟨hv.trans (hT' hc).1, htc.trans (hT' hc).2⟩

/-! How a command ends asks nothing of the platform (R86, R271). -/

theorem finish_withPlatform (s : State) (err : BitVec 4) :
    (s.withPlatform p).finish err = (s.finish err).withPlatform p := rfl

theorem releaseEngine_withPlatform (s : State) :
    (s.withPlatform p).releaseEngine = s.releaseEngine.withPlatform p := rfl

theorem releaseMix_withPlatform (s : State) : (s.withPlatform p).releaseMix = s.releaseMix.withPlatform p := rfl

theorem drawFirst_withPlatform (s : State) (n : Nat) :
    (s.withPlatform p).drawFirst n = (s.drawFirst n).withPlatform p := rfl

theorem drawWindow_withPlatform (s : State) : (s.withPlatform p).drawWindow = s.drawWindow.withPlatform p :=
  drawFirst_withPlatform s scratchBytes

theorem drawWindow_finish_withPlatform (s : State) (err : BitVec 4) :
    (s.withPlatform p).drawWindow.finish err = (s.drawWindow.finish err).withPlatform p := by
  rw [drawWindow_withPlatform, finish_withPlatform]

theorem endHash_withPlatform (s : State) (err : BitVec 4) :
    (s.withPlatform p).endHash err = (s.endHash err).withPlatform p := by
  have h : State.drawWindow { s.withPlatform p with stateBuf := (s.withPlatform p).sponge } =
      (State.drawWindow { s with stateBuf := s.sponge }).withPlatform p :=
    drawWindow_withPlatform { s with stateBuf := s.sponge }
  rw [State.endHash, State.endHash, h, releaseEngine_withPlatform, finish_withPlatform]

/-! What a command asks of the platform: the windows and keys it accepts, and its tables (R81, R92, R154, R213). -/

section
variable {s : State} (h : s.StrategyVariant p)
include h

theorem tables_withPlatform : (s.withPlatform p).tables = s.tables :=
  (tables_eq_rom h.variantTables).trans (tables_eq_rom h.tables).symm

theorem tablesReady_withPlatform : (s.withPlatform p).tablesReady = s.tablesReady :=
  (tablesReady_eq_true h.variantTables).trans (tablesReady_eq_true h.tables).symm

theorem memAdmits_withPlatform (base : BitVec 64) (n : Nat) : memAdmits p base n = memAdmits s.platform base n := by
  simp only [memAdmits, registerWindow, pBase, h.basePage, h.admitted]

theorem scratchAdmitted_withPlatform : (s.withPlatform p).scratchAdmitted = s.scratchAdmitted :=
  memAdmits_withPlatform h s.scratchAddr scratchBytes

theorem dataAdmitted_withPlatform : (s.withPlatform p).dataAdmitted = s.dataAdmitted :=
  congrArg (decide (s.dataLen = 0) || ·) (memAdmits_withPlatform h s.dataAddr s.dataLen.toNat)

theorem tableGuard_withPlatform (go : EngineResult) :
    (s.withPlatform p).tableGuard (go.withPlatform p) = (s.tableGuard go).withPlatform p := by
  rw [State.tableGuard, State.tableGuard, tablesReady_withPlatform h]
  split <;> rfl

theorem fillGuard_withPlatform (go : EngineResult) :
    (s.withPlatform p).fillGuard (go.withPlatform p) = (s.fillGuard go).withPlatform p := by
  rw [State.fillGuard, State.fillGuard, scratchAdmitted_withPlatform h, tablesReady_withPlatform h]
  split
  · split <;> rfl
  · rfl

theorem importKey_withPlatform (key : Bytes 32) (g : Stage) :
    (s.withPlatform p).importKey key g = (s.importKey key g).withPlatform p := by
  have hr : (s.withPlatform p).platform.refusedKeys = s.platform.refusedKeys := h.refusedKeys
  rw [State.importKey, State.importKey, hr, tablesReady_withPlatform h, tables_withPlatform h]
  split
  · rw [endHash_withPlatform]
    rfl
  · split <;> rfl

theorem writeDout_withPlatform (f : LookupTables → Block → Block) :
    (s.withPlatform p).writeDout f = outcomeWithPlatform p (s.writeDout f) := by
  rw [State.writeDout, State.writeDout, tablesReady_withPlatform h, tables_withPlatform h]
  split <;> rfl

/-- A command that writes DOUT if its key is set, and else ends with NO_KEY (R192, R193). -/
theorem keyedWriteDout_withPlatform (keySet : Bool) (f : LookupTables → Block → Block) :
    (if keySet then (s.withPlatform p).writeDout f else .next ((s.withPlatform p).finish 4)) =
      outcomeWithPlatform p (if keySet then s.writeDout f else .next (s.finish 4)) := by
  cases keySet with
  | false => rfl
  | true => exact writeDout_withPlatform h f

theorem setEncryptKey_withPlatform (bits : Nat) :
    (s.withPlatform p).setEncryptKey bits = (s.setEncryptKey bits).withPlatform p := by
  rw [State.setEncryptKey, tables_withPlatform h]
  rfl

theorem setDecryptKey_withPlatform (bits : Nat) :
    (s.withPlatform p).setDecryptKey bits = (s.setDecryptKey bits).withPlatform p := by
  rw [State.setDecryptKey, tables_withPlatform h]
  rfl

end

/-- SETKEY_ENC keeps the premises for what SETKEY_DEC adds. -/
theorem State.StrategyVariant.setEncryptKey {s : State} (h : s.StrategyVariant p) (bits : Nat) :
    (s.setEncryptKey bits).StrategyVariant p :=
  ⟨h.basePage, h.admitted, h.refusedKeys, h.tables, h.variantTables⟩

/-! The loops of a hash command. -/

theorem UpdateCommutes.iterate {f : State → State} (hf : UpdateCommutes p f) (hframe : ∀ s, EngineFrame s (f s))
    (n : Nat) : UpdateCommutes p f^[n] := by
  induction n with
  | zero => exact fun s _ => rfl
  | succ n ih =>
    intro s h
    rw [Function.iterate_succ_apply, Function.iterate_succ_apply, hf s h, ih _ (h.after (hframe s))]

theorem fillBlock_commutes : UpdateCommutes p State.fillBlock := by
  intro s h
  simp only [State.fillBlock, tables_withPlatform h]
  simp only [State.withPlatform, State.scrWrite, State.scratchBlockAddr]

theorem foldBlock_commutes : UpdateCommutes p State.foldBlock := by
  intro s h
  simp only [State.foldBlock, tables_withPlatform h]
  simp only [State.withPlatform, State.scrRead, State.scratchBlockAddr]

theorem mixStep1_commutes : UpdateCommutes p State.mixStep1 := by
  intro s h
  simp only [State.mixStep1, tables_withPlatform h]
  simp only [State.withPlatform, State.scrRead, State.scrWrite, State.scratchBlockAddr]

theorem mixStep2_commutes : UpdateCommutes p State.mixStep2 := by
  intro s _
  simp only [State.withPlatform, State.mixStep2, State.mixSum, State.mixProduct, State.scrRead, State.scrWrite,
    State.scratchBlockAddr]

theorem mixIteration_commutes : UpdateCommutes p State.mixIteration := by
  intro s h
  rw [State.mixIteration, State.mixIteration, mixStep1_commutes s h,
    mixStep2_commutes s.mixStep1 (h.after (engineFrame_mixStep1 s)), releaseMix_withPlatform]
  rfl

/-! The stages of a hash command. -/

theorem stageCheck_commutes (c : HashKind) : PartCommutes p (stageCheck c) := by
  intro s _
  have ha : (s.withPlatform p).scratchAligned = s.scratchAligned := rfl
  simp only [stageCheck, ha]
  split
  · cases c <;> rfl
  · exact congrArg EngineResult.ended (drawWindow_finish_withPlatform s 5)

theorem stageAbsorb_commutes : PartCommutes p stageAbsorb := by
  intro s h
  rw [stageAbsorb, stageAbsorb, dataAdmitted_withPlatform h]
  split <;> rfl

theorem stageSeed_commutes : PartCommutes p stageSeed := fun s h =>
  importKey_withPlatform (h.after (engineFrame_loadText s)) _ _

theorem stageRekey_commutes : PartCommutes p stageRekey := fun s h =>
  importKey_withPlatform (h.after (engineFrame_loadText s)) _ _

theorem stageFill_commutes : PartCommutes p stageFill := by
  intro s h
  rw [stageFill, stageFill, ← fillGuard_withPlatform h, fillBlock_commutes.iterate engineFrame_fillBlock _ s h]
  rfl

theorem stageMix_commutes : PartCommutes p stageMix := by
  intro s h
  rw [stageMix, stageMix, ← tableGuard_withPlatform h, mixIteration_commutes.iterate engineFrame_mixIteration _ s h]
  rfl

theorem stageFold_commutes : PartCommutes p stageFold := by
  intro s h
  rw [stageFold, stageFold, ← tableGuard_withPlatform h, foldBlock_commutes.iterate engineFrame_foldBlock _ s h]
  rfl

theorem stageWriteBack_commutes (c : HashKind) : PartCommutes p (stageWriteBack c) := by
  intro s _
  cases c with
  | core =>
    simp only [stageWriteBack, EngineResult.withPlatform, ← endHash_withPlatform]
    simp only [State.withPlatform]
  | full => rfl

theorem stageFinalize_commutes : PartCommutes p stageFinalize := by
  intro s _
  simp only [stageFinalize, EngineResult.withPlatform, ← endHash_withPlatform]
  simp only [State.withPlatform]

/-! The rest of a hash command, from its last stage back to its check. -/

theorem PartCommutes.andThen {f : State → EngineResult} {rest : State → Host.Outcome State Fault Refusal}
    (hf : PartCommutes p f) (hsound : ∀ s, (f s).Sound s) (hrest : RestCommutes p rest) :
    RestCommutes p fun s => (f s).andThen rest := by
  intro s h
  have hs := hsound s
  simp only [hf s h]
  cases hr : f s with
  | more t =>
    rw [hr] at hs
    exact hrest t (h.after hs.1)
  | ended t => rfl
  | fault e => rfl

theorem runFinalize_commutes : RestCommutes p runFinalize :=
  stageFinalize_commutes.andThen sound_stageFinalize (rest := .next) fun _ _ => rfl

theorem runWriteBack_commutes (c : HashKind) : RestCommutes p (runWriteBack c) :=
  (stageWriteBack_commutes c).andThen (sound_stageWriteBack c) runFinalize_commutes

theorem runFold_commutes (c : HashKind) : RestCommutes p (runFold c) :=
  stageFold_commutes.andThen sound_stageFold (runWriteBack_commutes c)

theorem runRekey_commutes (c : HashKind) : RestCommutes p (runRekey c) :=
  stageRekey_commutes.andThen sound_stageRekey (runFold_commutes c)

theorem runMix_commutes (c : HashKind) : RestCommutes p (runMix c) :=
  stageMix_commutes.andThen sound_stageMix (runRekey_commutes c)

theorem runDerive_commutes (c : HashKind) : RestCommutes p (runDerive c) := fun s h =>
  runMix_commutes c (stageDerive s) (h.after (engineFrame_stageDerive s))

theorem runFill_commutes (c : HashKind) : RestCommutes p (runFill c) :=
  stageFill_commutes.andThen sound_stageFill (runDerive_commutes c)

theorem runSeed_commutes (c : HashKind) : RestCommutes p (runSeed c) :=
  stageSeed_commutes.andThen sound_stageSeed (runFill_commutes c)

theorem runAbsorb_commutes (c : HashKind) : RestCommutes p (runAbsorb c) :=
  stageAbsorb_commutes.andThen sound_stageAbsorb (runSeed_commutes c)

theorem runCheck_commutes (c : HashKind) : RestCommutes p (runCheck c) := by
  cases c with
  | core => exact (stageCheck_commutes .core).andThen (sound_stageCheck .core) (runSeed_commutes .core)
  | full => exact (stageCheck_commutes .full).andThen (sound_stageCheck .full) (runAbsorb_commutes .full)

/-! The commands. -/

theorem exec_hash_commutes (c : HashKind) : RestCommutes p (exec c.instr) := by
  intro s h
  rw [exec_instr, exec_instr]
  exact runCheck_commutes c (s.enter .check) (h.after (engineFrame_enter s .check))

theorem execSetkeyEnc_commutes (k : KeySize) : RestCommutes p (execSetkeyEnc k) := by
  intro s h
  rw [execSetkeyEnc, execSetkeyEnc, tablesReady_withPlatform h]
  split
  · rfl
  · rw [setEncryptKey_withPlatform h]
    split <;> rfl

theorem execSetkeyDec_commutes (k : KeySize) : RestCommutes p (execSetkeyDec k) := by
  intro s h
  rw [execSetkeyDec, execSetkeyDec, tablesReady_withPlatform h]
  split
  · rfl
  · next bits _ =>
    rw [setEncryptKey_withPlatform h, setDecryptKey_withPlatform (h.setEncryptKey bits)]
    split <;> rfl

theorem exec_commutes (i : Instr) : RestCommutes p (exec i) := by
  cases i with
  | nop => exact fun _ _ => rfl
  | setkeyEnc k => exact execSetkeyEnc_commutes k
  | setkeyDec k => exact execSetkeyDec_commutes k
  | encrypt =>
    exact fun s h => keyedWriteDout_withPlatform h s.status.ekValid fun T x => cipher T x s.ek s.rounds.toNat
  | decrypt =>
    exact fun s h => keyedWriteDout_withPlatform h s.status.dkValid fun T x => invCipher T x s.dk s.rounds.toNat
  | aesRound => exact fun s h => writeDout_withPlatform h fun T x => aesRoundBlock T x s.rkey
  | hashCore => exact exec_hash_commutes .core
  | hash => exact exec_hash_commutes .full

end

/-- Settles O41: every command commutes with the exchange of the platform. -/
theorem strategiesChangeNoResult : Obligations.StrategiesChangeNoResult := by
  intro i s p hb ha hr hT hT'
  refine (exec_commutes i s ⟨hb, ha, hr, hT, hT'⟩).trans ?_
  cases exec i s <;> rfl

end Sys2Proof.Machine
end

section
/-! PROOFS. Lanes as numbers and the scratchpad index (00_scope.md R17, R19; 43_hash_engine.md R220). -/

namespace Sys2Proof.Machine

/-- The bytes of a lane, from the lowest (R19). -/
theorem toNat_lane_bytes {n : Nat} (v : Bytes n) (i : Nat) (h : 8 * i + 8 ≤ n) :
    (lane v i h).toNat = v[8 * i + 0].toNat + 2 ^ 8 * v[8 * i + 1].toNat + 2 ^ 16 * v[8 * i + 2].toNat +
      2 ^ 24 * v[8 * i + 3].toNat + 2 ^ 32 * v[8 * i + 4].toNat + 2 ^ 40 * v[8 * i + 5].toNat +
      2 ^ 48 * v[8 * i + 6].toNat + 2 ^ 56 * v[8 * i + 7].toNat := by
  have h0 : v[8 * i + 0] = v[8 * i] := rfl
  simp only [lane, toNat_append_fields, h0]
  omega

/-- A lane is the value of its eight bytes. -/
theorem toNat_lane (b : Block) (i : Fin 2) : (lane b i.val (by omega)).toNat = EngineSpec.laneValue b i := by
  have hbyte : ∀ k (_ : k < 8), b[8 * i.val + k]?.getD 0 = b[8 * i.val + k] := fun k _ => by
    rw [Vector.getElem?_eq_getElem, Option.getD_some]
  simp only [EngineSpec.laneValue, List.sum_range_succ, List.range_zero, List.map_nil, List.sum_nil]
  rw [toNat_lane_bytes, hbyte 0 (by decide), hbyte 1 (by decide), hbyte 2 (by decide), hbyte 3 (by decide),
    hbyte 4 (by decide), hbyte 5 (by decide), hbyte 6 (by decide), hbyte 7 (by decide)]
  omega

theorem toNat_scratchIndex (x : Block) : (scratchIndex x).toNat = (lane x 0 (by omega)).toNat / 16 % 2 ^ 17 := by
  rw [scratchIndex, BitVec.extractLsb'_toNat, Nat.shiftRight_eq_div_pow]

/-- Settles O42: the index is a quotient of lane 0 by a number that the bytes from 3 on are multiples of. -/
theorem scratchIndexIsBitsOfTheLowLane : Obligations.ScratchIndexIsBitsOfTheLowLane := by
  intro x
  refine ⟨?_, ?_⟩
  · rw [toNat_scratchIndex, ← toNat_lane]
    rfl
  · rw [toNat_scratchIndex, toNat_lane_bytes]
    simp only [Nat.mul_zero, Nat.zero_add]
    omega

end Sys2Proof.Machine
end

section
/-! PROOFS. One turn of each loop of the hash engine (43_hash_engine.md R218, R221 to R223, R225): a micro-step of stages
3, 5 and 6. -/

namespace Sys2Proof.Machine

/-! A micro-step in stages 3, 5 and 6. -/

/-- A micro-step after which a hash command goes on is what an event of the sequencer does. -/
theorem takes_sequencer {s t : State} {c : HashKind} {g : Stage} (hr : s.Running c.instr g)
    (h : ∀ rest, engineTick c { s with events := rest } = .more { t with events := rest }) : s.Takes .sequencer t := by
  intro rest
  obtain ⟨hf, hp, hd, -⟩ := hr
  rw [step_event hf]
  refine (sequencerStep_of_run (s := { s with events := rest }) hp).trans ?_
  simp only [State.tickCommand, hd, hashKind_instr, h rest]
  rfl

/-- The state after a turn of a loop that left `u`: the loop goes on while `p`, and then the stage `next` begins. -/
def State.endTurn (u : State) (p : Prop) [Decidable p] (next : Stage) : State := if p then u else u.enter next

section
variable (u : State) (p : Prop) [Decidable p] (next : Stage)

/-- The end of a turn touches the sequencer alone. -/
theorem endTurn_eq : u.endTurn p next = { u with seq := (u.endTurn p next).seq } := by
  rw [State.endTurn]
  split <;> rfl

@[simp] theorem endTurn_a : (u.endTurn p next).a = u.a := by rw [endTurn_eq]

@[simp] theorem endTurn_b : (u.endTurn p next).b = u.b := by rw [endTurn_eq]

@[simp] theorem endTurn_text : (u.endTurn p next).text = u.text := by rw [endTurn_eq]

@[simp] theorem endTurn_mem : (u.endTurn p next).mem = u.mem := by rw [endTurn_eq]

@[simp] theorem endTurn_scratchAddr : (u.endTurn p next).scratchAddr = u.scratchAddr := by rw [endTurn_eq]

theorem endTurn_events (rest : List Event) :
    State.endTurn { u with events := rest } p next = { u.endTurn p next with events := rest } := by
  simp only [State.endTurn]
  split <;> rfl

end

/-- Each turn of a sweep is one position further (R218, R225). -/
theorem sweepPos_nextBlock (q : Sequencer) : q.nextBlock.sweepPos = q.sweepPos + 1 := by
  rw [Sequencer.nextBlock]
  split
  · next h =>
    simp only [Sequencer.sweepPos, h]
    rfl
  · next h =>
    have : (q.k + 1).val = q.k.val + 1 := Fin.val_add_one_of_lt' (by omega)
    simp only [Sequencer.sweepPos, this]
    omega

theorem sweepPos_lt {q : Sequencer} (h : q.i < fillIters) : q.sweepPos < sweepBlocks := by
  simp only [Sequencer.sweepPos, sweepBlocks]
  omega

/-- The counters after a turn of a sweep: the next block, iteration or stage. -/
theorem endTurn_seq {u : State} {q : Sequencer} (hu : u.seq = q.nextBlock) (hi : q.i < fillIters) (next : Stage) :
    (u.endTurn (u.seq.sweepPos < sweepBlocks) next).seq =
      if q.k ≠ 7 then ⟨q.stage, q.i, q.k + 1, q.n⟩
      else if q.i < 16383 then ⟨q.stage, q.i + 1, 0, q.n⟩ else ⟨next, 0, 0, 0⟩ := by
  have hpos : u.seq.sweepPos = q.sweepPos + 1 := hu ▸ sweepPos_nextBlock q
  have hlt : u.seq.sweepPos < sweepBlocks ↔ q.k ≠ 7 ∨ q.i < 16383 := by
    rw [hpos, Sequencer.sweepPos, sweepBlocks]
    rw [fillIters] at *
    omega
  rw [State.endTurn]
  by_cases hk : q.k = 7
  · by_cases hl : q.i < 16383
    · rw [if_pos (hlt.mpr (.inr hl)), if_neg (not_not.mpr hk), if_pos hl, hu, Sequencer.nextBlock, if_pos hk]
    · rw [if_neg (by rw [hlt]; tauto), if_neg (not_not.mpr hk), if_neg hl, State.enter_seq]
  · rw [if_pos (hlt.mpr (.inl hk)), if_pos hk, hu, Sequencer.nextBlock, if_neg hk]

/-- The scratchpad block of a turn as a number. -/
theorem toNat_sweepBlock {q : Sequencer} (h : q.sweepPos < sweepBlocks) : q.sweepBlock.toNat = q.sweepPos :=
  (BitVec.toNat_ofNat ..).trans (Nat.mod_eq_of_lt h)

theorem fillGuard_of_open {s : State} (hT : s.TablesGood) (ho : s.scratchOpen) (go : EngineResult) :
    s.fillGuard go = go := by
  rw [State.fillGuard, if_pos ((scratchAdmitted_eq_true s).mpr ho), if_pos (tablesReady_eq_true hT)]

theorem tableGuard_of_tablesGood {s : State} (hT : s.TablesGood) (go : EngineResult) : s.tableGuard go = go := by
  rw [State.tableGuard, if_pos (tablesReady_eq_true hT)]

/-! Stage 3. -/

/-- The scratchpad is memory from SCRATCH_ADDR on (R78). -/
theorem scrRead_congr {s t : State} (hm : t.mem = s.mem) (ha : t.scratchAddr = s.scratchAddr) :
    t.scrRead = s.scrRead := by
  funext j
  simp only [State.scrRead, State.scratchBlockAddr, hm, ha]

/-- Of the scratchpad blocks, a turn of stage 3 writes its own alone (R218). -/
theorem scrRead_fillBlock {s : State} (hm : s.mem.wf) (j : BitVec 17) :
    s.fillBlock.scrRead j =
      if j = s.seq.sweepBlock then pseudoEncrypt s.tables s.text[s.seq.k] s.hk else s.scrRead j := by
  rw [← s.scrRead_scrWrite hm]
  exact congrFun (scrRead_congr (s.fillBlock_mem.trans (s.scrWrite_mem _ _).symm)
    (s.fillBlock_scratchAddr.trans (s.scrWrite_scratchAddr _ _).symm)) j

theorem fillBlock_events (s : State) (rest : List Event) :
    State.fillBlock { s with events := rest } = { s.fillBlock with events := rest } := by
  simp only [State.fillBlock, State.scrWrite, State.scratchBlockAddr, State.tables]

theorem engineTick_fill {s : State} (c : HashKind) (hg : s.seq.stage = .fill) (hT : s.TablesGood)
    (ho : s.scratchOpen) (hi : s.seq.i < fillIters) :
    engineTick c s = .more (s.fillBlock.endTurn (s.fillBlock.seq.sweepPos < sweepBlocks) .derive) := by
  simp only [engineTick, hg, tickFill, fillGuard_of_open hT ho, if_pos (sweepPos_lt hi)]
  rfl

/-- Settles O46: a micro-step of stage 3 is one turn, and its block is one scratchpad write. -/
theorem fillTurnWritesOneBlock : Obligations.FillTurnWritesOneBlock := by
  intro s c hr hT hm ho hi
  obtain ⟨-, -, -, hg⟩ := id hr
  have hframe := engineFrame_fillBlock s
  have hpos := sweepPos_lt hi.i
  refine ⟨s.fillBlock.endTurn (s.fillBlock.seq.sweepPos < sweepBlocks) .derive,
    takes_sequencer hr fun rest => ?_, ?_, fun j => ?_, fun x hx => ?_, ?_, ?_, ?_⟩
  · rw [engineTick_fill (s := { s with events := rest }) c hg hT ho hi.i, fillBlock_events, endTurn_events]
  · rw [endTurn_text, State.fillBlock_text, tables_eq_rom hT]
  · have hj : j.toNat = 8 * s.seq.i + s.seq.k.val ↔ j = s.seq.sweepBlock := by
      rw [← BitVec.toNat_inj, toNat_sweepBlock hpos, Sequencer.sweepPos]
    rw [scrRead_congr (endTurn_mem ..) (endTurn_scratchAddr ..), scrRead_fillBlock hm, tables_eq_rom hT]
    simp only [hj]
  · rw [endTurn_mem]
    exact hframe.outside hm (scratchOpen_fits ho) x hx
  · rw [endTurn_mem]
    exact hframe.wf hm
  · rw [endTurn_seq s.fillBlock_seq hi.i, hg]
  · rw [endTurn_eq]
    simp only [State.fillBlock, State.scrWrite]

/-! Stage 6. -/

theorem foldBlock_events (s : State) (rest : List Event) :
    State.foldBlock { s with events := rest } = { s.foldBlock with events := rest } := by
  simp only [State.foldBlock, State.scrRead, State.scratchBlockAddr, State.tables]

theorem engineTick_fold {s : State} (c : HashKind) (hg : s.seq.stage = .fold) (hT : s.TablesGood)
    (hi : s.seq.i < fillIters) :
    engineTick c s = .more (s.foldBlock.endTurn (s.foldBlock.seq.sweepPos < sweepBlocks) .writeBack) := by
  simp only [engineTick, hg, tickFold, tableGuard_of_tablesGood hT, if_pos (sweepPos_lt hi)]
  rfl

/-- Settles O48: a micro-step of stage 6's sweep is one turn, which reads one scratchpad block. -/
theorem foldTurnReadsOneBlock : Obligations.FoldTurnReadsOneBlock := by
  intro s c hr hT hi
  obtain ⟨-, -, -, hg⟩ := id hr
  refine ⟨s.foldBlock.endTurn (s.foldBlock.seq.sweepPos < sweepBlocks) .writeBack,
    takes_sequencer hr fun rest => ?_, ?_, ?_, ?_⟩
  · rw [engineTick_fold (s := { s with events := rest }) c hg hT hi.i, foldBlock_events, endTurn_events]
  · rw [endTurn_text, State.foldBlock_text, tables_eq_rom hT]
    rfl
  · rw [endTurn_seq s.foldBlock_seq hi.i, hg]
  · rw [endTurn_eq]
    simp only [State.foldBlock]

end Sys2Proof.Machine
end

section
/-! PROOFS. The mixing loop on numbers (43_hash_engine.md R221 to R223): one iteration of stage 5 is
`EngineSpec.mixOnce`. -/

namespace Sys2Proof.Machine

open EngineSpec

theorem scratchIndex_eq (x : Block) : scratchIndex x = index x :=
  BitVec.eq_of_toNat_eq <| by
    rw [toNat_scratchIndex, index, BitVec.toNat_ofNat, ← toNat_lane]
    rfl

/-- The AesRound of the engine is the byte-level round (R152). -/
theorem aesRoundBlock_rom (b k : Block) : aesRoundBlock rom b k = ByteAes.round b k := encRound_rom b k

/-- Byte `k` of a lane that holds a number (R19). -/
theorem extractLsb'_ofNat_lane (n : Nat) {k : Nat} (hk : k < 8) :
    (BitVec.ofNat 64 n).extractLsb' (8 * k) 8 = BitVec.ofNat 8 (n / 256 ^ k) := by
  apply BitVec.eq_of_getLsbD_eq
  intro i hi
  rw [show 256 ^ k = 2 ^ (8 * k) by rw [Nat.pow_mul]]
  simp only [BitVec.getLsbD_extractLsb', BitVec.getLsbD_ofNat, Nat.testBit_div_two_pow, hi,
    show 8 * k + i < 64 by omega, Nat.add_comm i, decide_true, Bool.true_and]

theorem mkBlock_ofNat (m n : Nat) : mkBlock (BitVec.ofNat 64 m) (BitVec.ofNat 64 n) = ofLanes m n :=
  Vector.ext fun i hi => by
    simp only [mkBlock, ofLanes, Vector.getElem_ofFn]
    split <;> exact extractLsb'_ofNat_lane _ (Nat.mod_lt i (by decide))

/-- The full product loses nothing (R17). -/
theorem toNat_mulLanes (x y : Lane) : (mulLanes x y).toNat = x.toNat * y.toNat := by
  have hlt : x.toNat * y.toNat < 2 ^ 64 * 2 ^ 64 := Nat.mul_lt_mul'' x.isLt y.isLt
  rw [mulLanes, BitVec.toNat_mul, BitVec.toNat_setWidth_of_le (by decide), BitVec.toNat_setWidth_of_le (by decide)]
  exact Nat.mod_eq_of_lt hlt

/-- A lane plus a half of a product, as a number (R222). -/
theorem lane_add_eq (x : Lane) (p : BitVec 128) (start : Nat) :
    x + p.extractLsb' start 64 = BitVec.ofNat 64 (x.toNat + p.toNat / 2 ^ start) := by
  apply BitVec.eq_of_toNat_eq
  rw [BitVec.toNat_add, BitVec.extractLsb'_toNat, BitVec.toNat_ofNat, Nat.shiftRight_eq_div_pow, Nat.add_mod_mod]

/-- What stage 5 works on. -/
def State.mix (s : State) : Mix := ⟨s.a, s.b, s.scrRead⟩

/-- `P` of R222 as a number. -/
theorem toNat_mixProduct (s : State) :
    s.mixProduct.toNat = laneValue s.a 0 * laneValue (s.scrRead (index s.a)) 0 := by
  rw [State.mixProduct, toNat_mulLanes, scratchIndex_eq, ← toNat_lane, ← toNat_lane]
  rfl

/-- `d` of R222 on numbers. -/
theorem mixSum_eq (s : State) :
    s.mixSum = ofLanes (laneValue s.e 0 + s.mixProduct.toNat / 2 ^ 64) (laneValue s.e 1 + s.mixProduct.toNat % 2 ^ 64) := by
  have hlow : ∀ m n : Nat, BitVec.ofNat 64 (m + n % 2 ^ 64) = BitVec.ofNat 64 (m + n / 2 ^ 0) := fun m n => by
    rw [pow_zero, Nat.div_one]
    exact BitVec.eq_of_toNat_eq (by simp)
  rw [← mkBlock_ofNat, State.mixSum, lane_add_eq, lane_add_eq, ← toNat_lane, ← toNat_lane, hlow]
  rfl

theorem scrRead_mixStep1 {s : State} (hm : s.mem.wf) :
    s.mixStep1.scrRead =
      store s.scrRead (index s.a) (xorBytes (aesRoundBlock s.tables (s.scrRead (index s.a)) s.a) s.b) := by
  funext j
  rw [store, ← scratchIndex_eq, ← s.scrRead_scrWrite hm]
  exact congrFun (scrRead_congr (s.mixStep1_mem.trans (s.scrWrite_mem _ _).symm)
    (s.mixStep1_scratchAddr.trans (s.scrWrite_scratchAddr _ _).symm)) j

theorem scrRead_mixStep2 {s : State} (hm : s.mem.wf) :
    s.mixStep2.scrRead = store s.scrRead (index s.a) s.mixSum := by
  funext j
  rw [store, ← scratchIndex_eq, ← s.scrRead_scrWrite hm]
  exact congrFun (scrRead_congr (s.mixStep2_mem.trans (s.scrWrite_mem _ _).symm)
    (s.mixStep2_scratchAddr.trans (s.scrWrite_scratchAddr _ _).symm)) j

/-- One iteration of stage 5, on numbers (R221 to R223). -/
theorem mix_mixIteration {s : State} (hT : s.TablesGood) (hm : s.mem.wf) :
    s.mixIteration.mix = mixOnce s.mix := by
  have hm' := (engineFrame_mixStep1 s).wf hm
  have hscr : s.mixIteration.scrRead = s.mixStep1.mixStep2.scrRead :=
    scrRead_congr s.mixIteration_mem (by simp)
  simp only [State.mix, hscr, scrRead_mixStep2 hm', scrRead_mixStep1 hm, mixOnce,
    State.mixIteration_a, State.mixIteration_b, State.mixStep2_a, State.mixStep2_b, mixSum_eq, toNat_mixProduct, State.mixStep1_a,
    State.mixStep1_e, scratchIndex_eq, tables_eq_rom hT, aesRoundBlock_rom]

theorem engineTick_mix {s : State} (c : HashKind) (hg : s.seq.stage = .mix) (hT : s.TablesGood)
    (hn : s.seq.n < mixIters) :
    engineTick c s = .more (s.mixIteration.endTurn (s.mixIteration.seq.n < mixIters) .rekey) := by
  simp only [engineTick, hg, tickMix, tableGuard_of_tablesGood hT, if_pos hn]
  rfl

theorem mixIteration_events (s : State) (rest : List Event) :
    State.mixIteration { s with events := rest } = { s.mixIteration with events := rest } := by
  simp only [State.mixIteration, State.mixStep1, State.mixStep2, State.mixSum, State.mixProduct, State.releaseMix,
    State.scrRead, State.scrWrite, State.scratchBlockAddr, State.tables]

/-- Settles O47: a micro-step of stage 5 is one iteration, which on numbers is `mixOnce`. -/
theorem mixIterationFollowsBothSteps : Obligations.MixIterationFollowsBothSteps := by
  intro s c hr hT hm ho hi
  obtain ⟨-, -, -, hg⟩ := id hr
  have hframe := engineFrame_mixIteration s
  refine ⟨s.mixIteration.endTurn (s.mixIteration.seq.n < mixIters) .rekey, takes_sequencer hr fun rest => ?_, ?_,
    fun x hx => ?_, ?_, ?_, ?_⟩
  · rw [engineTick_mix (s := { s with events := rest }) c hg hT hi.n, mixIteration_events, endTurn_events]
  · rw [endTurn_a, endTurn_b, scrRead_congr (endTurn_mem ..) (endTurn_scratchAddr ..)]
    exact mix_mixIteration hT hm
  · rw [endTurn_mem]
    exact hframe.outside hm (scratchOpen_fits ho) x hx
  · rw [endTurn_mem]
    exact hframe.wf hm
  · have hlast : s.mixIteration.seq.n < mixIters ↔ s.seq.n < 2 ^ 19 - 1 := by
      simp only [State.mixIteration_seq, mixIters]
      omega
    simp only [State.endTurn, hlast]
    split
    · exact s.mixIteration_seq
    · rfl
  · rw [endTurn_eq]
    simp

end Sys2Proof.Machine
end

section
/-! PROOFS. The micro-steps of a hash command and its run are one machine (43_hash_engine.md R210; 00_scope.md R25): a run
is a micro-step and then the run of the rest. -/

namespace Sys2Proof.Machine

/-- Two rests that agree where a part goes on are one rest after it. -/
theorem EngineResult.andThen_congr {r : EngineResult} {rest rest' : State → Host.Outcome State Fault Refusal}
    (h : ∀ t, r = .more t → rest t = rest' t) : r.andThen rest = r.andThen rest' := by
  cases r with
  | more t => exact h t rfl
  | ended t => rfl
  | fault f => rfl

/-- If a part goes on, it is at the stage `g`. -/
def EngineResult.GoesTo (r : EngineResult) (g : Stage) : Prop := ∀ t, r = .more t → t.seq.stage = g

theorem goesTo_enter (s : State) (g : Stage) : (EngineResult.more (s.enter g)).GoesTo g := by
  rintro t ⟨⟩
  rfl

theorem goesTo_ended (s : State) (g : Stage) : (EngineResult.ended s).GoesTo g := by
  intro t h
  cases h

theorem goesTo_fault (f : Fault) (g : Stage) : (EngineResult.fault f).GoesTo g := by
  intro t h
  cases h

theorem goesTo_importKey (s : State) (key : Bytes 32) (g : Stage) : (s.importKey key g).GoesTo g := by
  rw [State.importKey]
  split
  · exact goesTo_ended _ g
  · split
    · exact goesTo_enter _ g
    · exact goesTo_fault _ g

theorem goesTo_stageAbsorb (s : State) : (stageAbsorb s).GoesTo .seed := by
  rw [stageAbsorb]
  split
  · exact goesTo_enter _ _
  · exact goesTo_fault _ _

/-! The run from each stage. -/

section
variable {c : HashKind} {s : State}

theorem engineRun_absorb (h : s.seq.stage = .absorb) : engineRun c s = runAbsorb c s := by simp only [engineRun, h]

theorem engineRun_seed (h : s.seq.stage = .seed) : engineRun c s = runSeed c s := by simp only [engineRun, h]

theorem engineRun_fill (h : s.seq.stage = .fill) : engineRun c s = runFill c s := by simp only [engineRun, h]

theorem engineRun_mix (h : s.seq.stage = .mix) : engineRun c s = runMix c s := by simp only [engineRun, h]

theorem engineRun_fold (h : s.seq.stage = .fold) : engineRun c s = runFold c s := by simp only [engineRun, h]

end

/-! A loop is its first turn and then the loop. -/

/-- The turns of a loop still to come are the first and the others, `pos` being how many are done. -/
theorem iterate_rest {f : State → State} {pos : State → Nat} (hpos : ∀ s, pos (f s) = pos s + 1) (bound : Nat) (s : State)
    (h : pos s < bound) : f^[bound - pos s] s = f^[bound - pos (f s)] (f s) := by
  rw [hpos, ← Function.iterate_succ_apply, show (bound - (pos s + 1)).succ = bound - pos s by omega]

/-- A loop's rest, and the stages after it, is one turn and then the rest, `run` being the rest from inside the loop. -/
theorem loop_unfold {f : State → State} {pos : State → Nat} (hpos : ∀ s, pos (f s) = pos s + 1) {bound : Nat}
    {next : Stage} {rest run : State → Host.Outcome State Fault Refusal} (s : State)
    (hrun : run (f s) = rest ((f^[bound - pos (f s)] (f s)).enter next))
    (henter : ∀ t : State, run (t.enter next) = rest (t.enter next)) :
    (EngineResult.more ((f^[bound - pos s] s).enter next)).andThen rest =
      (EngineResult.more
        (if pos s < bound then (if pos (f s) < bound then f s else (f s).enter next) else s.enter next)).andThen run := by
  simp only [EngineResult.andThen]
  split
  · next h =>
    rw [iterate_rest hpos bound s h]
    split
    · exact hrun.symm
    · next hl => rw [henter, Nat.sub_eq_zero_of_le (Nat.not_lt.mp hl), Function.iterate_zero_apply]
  · next h => rw [henter, Nat.sub_eq_zero_of_le (Nat.not_lt.mp h), Function.iterate_zero_apply]

theorem Sequencer.nextBlock_stage (q : Sequencer) : q.nextBlock.stage = q.stage := by
  rw [Sequencer.nextBlock]
  split <;> rfl

theorem runFill_eq_tick (c : HashKind) {s : State} (hg : s.seq.stage = .fill) :
    runFill c s = (tickFill s).andThen (engineRun c) := by
  have hframe := engineFrame_fillBlock s
  have hg' : s.fillBlock.seq.stage = .fill := by rw [State.fillBlock_seq, Sequencer.nextBlock_stage, hg]
  rw [runFill, stageFill, tickFill, State.fillGuard, State.fillGuard]
  split
  · next ha =>
    split
    · next ht =>
      refine loop_unfold (f := State.fillBlock) (pos := fun u => u.seq.sweepPos)
        (fun u => by rw [State.fillBlock_seq, sweepPos_nextBlock]) s ?_ fun _ => rfl
      rw [engineRun_fill hg', runFill, stageFill, State.fillGuard, hframe.scratchAdmitted, if_pos ha,
        hframe.tablesReady, if_pos ht]
      rfl
    · rfl
  · rfl

theorem runMix_eq_tick (c : HashKind) {s : State} (hg : s.seq.stage = .mix) :
    runMix c s = (tickMix s).andThen (engineRun c) := by
  have hg' : s.mixIteration.seq.stage = .mix := by rw [State.mixIteration_seq, hg]
  rw [runMix, stageMix, tickMix, State.tableGuard, State.tableGuard]
  split
  · next ht =>
    refine loop_unfold (f := State.mixIteration) (pos := fun u => u.seq.n)
      (fun u => by rw [State.mixIteration_seq]) s ?_ fun _ => rfl
    rw [engineRun_mix hg', runMix, stageMix, State.tableGuard, (engineFrame_mixIteration s).tablesReady, if_pos ht]
    rfl
  · rfl

theorem runFold_eq_tick (c : HashKind) {s : State} (hg : s.seq.stage = .fold) :
    runFold c s = (tickFold s).andThen (engineRun c) := by
  have hg' : s.foldBlock.seq.stage = .fold := by rw [State.foldBlock_seq, Sequencer.nextBlock_stage, hg]
  rw [runFold, stageFold, tickFold, State.tableGuard, State.tableGuard]
  split
  · next ht =>
    refine loop_unfold (f := State.foldBlock) (pos := fun u => u.seq.sweepPos)
      (fun u => by rw [State.foldBlock_seq, sweepPos_nextBlock]) s ?_ fun _ => rfl
    rw [engineRun_fold hg', runFold, stageFold, State.tableGuard, (engineFrame_foldBlock s).tablesReady, if_pos ht]
    rfl
  · rfl

theorem runCheck_eq_tick (c : HashKind) (s : State) : runCheck c s = (stageCheck c s).andThen (engineRun c) := by
  unfold runCheck stageCheck
  split
  · cases c <;> rfl
  · rfl

theorem runWriteBack_eq_tick (c : HashKind) (s : State) :
    runWriteBack c s = (stageWriteBack c s).andThen (engineRun c) := by
  cases c <;> rfl

/-- A run is a micro-step and then the run of the rest (R210). -/
theorem engineRun_eq_tick (c : HashKind) (s : State) : engineRun c s = (engineTick c s).andThen (engineRun c) := by
  unfold engineTick
  split
  case h_1 hg => exact (by simp only [engineRun, hg] : engineRun c s = runCheck c s).trans (runCheck_eq_tick c s)
  case h_2 hg =>
    rw [engineRun_absorb hg]
    exact EngineResult.andThen_congr fun t ht => (engineRun_seed (goesTo_stageAbsorb s t ht)).symm
  case h_3 hg =>
    rw [engineRun_seed hg]
    exact EngineResult.andThen_congr fun t ht => (engineRun_fill (goesTo_importKey _ _ _ t ht)).symm
  case h_4 hg => rw [engineRun_fill hg, runFill_eq_tick c hg]
  case h_5 hg =>
    simp only [engineRun, hg]
    rfl
  case h_6 hg => rw [engineRun_mix hg, runMix_eq_tick c hg]
  case h_7 hg =>
    simp only [engineRun, hg, runRekey]
    exact EngineResult.andThen_congr fun t ht => (engineRun_fold (goesTo_importKey _ _ _ t ht)).symm
  case h_8 hg => rw [engineRun_fold hg, runFold_eq_tick c hg]
  case h_9 hg => exact (by simp only [engineRun, hg] : engineRun c s = runWriteBack c s).trans (runWriteBack_eq_tick c s)
  case h_10 hg =>
    simp only [engineRun, hg]
    rfl

/-! The sequencer and the block in RUN. -/

theorem drawFirst_enter (s : State) (g : Stage) (n : Nat) : (s.enter g).drawFirst n = (s.drawFirst n).enter g := rfl

theorem finish_enter (s : State) (g : Stage) (err : BitVec 4) : (s.enter g).finish err = s.finish err := rfl

/-- The check finds nothing in the sequencer's place. -/
theorem stageCheck_enter (c : HashKind) (s : State) : stageCheck c (s.enter .check) = stageCheck c s := by
  have ha : (s.enter .check).scratchAligned = s.scratchAligned := rfl
  simp only [stageCheck, ha]
  split
  · cases c <;> rfl
  · rw [State.drawWindow, drawFirst_enter, finish_enter, ← State.drawWindow]

/-- A running hash command runs from where its sequencer stands, also from the start of its rule. -/
theorem runCommand_of_hash {s : State} {c : HashKind} (hd : decode s.cmdl = .ok c.instr) :
    s.runCommand = engineRun c s := by
  simp only [State.runCommand, hd, hashKind_instr]
  split
  · next hg =>
    rw [exec_instr, runCheck_eq_tick, stageCheck_enter, ← runCheck_eq_tick]
    simp only [engineRun, hg]
  · rfl

theorem tickCommand_of_hash {s : State} {c : HashKind} (hd : decode s.cmdl = .ok c.instr) :
    s.tickCommand = (engineTick c s).outcome := by
  simp only [State.tickCommand, hd, hashKind_instr]

/-- With no event pending, the block's step in RUN is the run of the rest. -/
theorem step_of_running_hash {s : State} {c : HashKind} {g : Stage} (hr : s.Running c.instr g) (he : s.events = []) :
    step s = engineRun c s := by
  obtain ⟨hf, hp, hd, -⟩ := hr
  rw [step_of_no_event hf he, blockStep_of_run hp, runCommand_of_hash hd]

theorem EngineFrame.running {s t : State} {i : Instr} {g : Stage} (h : EngineFrame s t) (hr : s.Running i g) :
    t.Running i t.seq.stage := by
  obtain ⟨hf, hp, hd, -⟩ := hr
  have hregs := (onlyHashEffects_iff s t).mp h.regs
  exact ⟨by simp only [hregs, hf], by rw [h.phase, hp], by simp only [hregs, hd], rfl⟩

theorem EngineFrame.events {s t : State} (h : EngineFrame s t) : t.events = s.events := by
  simp only [(onlyHashEffects_iff s t).mp h.regs]

/-- Settles O11: the run is the micro-step and then the run from the state it leaves. -/
theorem microStepThenRestIsTheWholeRest : Obligations.MicroStepThenRestIsTheWholeRest := by
  intro s c g hr he
  have hr' : State.Running { s with events := [] } c.instr g := hr
  obtain ⟨hf, hp, hd, -⟩ := id hr
  have hrun := step_of_running_hash hr' rfl
  have htick : step s = (engineTick c { s with events := [] }).outcome := by
    rw [step_of_event hf he]
    exact (sequencerStep_of_run (s := { s with events := [] }) hp).trans (tickCommand_of_hash hd)
  have hsound := sound_engineTick c { s with events := [] }
  rw [hrun, htick, engineRun_eq_tick]
  cases hres : engineTick c { s with events := [] } with
  | more u =>
    rw [hres] at hsound
    refine ⟨fun t ht => .inl ?_, fun f h => by cases h⟩
    obtain rfl := Host.Outcome.next.inj ht
    exact ⟨hsound.1.phase.trans hp, step_of_running_hash (hsound.1.running hr') hsound.1.events⟩
  | ended u =>
    rw [hres] at hsound
    refine ⟨fun t ht => .inr ?_, fun f h => by cases h⟩
    obtain rfl := Host.Outcome.next.inj ht
    exact ⟨hsound.phase, rfl⟩
  | fault f => exact ⟨fun t h => (by cases h), fun _ h => h⟩

end Sys2Proof.Machine
end

section
/-! PROOFS. What the scratch window held at acceptance does not matter (43_hash_engine.md R232, R233): a command that ends
before stage 3 draws the window, and stage 3 writes every byte of it. Memory is canonical, so states that agree byte by
byte are equal. -/

namespace Sys2Proof.Machine

/-! Memory is what it reads as. -/

/-- The entries of a canonical memory are the bytes that are not as an unlisted one. -/
theorem Memory.mem_iff {m : Memory} (hm : m.wf) (a : Nat) (v : Byte) :
    (a, v) ∈ m ↔ m.read a = v ∧ v ≠ unlistedByte := by
  obtain ⟨hs, hv⟩ := hm
  induction m with
  | nil => simp only [List.not_mem_nil, Memory.read, false_iff]; rintro ⟨rfl, h⟩; exact h rfl
  | cons c m ih =>
    obtain ⟨hlt, hs⟩ := List.pairwise_cons.mp hs
    have ih := ih hs fun d hd => hv d (List.mem_cons_of_mem c hd)
    rw [List.mem_cons, ih, Memory.read]
    by_cases ha : a = c.1
    · have hread : Memory.read m a = unlistedByte := Memory.read_of_lt fun d hd => ha ▸ hlt d hd
      have hc := (hv c (List.mem_cons_self ..)).2
      rw [if_pos ha, hread]
      constructor
      · rintro (rfl | ⟨rfl, h⟩)
        · exact ⟨rfl, hc⟩
        · exact absurd rfl h
      · rintro ⟨rfl, -⟩
        exact .inl (Prod.ext ha rfl)
    · rw [if_neg ha]
      exact or_iff_right fun h => ha (congrArg Prod.fst h)

/-- Canonical memories that read the same at every address are equal. -/
theorem Memory.eq_of_read {m m' : Memory} (hm : m.wf) (hm' : m'.wf) (h : ∀ x, x < 2 ^ 64 → m.read x = m'.read x) :
    m = m' := by
  have : Std.Irrefl fun p q : Host.Cell => p.1 < q.1 := ⟨fun p => Nat.lt_irrefl p.1⟩
  have : Std.Antisymm fun p q : Host.Cell => p.1 < q.1 := ⟨fun _ _ hp hq => absurd hq (Nat.lt_asymm hp)⟩
  refine hm.1.eq_of_mem_iff hm'.1 fun ⟨a, v⟩ => ?_
  by_cases ha : a < 2 ^ 64
  · rw [Memory.mem_iff hm, Memory.mem_iff hm', h a ha]
  · exact iff_of_false (fun hc => ha (hm.2 _ hc).1) fun hc => ha (hm'.2 _ hc).1

/-! Memories that agree outside the scratch window. -/

/-- The same state with another memory. -/
def State.withMem (s : State) (m : Memory) : State := { s with mem := m }

theorem State.withMem_self (s : State) : s.withMem s.mem = s := rfl

/-- `m` is a memory that agrees with that of `s` outside the scratch window of `s`. -/
structure State.AgreesOutside (s : State) (m : Memory) : Prop where
  wf : s.mem.wf
  wf' : m.wf
  outside : ∀ x, s.outsideScratch x → m.read x = s.mem.read x

theorem State.AgreesOutside.congr {s t : State} {m : Memory} (h : s.AgreesOutside m) (hm : t.mem = s.mem)
    (ha : t.scratchAddr = s.scratchAddr) : t.AgreesOutside m := by
  refine ⟨hm ▸ h.wf, h.wf', fun x hx => ?_⟩
  rw [State.outsideScratch, ha] at hx
  rw [hm, h.outside x hx]

/-- The draw of the window makes them equal (R86). -/
theorem drawBytes_of_agreesOutside {s : State} {m : Memory} (h : s.AgreesOutside m) :
    m.drawBytes s.scratchAddr.toNat s.draws scratchBytes = s.mem.drawBytes s.scratchAddr.toNat s.draws scratchBytes := by
  refine Memory.eq_of_read (Memory.drawBytes_wf h.wf' ..) (Memory.drawBytes_wf h.wf ..) fun x hx => ?_
  rw [Memory.read_drawBytes h.wf' _ _ _ hx, Memory.read_drawBytes h.wf _ _ _ hx]
  split
  · rfl
  · next hw => exact h.outside x ⟨hx, by rw [scratchBytes] at hw; omega⟩

theorem drawWindow_of_agreesOutside {s : State} {m : Memory} (h : s.AgreesOutside m) :
    (s.withMem m).drawWindow = s.drawWindow := by
  have hd := drawBytes_of_agreesOutside h
  rw [State.drawWindow, State.drawWindow, State.drawFirst, State.drawFirst, ← hd]
  rfl

theorem endHash_of_agreesOutside {s : State} {m : Memory} (h : s.AgreesOutside m) (err : BitVec 4) :
    (s.withMem m).endHash err = s.endHash err := by
  have h' : State.AgreesOutside { s with stateBuf := s.sponge } m := h.congr rfl rfl
  rw [State.endHash, State.endHash, ← drawWindow_of_agreesOutside h']
  rfl

/-! Stage 3 writes the whole window. -/

/-- A byte of a scratch window that fits below 2^64 is a byte of its scratchpad block (R78). -/
theorem read_eq_scrRead {s : State} {x : Nat} (hl : s.scratchAddr.toNat ≤ x) (hu : x < s.scratchAddr.toNat + 2 ^ 21)
    (hfit : s.scratchAddr.toNat + 2 ^ 21 ≤ 2 ^ 64) :
    s.mem.read x =
      (s.scrRead (BitVec.ofNat 17 ((x - s.scratchAddr.toNat) / 16)))[(x - s.scratchAddr.toNat) % 16]'
        (Nat.mod_lt _ (by decide)) := by
  have haddr : (s.scratchBlockAddr (BitVec.ofNat 17 ((x - s.scratchAddr.toNat) / 16)) +
      BitVec.ofNat 64 ((x - s.scratchAddr.toNat) % 16)).toNat = x := by
    rw [BitVec.toNat_add, toNat_scratchBlockAddr, BitVec.toNat_ofNat, BitVec.toNat_ofNat]
    omega
  simp only [State.scrRead, Memory.readBlock, Vector.getElem_ofFn, haddr]

/-- `m` agrees with memory outside the window, and in the scratchpad blocks below `n`. -/
structure State.AgreesBelow (s : State) (n : Nat) (m : Memory) : Prop where
  outside : s.AgreesOutside m
  below : ∀ j : BitVec 17, j.toNat < n → (s.withMem m).scrRead j = s.scrRead j

/-- Memories that agree in every scratchpad block too are equal. -/
theorem State.AgreesBelow.mem_eq {s : State} {m : Memory} (h : s.AgreesBelow sweepBlocks m)
    (hfit : s.scratchAddr.toNat + 2 ^ 21 ≤ 2 ^ 64) : m = s.mem :=
  Memory.eq_of_read h.outside.wf' h.outside.wf fun x hx => by
    by_cases ho : s.outsideScratch x
    · exact h.outside.outside x ho
    · have hin : s.scratchAddr.toNat ≤ x ∧ x < s.scratchAddr.toNat + 2 ^ 21 := by
        by_contra hc
        exact ho ⟨hx, by omega⟩
      have hread := read_eq_scrRead (s := s.withMem m) hin.1 hin.2 hfit
      rw [h.below _ (BitVec.isLt _)] at hread
      exact hread.trans (read_eq_scrRead hin.1 hin.2 hfit).symm

/-- A turn of stage 3 reads no memory, and one block more agrees after it. -/
theorem fillBlock_withMem {s : State} {m : Memory} (h : s.AgreesBelow s.seq.sweepPos m)
    (hlt : s.seq.sweepPos < sweepBlocks) (hfit : s.scratchAddr.toNat + 2 ^ 21 ≤ 2 ^ 64) :
    ∃ m', (s.withMem m).fillBlock = s.fillBlock.withMem m' ∧ s.fillBlock.AgreesBelow s.fillBlock.seq.sweepPos m' := by
  have hf := engineFrame_fillBlock s
  have hf' := engineFrame_fillBlock (s.withMem m)
  have heq : (s.withMem m).fillBlock = s.fillBlock.withMem (s.withMem m).fillBlock.mem := by
    have ht : (s.withMem m).tables = s.tables := rfl
    simp only [State.fillBlock, ht]
    simp only [State.withMem, State.scrWrite, State.scratchBlockAddr]
  refine ⟨(s.withMem m).fillBlock.mem, heq, ⟨hf.wf h.outside.wf, hf'.wf h.outside.wf', fun x hx => ?_⟩, fun j hj => ?_⟩
  · have hx' := (hf.outsideScratch x).mp hx
    rw [hf.outside h.outside.wf hfit x hx', hf'.outside h.outside.wf' hfit x hx']
    exact h.outside.outside x hx'
  · rw [← heq, scrRead_fillBlock h.outside.wf, scrRead_fillBlock (s := s.withMem m) h.outside.wf']
    show (if j = s.seq.sweepBlock then _ else _) = _
    split
    · rfl
    · next hne =>
      refine h.below j ?_
      rw [State.fillBlock_seq, sweepPos_nextBlock] at hj
      rw [← BitVec.toNat_inj, toNat_sweepBlock hlt] at hne
      omega

theorem iterate_fillBlock_withMem {s : State} {m : Memory} (h : s.AgreesOutside m) (hpos : s.seq.sweepPos = 0)
    (hfit : s.scratchAddr.toNat + 2 ^ 21 ≤ 2 ^ 64) {n : Nat} (hn : n ≤ sweepBlocks) :
    ∃ m', State.fillBlock^[n] (s.withMem m) = (State.fillBlock^[n] s).withMem m' ∧
      (State.fillBlock^[n] s).seq.sweepPos = n ∧ (State.fillBlock^[n] s).AgreesBelow n m' := by
  induction n with
  | zero => exact ⟨m, rfl, hpos, h, fun j hj => absurd hj (Nat.not_lt_zero _)⟩
  | succ n ih =>
    obtain ⟨m', heq, hp, hag⟩ := ih (by omega)
    have hfit' := (EngineFrame.iterate engineFrame_fillBlock n s).scratchAddr ▸ hfit
    obtain ⟨m'', heq', hag'⟩ := fillBlock_withMem (by rwa [hp]) (by omega) hfit'
    have hp' : (State.fillBlock^[n] s).fillBlock.seq.sweepPos = n + 1 := by
      rw [State.fillBlock_seq, sweepPos_nextBlock, hp]
    simp only [Function.iterate_succ_apply', heq]
    exact ⟨m'', heq', hp', hp' ▸ hag'⟩

/-! The stages. -/

theorem stageFill_withMem {s : State} {m : Memory} (h : s.AgreesOutside m) (hpos : s.seq.sweepPos = 0) :
    stageFill (s.withMem m) = stageFill s := by
  have hgo : s.scratchAdmitted = true →
      State.fillBlock^[sweepBlocks] (s.withMem m) = State.fillBlock^[sweepBlocks] s := fun ha => by
    have hfit := scratchOpen_fits ((scratchAdmitted_eq_true s).mp ha)
    obtain ⟨m', heq, -, hag⟩ := iterate_fillBlock_withMem h hpos hfit le_rfl
    rw [heq, hag.mem_eq ((EngineFrame.iterate engineFrame_fillBlock sweepBlocks s).scratchAddr.symm ▸ hfit), State.withMem_self]
  have ha : (s.withMem m).scratchAdmitted = s.scratchAdmitted := rfl
  have ht : (s.withMem m).tablesReady = s.tablesReady := rfl
  have hq : (s.withMem m).seq.sweepPos = 0 := hpos
  rw [stageFill, stageFill, hpos, hq, State.fillGuard, State.fillGuard, ha, ht]
  split
  · next hadm => rw [Nat.sub_zero, hgo hadm]
  · rfl

theorem runFill_withMem (c : HashKind) {s : State} {m : Memory} (h : s.AgreesOutside m) (hpos : s.seq.sweepPos = 0) :
    runFill c (s.withMem m) = runFill c s := by
  rw [runFill, runFill, stageFill_withMem h hpos]

/-- The import of the fill key and the rest of the command (R213). -/
theorem importKey_runFill_withMem (c : HashKind) {s : State} {m : Memory} (h : s.AgreesOutside m) (key : Bytes 32) :
    ((s.withMem m).importKey key .fill).andThen (runFill c) = (s.importKey key .fill).andThen (runFill c) := by
  have hp : (s.withMem m).platform = s.platform := rfl
  have hr : (s.withMem m).tablesReady = s.tablesReady := rfl
  have ht : (s.withMem m).tables = s.tables := rfl
  rw [State.importKey, State.importKey, endHash_of_agreesOutside h, hp, hr, ht]
  generalize storeSchedule (keyExpansion s.tables key 256) (fun _ => 0) = hk
  split
  · rfl
  · split
    · exact runFill_withMem c (s := State.enter { s with hk := hk } .fill) (h.congr rfl rfl) rfl
    · rfl

theorem runSeed_withMem (c : HashKind) {s : State} {m : Memory} (h : s.AgreesOutside m) :
    runSeed c (s.withMem m) = runSeed c s := by
  have hl : (s.withMem m).loadText = s.loadText.withMem m := rfl
  have hs : (s.withMem m).sponge = s.sponge := rfl
  rw [runSeed, runSeed, stageSeed, stageSeed, hl, hs]
  exact importKey_runFill_withMem c (h.congr s.loadText_mem s.loadText_scratchAddr) _

theorem runAbsorb_withMem (c : HashKind) {s : State} {m : Memory} (h : s.AgreesOutside m)
    (hd : (s.withMem m).dataBytes = s.dataBytes) : runAbsorb c (s.withMem m) = runAbsorb c s := by
  have ha : (s.withMem m).dataAdmitted = s.dataAdmitted := rfl
  rw [State.dataBytes, State.dataBytes] at hd
  rw [runAbsorb, runAbsorb, stageAbsorb, stageAbsorb, ha, hd]
  generalize Config.absorb (s.dataMem.readBytes s.dataAddr s.dataLen.toNat) = x
  split
  · exact runSeed_withMem c (s := State.enter { s with sponge := x } .seed) (h.congr rfl rfl)
  · rfl

theorem runCheck_core_of_aligned {s : State} (h : s.alignedScratch) :
    runCheck .core s = runSeed .core (State.enter { s with sponge := s.stateBuf } .seed) := by
  simp only [runCheck, stageCheck, (scratchAligned_eq_true s).mpr h, if_true, EngineResult.andThen]

theorem runCheck_full_of_aligned {s : State} (h : s.alignedScratch) :
    runCheck .full s = runAbsorb .full (s.enter .absorb) := by
  simp only [runCheck, stageCheck, (scratchAligned_eq_true s).mpr h, if_true, EngineResult.andThen]

theorem runCheck_of_misaligned {s : State} (c : HashKind) (h : ¬ s.alignedScratch) :
    runCheck c s = .next (s.drawWindow.finish 5) := by
  simp only [runCheck, stageCheck_of_misaligned c h, EngineResult.andThen]

theorem runCheck_withMem (c : HashKind) {s : State} {m : Memory} (h : s.AgreesOutside m)
    (hd : c = .full → (s.withMem m).dataBytes = s.dataBytes) : runCheck c (s.withMem m) = runCheck c s := by
  by_cases ha : s.alignedScratch
  · cases c with
    | core =>
      rw [runCheck_core_of_aligned ha, runCheck_core_of_aligned (s := s.withMem m) ha]
      exact runSeed_withMem .core (s := State.enter { s with sponge := s.stateBuf } .seed) (h.congr rfl rfl)
    | full =>
      rw [runCheck_full_of_aligned ha, runCheck_full_of_aligned (s := s.withMem m) ha]
      exact runAbsorb_withMem .full (s := s.enter .absorb) (h.congr rfl rfl) (hd rfl)
  · rw [runCheck_of_misaligned c ha, runCheck_of_misaligned (s := s.withMem m) c ha, drawWindow_of_agreesOutside h]

/-- A hash command has one outcome, whatever its scratch window held (R233). -/
theorem exec_withMem (c : HashKind) {s : State} {m : Memory} (h : s.AgreesOutside m)
    (hd : c = .full → (s.withMem m).dataBytes = s.dataBytes) : exec c.instr (s.withMem m) = exec c.instr s := by
  rw [exec_instr, exec_instr]
  exact runCheck_withMem c (s := s.enter .check) (h.congr rfl rfl) hd

/-- Settles O51: with other bytes in the window the outcome is the very same, the drawn window included. -/
theorem priorScratchContentDoesNotMatter : Obligations.PriorScratchContentDoesNotMatter := by
  intro s m c hs hm ho hd
  have heq : exec c.instr { s with mem := m } = exec c.instr s := exec_withMem c ⟨hs, hm, ho⟩ hd
  rw [heq]
  cases hx : exec c.instr s with
  | next t => exact ⟨t.mem, rfl, fun _ _ => rfl, rfl⟩
  | fault f => rfl
  | refused r => exact exec_ne_refused s r c.instr hx

end Sys2Proof.Machine
end

section
/-! PROOFS. What the loops of the hash engine compute (43_hash_engine.md R213, R216 to R219, R223, R225): the stages 2 to 6
on the machine are those of `EngineSpec`, which has no memory and no counters. -/

namespace Sys2Proof.Machine

open EngineSpec

/-! Frames keep what the checks ask for. -/

section
variable {s t : State} (h : EngineFrame s t)
include h

theorem EngineFrame.tablesGood (hT : s.TablesGood) : t.TablesGood := by
  rw [State.TablesGood, h.platform, h.tc.1, h.tc.2]
  exact hT

theorem EngineFrame.importsKey {key : Bytes 32} : t.importsKey key ↔ s.importsKey key := by
  rw [State.importsKey, State.importsKey, h.platform]

end

/-! Keys and rounds. -/

theorem engineRoundKey_eq (w : Vector Word 60) (r : Nat) : engineRoundKey w r = ByteAes.keyOf w r :=
  blockOfColumns_eq fun c => by rw [roundKey_eq]; exact getElem_columnsOf _ c

/-- The pseudo-encryption under an imported key (R153, R213). -/
theorem pseudoEncrypt_schedule (key : Bytes 32) (b : Block) : pseudoEncrypt rom b (schedule key) = pseudo key b := by
  simp only [pseudoEncrypt, pseudo, aesRoundBlock_rom, engineRoundKey_eq]

theorem importKey_of_refused {s : State} {key : Bytes 32} (g : Stage) (h : ¬ s.importsKey key) :
    s.importKey key g = .ended (s.endHash 2) := by
  rw [State.importKey, if_pos (not_not.mp h)]

theorem importKey_of_accepted {s : State} {key : Bytes 32} (g : Stage) (hT : s.TablesGood) (h : s.importsKey key) :
    s.importKey key g = .more (State.enter { s with hk := schedule key } g) := by
  rw [State.importKey, if_neg h, if_pos (tablesReady_eq_true hT), tables_eq_rom hT]
  rfl

/-! A sweep over the working blocks (stages 3 and 6). -/

/-- How many turns block `k` has had when a sweep has made `m` turns: `k` is the inner counter (R218, R225). -/
def turnsOf (m k : Nat) : Nat := (m + 7 - k) / 8

/-- Working block `k` after `n` turns of its own, where its turn in iteration `i` is `turn k i`. -/
def blockAfter (turn : Fin 8 → Nat → Block → Block) (k : Fin 8) (n : Nat) (x : Block) : Block :=
  (List.range n).foldl (fun x i => turn k i x) x

theorem blockAfter_succ (turn : Fin 8 → Nat → Block → Block) (k : Fin 8) (n : Nat) (x : Block) :
    blockAfter turn k (n + 1) x = turn k n (blockAfter turn k n x) := by
  simp only [blockAfter, List.range_succ, List.foldl_append, List.foldl_cons, List.foldl_nil]

/-- From `u`, `m` turns of a sweep lead to `t`. -/
structure Swept (turn : Fin 8 → Nat → Block → Block) (u : State) (m : Nat) (t : State) : Prop where
  frame : EngineFrame u t
  sponge : t.sponge = u.sponge
  hk : t.hk = u.hk
  pos : t.seq.sweepPos = m
  text : ∀ k : Fin 8, t.text[k] = blockAfter turn k (turnsOf m k) u.text[k]

theorem swept_zero (turn : Fin 8 → Nat → Block → Block) {u : State} (h : u.seq.sweepPos = 0) : Swept turn u 0 u where
  frame := .refl u
  sponge := rfl
  hk := rfl
  pos := h
  text k := by
    have : turnsOf 0 k = 0 := by rw [turnsOf]; omega
    rw [this]
    rfl

/-- The block of a turn has had one turn in each iteration before. -/
theorem turnsOf_sweepPos {q : Sequencer} {m : Nat} (h : q.sweepPos = m) : turnsOf m q.k = q.i := by
  rw [Sequencer.sweepPos] at h
  rw [turnsOf]
  omega

theorem turnsOf_succ {q : Sequencer} {m : Nat} (h : q.sweepPos = m) (k : Fin 8) :
    turnsOf (m + 1) k = if k = q.k then q.i + 1 else turnsOf m k := by
  rw [Sequencer.sweepPos] at h
  simp only [turnsOf]
  split <;> omega

/-- The block of the turn at position `m`, after that turn. -/
def blockAt (turn : Fin 8 → Nat → Block → Block) (text : Vector Block 8) (m : Nat) : Block :=
  blockAfter turn ⟨m % 8, Nat.mod_lt m (by decide)⟩ (m / 8 + 1) text[m % 8]

theorem blockAt_eq (turn : Fin 8 → Nat → Block → Block) (text : Vector Block 8) {m i : Nat} {k : Fin 8}
    (h : 8 * i + k.val = m) : blockAt turn text m = blockAfter turn k (i + 1) (text[k]'k.isLt) := by
  obtain rfl : k = ⟨m % 8, Nat.mod_lt m (by decide)⟩ := Fin.ext (show k.val = m % 8 by omega)
  obtain rfl : i = m / 8 := by omega
  rfl

/-- A further turn of a sweep, which sets the block of its counter. -/
theorem Swept.turn {turn : Fin 8 → Nat → Block → Block} {u t t' : State} {m : Nat} (h : Swept turn u m t)
    (hf : EngineFrame t t') (hsponge : t'.sponge = t.sponge) (hhk : t'.hk = t.hk) (hseq : t'.seq = t.seq.nextBlock)
    (htext : t'.text = t.text.set t.seq.k.val (turn t.seq.k t.seq.i t.text[t.seq.k])) : Swept turn u (m + 1) t' where
  frame := h.frame.trans hf
  sponge := hsponge.trans h.sponge
  hk := hhk.trans h.hk
  pos := by rw [hseq, sweepPos_nextBlock, h.pos]
  text k := by
    rw [turnsOf_succ h.pos, htext]
    split
    · next hk =>
      subst hk
      rw [blockAfter_succ, ← turnsOf_sweepPos h.pos, ← h.text]
      simp
    · next hk =>
      rw [← h.text k]
      have : t.seq.k.val ≠ k.val := fun e => hk (Fin.ext e.symm)
      simp [Fin.getElem_fin, this]

/-! Stage 3. -/

/-- A turn of stage 3 on its block. -/
def fillTurn (hk : Vector Word 60) (_k : Fin 8) (_i : Nat) (x : Block) : Block := pseudoEncrypt rom x hk

theorem blockAfter_fillTurn (key : Bytes 32) (k : Fin 8) (n : Nat) (x : Block) :
    blockAfter (fillTurn (schedule key)) k n x = (pseudo key)^[n] x := by
  have h : (fun x i => fillTurn (schedule key) k i x) = fun x _ => pseudo key x :=
    funext fun x => funext fun _ => pseudoEncrypt_schedule key x
  rw [blockAfter, h, List.foldl_const, List.length_range]

/-- After `m` turns of stage 3, the scratchpad blocks below `m` are written (R218). -/
theorem swept_fillBlock {u : State} (hT : u.TablesGood) (hm : u.mem.wf) (h0 : u.seq.sweepPos = 0) {m : Nat}
    (hle : m ≤ sweepBlocks) :
    Swept (fillTurn u.hk) u m (State.fillBlock^[m] u) ∧
      ∀ j : BitVec 17, j.toNat < m → (State.fillBlock^[m] u).scrRead j = blockAt (fillTurn u.hk) u.text j.toNat := by
  induction m with
  | zero => exact ⟨swept_zero _ h0, fun j hj => absurd hj (Nat.not_lt_zero _)⟩
  | succ m ih =>
    obtain ⟨hs, hscr⟩ := ih (by omega)
    rw [Function.iterate_succ_apply']
    generalize State.fillBlock^[m] u = t at hs hscr
    have hturn : pseudoEncrypt t.tables t.text[t.seq.k] t.hk = fillTurn u.hk t.seq.k t.seq.i t.text[t.seq.k] := by
      rw [tables_eq_rom (hs.frame.tablesGood hT), hs.hk, fillTurn]
    refine ⟨hs.turn (engineFrame_fillBlock t) t.fillBlock_sponge t.fillBlock_hk t.fillBlock_seq ?_, fun j hj => ?_⟩
    · rw [State.fillBlock_text, hturn]
    · have hpos : 8 * t.seq.i + t.seq.k.val = m := hs.pos
      have hj' : j = t.seq.sweepBlock ↔ j.toNat = m := by
        rw [← BitVec.toNat_inj, toNat_sweepBlock (by rw [hs.pos]; omega), hs.pos]
      rw [scrRead_fillBlock (hs.frame.wf hm)]
      simp only [hj']
      split
      · next hjm => rw [hturn, hjm, blockAt_eq _ _ hpos, blockAfter_succ, ← turnsOf_sweepPos hs.pos, ← hs.text]
      · exact hscr j (by omega)

/-- After stage 3 the scratchpad is the filled one (R218). -/
theorem scrRead_filled {u : State} {S : Bytes 200} (hT : u.TablesGood) (hm : u.mem.wf) (h0 : u.seq.sweepPos = 0)
    (hhk : u.hk = schedule (fillKey S)) (htext : ∀ k : Fin 8, u.text[k] = seed S k) :
    (State.fillBlock^[sweepBlocks] u).scrRead = filled S := by
  funext j
  rw [(swept_fillBlock hT hm h0 le_rfl).2 j j.isLt, hhk, blockAt, blockAfter_fillTurn, filled, ← htext]
  rfl

/-! Stage 4. -/

theorem extractLsb'_lane {n : Nat} (v : Bytes n) (i : Nat) (h : 8 * i + 8 ≤ n) (k : Nat) (hk : k < 8) :
    (lane v i h).extractLsb' (8 * k) 8 = v[8 * i + k] := by
  have h0 : v[8 * i + 0] = v[8 * i] := rfl
  have hb : ∀ j (_ : j < 8), v[8 * i + j].toNat < 256 := fun j _ => BitVec.isLt _
  have := hb 0 (by decide)
  have := hb 1 (by decide)
  have := hb 2 (by decide)
  have := hb 3 (by decide)
  have := hb 4 (by decide)
  have := hb 5 (by decide)
  have := hb 6 (by decide)
  have := hb 7 (by decide)
  apply BitVec.eq_of_toNat_eq
  rw [BitVec.extractLsb'_toNat, toNat_lane_bytes, Nat.shiftRight_eq_div_pow]
  interval_cases k <;> omega

/-- Stage 4 combines the key material byte by byte (R219). -/
theorem keyMaterialXor_eq (v : Bytes 200) (i : Nat) (h : i ≤ 2) :
    keyMaterialXor v i h = xorBytes (slice v (8 * i) 16 (by omega)) (slice v (8 * i + 32) 16 (by omega)) := by
  refine Vector.ext fun p hp => ?_
  simp only [keyMaterialXor, mkBlock, xorBytes, slice, Vector.getElem_ofFn, Fin.getElem_fin]
  split
  · rw [BitVec.extractLsb'_xor, extractLsb'_lane _ _ _ _ (by omega), extractLsb'_lane _ _ _ _ (by omega)]
    simp only [show 8 * i + p % 8 = 8 * i + p by omega, show 8 * (i + 4) + p % 8 = 8 * i + 32 + p by omega]
  · rw [BitVec.extractLsb'_xor, extractLsb'_lane _ _ _ _ (by omega), extractLsb'_lane _ _ _ _ (by omega)]
    simp only [show 8 * (i + 1) + p % 8 = 8 * i + p by omega, show 8 * (i + 5) + p % 8 = 8 * i + 32 + p by omega]

/-- Stage 4 on the filled scratchpad is the mixing loop's start (R219). -/
theorem mix_stageDerive {u : State} (h : u.scrRead = filled u.sponge) : (stageDerive u).mix = mixStart u.sponge := by
  rw [State.mix, mixStart, ← h, stageDerive_a, stageDerive_b, keyMaterialXor_eq, keyMaterialXor_eq,
    scrRead_congr (stageDerive_mem u) (stageDerive_scratchAddr u)]

/-! Stage 5. -/

/-- What every turn of a loop keeps, the loop keeps. -/
theorem iterate_keeps {α : Type} {f : State → State} {g : State → α} (h : ∀ s, g (f s) = g s) (n : Nat) (s : State) :
    g (f^[n] s) = g s := by
  induction n with
  | zero => rfl
  | succ n ih => rw [Function.iterate_succ_apply', h, ih]

/-- The mixing loop on numbers (R223). -/
theorem mix_iterate {u : State} (hT : u.TablesGood) (hm : u.mem.wf) (n : Nat) :
    (State.mixIteration^[n] u).mix = mixOnce^[n] u.mix := by
  induction n with
  | zero => rfl
  | succ n ih =>
    have hf := EngineFrame.iterate engineFrame_mixIteration n u
    rw [Function.iterate_succ_apply', Function.iterate_succ_apply', mix_mixIteration (hf.tablesGood hT) (hf.wf hm), ih]

/-! Stage 6. -/

/-- A turn of stage 6's sweep on its block, on the scratchpad `scratch`. -/
def foldTurn (hk : Vector Word 60) (scratch : BitVec 17 → Block) (k : Fin 8) (i : Nat) (x : Block) : Block :=
  pseudoEncrypt rom (xorBytes x (scratch (BitVec.ofNat 17 (8 * i + k.val)))) hk

theorem swept_foldBlock {u : State} (hT : u.TablesGood) (h0 : u.seq.sweepPos = 0) (m : Nat) :
    Swept (foldTurn u.hk u.scrRead) u m (State.foldBlock^[m] u) := by
  induction m with
  | zero => exact swept_zero _ h0
  | succ m ih =>
    have hmem := iterate_keeps State.foldBlock_mem m u
    rw [Function.iterate_succ_apply']
    generalize State.foldBlock^[m] u = t at ih hmem
    refine ih.turn (engineFrame_foldBlock t) t.foldBlock_sponge t.foldBlock_hk t.foldBlock_seq ?_
    rw [State.foldBlock_text, tables_eq_rom (ih.frame.tablesGood hT), ih.hk, scrRead_congr hmem ih.frame.scratchAddr]
    rfl

/-- After stage 6's sweep the working blocks are the folded ones (R225). -/
theorem text_folded {u : State} {S : Bytes 200} (hT : u.TablesGood) (h0 : u.seq.sweepPos = 0)
    (hhk : u.hk = schedule (foldKey S)) (htext : ∀ k : Fin 8, u.text[k] = seed S k) (hscr : u.scrRead = mixed S)
    (k : Fin 8) : (State.foldBlock^[sweepBlocks] u).text[k] = folded S k := by
  have hturn : foldTurn u.hk u.scrRead k = fun i x =>
      pseudo (foldKey S) (xorBytes x (mixed S (BitVec.ofNat 17 (8 * i + k.val)))) := by
    funext i x
    rw [foldTurn, hhk, hscr, pseudoEncrypt_schedule]
  have hn : turnsOf sweepBlocks k = fillIters := by
    rw [turnsOf, sweepBlocks, fillIters]
    omega
  rw [(swept_foldBlock hT h0 sweepBlocks).text k, hn, blockAfter, hturn, htext, folded]

end Sys2Proof.Machine
end

section
/-! PROOFS. HASH_CORE and HASH compute their functions, and a refused key fails them (43_hash_engine.md R213, R214, R216,
R225 to R227, R230, R231): the command's rule from its check to its end, stage by stage. -/

namespace Sys2Proof.Machine

open EngineSpec

/-! From the check to stage 2. -/

theorem engineFrame_setSponge (s : State) (x : Bytes 200) (g : Stage) :
    EngineFrame s (State.enter { s with sponge := x } g) := .of_mem_eq rfl rfl rfl rfl rfl le_rfl rfl

/-- Stage 1 with its data window open (R214). -/
theorem runAbsorb_of_open (c : HashKind) {s : State} (h : s.dataOpen) :
    runAbsorb c s = runSeed c (State.enter { s with sponge := Config.absorb s.dataBytes } .seed) := by
  rw [runAbsorb, stageAbsorb, if_pos ((dataAdmitted_eq_true s).mpr h), EngineResult.andThen, State.dataBytes]

/-- A command whose first checks pass gets to stage 2 with its SpongeState (R211, R214, R230). -/
theorem exec_of_reachesSeed {s : State} {c : HashKind} (h : s.reachesSeed c) :
    ∃ u, exec c.instr s = runSeed c u ∧ EngineFrame s u ∧ u.sponge = s.sponge0 c := by
  obtain ⟨ha, hd⟩ := h
  have hcheck := engineFrame_enter s .check
  rw [exec_instr]
  cases c with
  | core =>
    rw [runCheck_core_of_aligned (s := s.enter .check) ha]
    exact ⟨_, rfl, hcheck.trans (engineFrame_setSponge _ _ _), rfl⟩
  | full =>
    rw [runCheck_full_of_aligned (s := s.enter .check) ha,
      runAbsorb_of_open .full (s := (s.enter .check).enter .absorb) (hd rfl)]
    exact ⟨_, rfl, (hcheck.trans (engineFrame_enter _ .absorb)).trans (engineFrame_setSponge _ _ _), rfl⟩

/-! Stages 2 to 5. -/

theorem runSeed_of_refused {u : State} (c : HashKind) (h : ¬ u.importsKey (fillKey u.sponge)) :
    runSeed c u = .next (u.loadText.endHash 2) := by
  have h' : ¬ u.loadText.importsKey (fillKey u.sponge) := (engineFrame_loadText u).importsKey.not.mpr h
  rw [runSeed, stageSeed, ← fillKey, importKey_of_refused _ h', EngineResult.andThen]

theorem text_loadText (u : State) (k : Fin 8) : u.loadText.text[k] = seed u.sponge k := by
  simp only [State.loadText_text, Fin.getElem_fin, Vector.getElem_ofFn, seed]

theorem engineFrame_import (s : State) (hk : Vector Word 60) (g : Stage) :
    EngineFrame s (State.enter { s with hk := hk } g) := .of_mem_eq rfl rfl rfl rfl rfl le_rfl rfl

/-- Stage 4 after a stage 3 that filled the scratchpad (R219). -/
theorem runDerive_of_filled (c : HashKind) {u t : State} (hframe : EngineFrame u t) (hsponge : t.sponge = u.sponge)
    (hscr : t.scrRead = filled u.sponge) :
    ∃ v, runDerive c (t.enter .derive) = runMix c v ∧ EngineFrame u v ∧ v.sponge = u.sponge ∧ v.seq = ⟨.mix, 0, 0, 0⟩ ∧
      v.mix = mixStart u.sponge := by
  refine ⟨stageDerive (t.enter .derive), by rw [runDerive],
    (hframe.trans (engineFrame_enter t .derive)).trans (engineFrame_stageDerive _), ?_, stageDerive_seq _, ?_⟩
  · rw [stageDerive_sponge, State.enter_sponge, hsponge]
  · rw [← hsponge] at hscr ⊢
    exact mix_stageDerive (u := t.enter .derive) hscr

section
variable {u : State} {S : Bytes 200} (c : HashKind) (hT : u.TablesGood) (h0 : u.seq = ⟨u.seq.stage, 0, 0, 0⟩)
include hT h0

/-- Stages 3 and 4: the scratchpad filled, and a and b from the key material (R212, R218, R219). -/
theorem runFill_of_open (hm : u.mem.wf) (ho : u.scratchOpen) (hhk : u.hk = schedule (fillKey u.sponge))
    (htext : ∀ k : Fin 8, u.text[k] = seed u.sponge k) :
    ∃ v, runFill c u = runMix c v ∧ EngineFrame u v ∧ v.sponge = u.sponge ∧ v.seq = ⟨.mix, 0, 0, 0⟩ ∧
      v.mix = mixStart u.sponge := by
  have hpos : u.seq.sweepPos = 0 := by rw [h0]; rfl
  rw [runFill, stageFill, fillGuard_of_open hT ho, EngineResult.andThen, hpos, Nat.sub_zero]
  exact runDerive_of_filled c (EngineFrame.iterate engineFrame_fillBlock sweepBlocks u)
    (iterate_keeps State.fillBlock_sponge sweepBlocks u) (scrRead_filled hT hm hpos hhk htext)

/-- Stage 5: `mixIters` iterations on numbers (R223). -/
theorem runMix_of_tablesGood (hm : u.mem.wf) :
    ∃ v, runMix c u = runRekey c v ∧ EngineFrame u v ∧ v.sponge = u.sponge ∧
      v.scrRead = (mixOnce^[mixIters] u.mix).scratch := by
  have hn : u.seq.n = 0 := by rw [h0]
  rw [runMix, stageMix, tableGuard_of_tablesGood hT, EngineResult.andThen, hn, Nat.sub_zero]
  refine ⟨_, rfl, (EngineFrame.iterate engineFrame_mixIteration mixIters u).trans (engineFrame_enter _ _), ?_, ?_⟩
  · rw [State.enter_sponge, iterate_keeps State.mixIteration_sponge]
  · rw [scrRead_congr (State.enter_mem _ _) (State.enter_scratchAddr _ _), ← mix_iterate hT hm, State.mix]

/-- Stage 6's sweep: the working blocks folded (R225). -/
theorem runFold_of_tablesGood (hhk : u.hk = schedule (foldKey S)) (htext : ∀ k : Fin 8, u.text[k] = seed S k)
    (hscr : u.scrRead = mixed S) :
    ∃ v, runFold c u = runWriteBack c v ∧ EngineFrame u v ∧ v.sponge = u.sponge ∧ ∀ k : Fin 8, v.text[k] = folded S k := by
  have hpos : u.seq.sweepPos = 0 := by rw [h0]; rfl
  rw [runFold, stageFold, tableGuard_of_tablesGood hT, EngineResult.andThen, hpos, Nat.sub_zero]
  refine ⟨_, rfl, (EngineFrame.iterate engineFrame_foldBlock sweepBlocks u).trans (engineFrame_enter _ _), ?_, fun k => ?_⟩
  · rw [State.enter_sponge, iterate_keeps State.foldBlock_sponge]
  · rw [State.enter_text, text_folded hT hpos hhk htext hscr]

end

/-- As functions, since on an argument the kernel would run the loop. -/
theorem mixed_eq : mixed = fun S => (mixOnce^[mixIters] (mixStart S)).scratch := rfl

/-- Stages 3 to 5 under the fill key `w`. -/
theorem runFill_of_fillKey {t : State} {w : Vector Word 60} (c : HashKind) (hT : t.TablesGood) (hm : t.mem.wf)
    (ho : t.scratchOpen) (hw : w = schedule (fillKey t.sponge)) (htext : ∀ k : Fin 8, t.text[k] = seed t.sponge k) :
    ∃ v, runFill c (State.enter { t with hk := w } .fill) = runRekey c v ∧ EngineFrame t v ∧ v.sponge = t.sponge ∧
      v.scrRead = mixed t.sponge := by
  have hf := engineFrame_import t w .fill
  have hs : (State.enter { t with hk := w } .fill).sponge = t.sponge := rfl
  obtain ⟨u, hu, hfu, hus, huq, hum⟩ := runFill_of_open (u := State.enter { t with hk := w } .fill) c
    (hf.tablesGood hT) rfl (hf.wf hm) (hf.scratchOpen.mpr ho) (by rw [hs]; exact hw)
    (by rw [hs]; exact htext)
  have htu := hf.trans hfu
  obtain ⟨v, hv, hfv, hvs, hvm⟩ := runMix_of_tablesGood c (htu.tablesGood hT) (by rw [huq]) (htu.wf hm)
  refine ⟨v, hu.trans hv, htu.trans hfv, (hvs.trans hus).trans hs, ?_⟩
  rw [hvm, hum, hs, mixed_eq]

/-- A command whose fill key is accepted, and whose window is admitted, gets to stage 6 with the mixed scratchpad. -/
theorem runSeed_of_accepted {u : State} (c : HashKind) (hT : u.TablesGood) (hm : u.mem.wf) (ho : u.scratchOpen)
    (hk : u.importsKey (fillKey u.sponge)) :
    ∃ v, runSeed c u = runRekey c v ∧ EngineFrame u v ∧ v.sponge = u.sponge ∧ v.scrRead = mixed u.sponge := by
  have hl := engineFrame_loadText u
  have htext := text_loadText u
  have hsponge := u.loadText_sponge
  rw [runSeed, stageSeed, ← fillKey]
  generalize u.loadText = t at hl htext hsponge ⊢
  rw [← hsponge] at htext hk ⊢
  have hT := hl.tablesGood hT
  obtain ⟨v, hv, hfv, hrest⟩ := runFill_of_fillKey c hT (hl.wf hm) (hl.scratchOpen.mpr ho) rfl htext
  rw [importKey_of_accepted _ hT (hl.importsKey.mpr hk), EngineResult.andThen]
  exact ⟨v, hv, hl.trans hfv, hrest⟩

end Sys2Proof.Machine
end

section
/-! PROOFS. How a hash command ends, and what it has computed (43_hash_engine.md R225 to R227, R230, R231). -/

namespace Sys2Proof.Machine

open EngineSpec

/-! Stage 6. -/

theorem runRekey_of_refused {u : State} (c : HashKind) (h : ¬ u.importsKey (foldKey u.sponge)) :
    runRekey c u = .next (u.loadText.endHash 2) := by
  have h' : ¬ u.loadText.importsKey (foldKey u.sponge) := (engineFrame_loadText u).importsKey.not.mpr h
  rw [runRekey, stageRekey, ← foldKey, importKey_of_refused _ h', EngineResult.andThen]

/-- Stage 6's sweep under the fold-back key `w`. -/
theorem runFold_of_foldKey {t : State} {w : Vector Word 60} (c : HashKind) (hT : t.TablesGood)
    (hw : w = schedule (foldKey t.sponge)) (htext : ∀ k : Fin 8, t.text[k] = seed t.sponge k)
    (hscr : t.scrRead = mixed t.sponge) :
    ∃ v, runFold c (State.enter { t with hk := w } .fold) = runWriteBack c v ∧ EngineFrame t v ∧ v.sponge = t.sponge ∧
      ∀ k : Fin 8, v.text[k] = folded t.sponge k := by
  have hf := engineFrame_import t w .fold
  have hs : (State.enter { t with hk := w } .fold).scrRead = t.scrRead := scrRead_congr rfl rfl
  obtain ⟨v, hv, hfv, hvs, hvt⟩ := runFold_of_tablesGood (u := State.enter { t with hk := w } .fold) c
    (hf.tablesGood hT) rfl hw htext (hs.trans hscr)
  exact ⟨v, hv, hf.trans hfv, hvs, hvt⟩

/-- A command whose fold-back key is accepted gets to the end of stage 6 with the folded working blocks. -/
theorem runRekey_of_accepted {u : State} (c : HashKind) (hT : u.TablesGood) (hk : u.importsKey (foldKey u.sponge))
    (hscr : u.scrRead = mixed u.sponge) :
    ∃ v, runRekey c u = runWriteBack c v ∧ EngineFrame u v ∧ v.sponge = u.sponge ∧
      ∀ k : Fin 8, v.text[k] = folded u.sponge k := by
  have hl := engineFrame_loadText u
  have htext := text_loadText u
  have hsponge := u.loadText_sponge
  have hscr' : u.loadText.scrRead = mixed u.sponge := by rw [← hscr, scrRead_congr u.loadText_mem u.loadText_scratchAddr]
  rw [runRekey, stageRekey, ← foldKey]
  generalize u.loadText = t at hl htext hsponge hscr' ⊢
  rw [← hsponge] at htext hk hscr' ⊢
  have hT := hl.tablesGood hT
  obtain ⟨v, hv, hfv, hrest⟩ := runFold_of_foldKey c hT rfl htext hscr'
  rw [importKey_of_accepted _ hT (hl.importsKey.mpr hk), EngineResult.andThen]
  exact ⟨v, hv, hl.trans hfv, hrest⟩

/-- The folded working blocks in the seed region make the core function's value (R225, R230). -/
theorem splice_eq_core {S : Bytes 200} {text : Vector Block 8} (h : ∀ k : Fin 8, text[k] = folded S k) :
    splice S 64 (textBytes text) = EngineSpec.core S :=
  Vector.ext fun i hi => by
    simp only [splice, EngineSpec.core, textBytes, Vector.getElem_ofFn]
    split
    · next hin => simp only [← h, Fin.getElem_fin]
    · rfl

/-! A command that gets past its checks. -/

theorem exec_of_reachesFold {s : State} {c : HashKind} (hT : s.TablesGood) (hm : s.mem.wf) (h : s.reachesFold c) :
    ∃ v, exec c.instr s = runRekey c v ∧ EngineFrame s v ∧ v.sponge = s.sponge0 c ∧ v.scrRead = mixed v.sponge := by
  obtain ⟨hseed, hk, ho⟩ := h
  obtain ⟨u, hu, hf, hs⟩ := exec_of_reachesSeed hseed
  rw [← hs] at hk
  obtain ⟨v, hv, hfv, hvs, hscr⟩ :=
    runSeed_of_accepted c (hf.tablesGood hT) (hf.wf hm) (hf.scratchOpen.mpr ho) (hf.importsKey.mpr hk)
  exact ⟨v, hu.trans hv, hf.trans hfv, hvs.trans hs, by rw [hvs, hscr]⟩

theorem exec_of_hashSucceeds {s : State} {c : HashKind} (hT : s.TablesGood) (hm : s.mem.wf) (h : s.hashSucceeds c) :
    ∃ v, exec c.instr s = runWriteBack c v ∧ EngineFrame s v ∧
      splice v.sponge 64 (textBytes v.text) = EngineSpec.core (s.sponge0 c) := by
  obtain ⟨hfold, hk⟩ := h
  obtain ⟨u, hu, hf, hs, hscr⟩ := exec_of_reachesFold hT hm hfold
  rw [← hs] at hk ⊢
  obtain ⟨v, hv, hfv, hvs, htext⟩ := runRekey_of_accepted c (hf.tablesGood hT) (hf.importsKey.mpr hk) hscr
  exact ⟨v, hu.trans hv, hf.trans hfv, by rw [hvs, splice_eq_core htext]⟩

/-! The end of a command. -/

theorem hashEnd_of_exec {s t : State} {c : HashKind} (h : exec c.instr s = .next t) : HashEnd s t := by
  have hs := (sound_runCheck c (s.enter .check)).after (engineFrame_enter s .check)
  rwa [← exec_instr, h] at hs

/-- A hash command changes no byte outside its scratch window, wherever the window lies (R86). -/
theorem read_outside_of_exec {s t : State} {c : HashKind} (h : exec c.instr s = .next t) (hm : s.mem.wf) {x : Nat}
    (hx : s.outsideScratch x) : t.mem.read x = s.mem.read x := by
  cases ha : s.scratchAdmitted with
  | true => exact (hashEnd_of_exec h).outside hm (scratchOpen_fits ((scratchAdmitted_eq_true s).mp ha)) x hx
  | false =>
    have hr := restBeforeAdmission_exec c ha
    rw [h] at hr
    exact hr.2 hm x hx

/-- What `State.endHash` leaves after a command that has kept STATUS till then (R227, R230, R231, R271). -/
theorem endHash_outcome {s u : State} {c : HashKind} {err : BitVec 4} (h : exec c.instr s = .next (u.endHash err))
    (hm : s.mem.wf) (hst : u.status = s.status) :
    (u.endHash err).status = s.status.ended err ∧ (u.endHash err).phase = .idle ∧ (u.endHash err).mem.wf ∧
      (∀ x, s.outsideScratch x → (u.endHash err).mem.read x = s.mem.read x) ∧ s.onlyHashEffects (u.endHash err) := by
  have hend := hashEnd_of_exec h
  refine ⟨?_, hend.phase, hend.wf hm, fun x hx => read_outside_of_exec h hm hx, hend.regs⟩
  rw [State.endHash_status, hst, Status.finished, Status.ended]

/-- A refused key, in stage 2 or in stage 6, ends the command with ERR = 2 (R227). -/
theorem refused_outcome {s u : State} {c : HashKind} (h : exec c.instr s = .next (u.loadText.endHash 2)) (hm : s.mem.wf)
    (hf : EngineFrame s u) (hs : u.sponge = s.sponge0 c) :
    ∃ t, exec c.instr s = .next t ∧ t.stateBuf = s.sponge0 c ∧ t.digest = s.digest ∧ t.status = s.status.ended 2 ∧
      t.phase = .idle ∧ t.mem.wf ∧ (∀ x, s.outsideScratch x → t.mem.read x = s.mem.read x) ∧ s.onlyHashEffects t := by
  have hf := hf.trans (engineFrame_loadText u)
  refine ⟨_, h, ?_, ?_, endHash_outcome h hm hf.status⟩
  · rw [State.endHash_stateBuf, State.loadText_sponge, hs]
  · rw [State.endHash_digest, hf.digest]

/-- Settles O44: the command gets to stage 2 or to stage 6 with its SpongeState, and the refused key ends it there. -/
theorem refusedKeyFailsTheCommand : Obligations.RefusedKeyFailsTheCommand := by
  intro s c hT hm hseed
  refine ⟨fun hk => ?_, fun hfold hk => ?_⟩
  · obtain ⟨u, hu, hf, hs⟩ := exec_of_reachesSeed hseed
    rw [← hs, ← hf.importsKey] at hk
    exact refused_outcome (hu.trans (runSeed_of_refused c hk)) hm hf hs
  · obtain ⟨u, hu, hf, hs, -⟩ := exec_of_reachesFold hT hm hfold
    rw [← hs, ← hf.importsKey] at hk
    exact refused_outcome (hu.trans (runRekey_of_refused c hk)) hm hf hs

theorem runWriteBack_core (u : State) {x : Bytes 200} (h : splice u.sponge 64 (textBytes u.text) = x) :
    ∃ v : State, runWriteBack .core u = .next (v.endHash 0) ∧ v.sponge = x ∧ v.digest = u.digest ∧
      v.status = u.status := by
  simp only [runWriteBack, stageWriteBack, EngineResult.andThen, h]
  exact ⟨_, rfl, rfl, rfl, rfl⟩

/-- Stage 7: STATE is permuted, and the finisher its low bits select makes the digest (R226). -/
theorem runFinalize_eq (t : State) {final : Bytes 200} (h : Config.permute t.sponge = final) :
    ∃ v : State, runFinalize t = .next (v.endHash 0) ∧ v.sponge = final ∧
      v.digest = Config.finisher (final[0].extractLsb' 0 2) final 200 ∧ v.status = t.status := by
  simp only [runFinalize, stageFinalize, EngineResult.outcome, EngineResult.andThen, finisherSelector, h]
  exact ⟨_, rfl, rfl, rfl, rfl⟩

theorem runWriteBack_full (u : State) {x : Bytes 200} (h : splice u.sponge 64 (textBytes u.text) = x) :
    ∃ t : State, runWriteBack .full u = runFinalize t ∧ t.sponge = x ∧ t.status = u.status := by
  simp only [runWriteBack, stageWriteBack, EngineResult.andThen, h]
  exact ⟨_, rfl, rfl, rfl⟩

/-- Settles O49: all checks passed, HASH_CORE gets to the end of stage 6, whose value STATE receives. -/
theorem hashCoreComputesItsFunction : Obligations.HashCoreComputesItsFunction := by
  intro s hT hm h
  obtain ⟨u, hu, hf, hcore⟩ := exec_of_hashSucceeds hT hm h
  obtain ⟨v, hv, hsponge, hdigest, hst⟩ := runWriteBack_core u hcore
  have hx : exec .hashCore s = .next (v.endHash 0) := hu.trans hv
  refine ⟨v.endHash 0, hx, ?_, ?_, endHash_outcome (c := .core) hx hm (hst.trans hf.status)⟩
  · rw [State.endHash_stateBuf, hsponge]
    rfl
  · rw [State.endHash_digest, hdigest, hf.digest]

/-- Settles O50: all checks passed, HASH gets to the end of stage 6 on the absorbed data, and stage 7 completes it. -/
theorem hashComputesItsFunction : Obligations.HashComputesItsFunction := by
  intro s hT hm h
  obtain ⟨u, hu, hf, hcore⟩ := exec_of_hashSucceeds hT hm h
  obtain ⟨t, ht, hts, htst⟩ := runWriteBack_full u hcore
  obtain ⟨v, hv, hsponge, hdigest, hst⟩ := runFinalize_eq t (congrArg Config.permute hts)
  have hx : exec .hash s = .next (v.endHash 0) := hu.trans (ht.trans hv)
  refine ⟨v.endHash 0, hx, ?_, ?_, endHash_outcome (c := .full) hx hm (hst.trans (htst.trans hf.status))⟩
  · rw [State.endHash_stateBuf, hsponge, State.sponge0]
  · rw [State.endHash_digest, hdigest, State.sponge0]

end Sys2Proof.Machine
end

section
/-! PROOFS. The control registers and the registers that no write changes (44_control.md R250, R253 to R255; 10_state.md
R43). -/

namespace Sys2Proof.Machine

/-! Read-only and reserved registers. -/

/-- A read-only offset is that of ID, CAP or ROUNDS, or of a word of DOUT or DIGEST (R101). -/
theorem readOnlyOffset_cases {o : Nat} (ho : readOnlyOffset o) :
    o = 0x000 ∨ o = 0x004 ∨ o = 0x014 ∨ (∃ i : Fin 4, o = 0x070 + 4 * i) ∨ ∃ i : Fin 8, o = 0x090 + 4 * i := by
  obtain ⟨⟨-, h4⟩, h | h | h | h | h⟩ := ho
  · exact .inl h
  · exact .inr (.inl h)
  · exact .inr (.inr (.inl h))
  · exact .inr (.inr (.inr (.inl ⟨⟨(o - 0x070) / 4, by omega⟩, by simp only; omega⟩)))
  · exact .inr (.inr (.inr (.inr ⟨⟨(o - 0x090) / 4, by omega⟩, by simp only; omega⟩)))

theorem writeReg_readOnly {o : Nat} (ho : readOnlyOffset o) (s : State) (v : Word) : s.writeReg (regAt o) v = s := by
  obtain rfl | rfl | rfl | ⟨i, rfl⟩ | ⟨i, rfl⟩ := readOnlyOffset_cases ho
  · rfl
  · rfl
  · rfl
  · rw [regAt_dout]; rfl
  · rw [regAt_digest]; rfl

theorem writeReg_reserved {o : Nat} (ho : reservedOffset o) (s : State) (v : Word) : s.writeReg (regAt o) v = s := by
  rw [regAt_reserved ho]; rfl

/-- Settles O16: no arm of the register write is for a read-only or a reserved register, and the latter reads 0. -/
theorem readOnlyAndReservedWritesAreIgnored : Obligations.ReadOnlyAndReservedWritesAreIgnored := by
  refine fun s o v hs => ⟨?_, readsAs_reserved hs, s.readsAs_of ⟨by decide, rfl⟩ hs rfl⟩
  rintro (ho | ho)
  · exact s.writes_of ho.1 hs fun _ => writeReg_readOnly ho ..
  · exact s.writes_of ho.1 hs fun _ => writeReg_reserved ho ..

/-! CTRL. -/

/-- Settles O14: the write is IRQ_EN's alone, and `irq` is IRQ_EN and DONE of the state after it. -/
theorem controlWriteSetsInterruptEnable : Obligations.ControlWriteSetsInterruptEnable :=
  fun s _ hs => ⟨s.writes_of ⟨by decide, rfl⟩ hs fun _ => rfl, rfl⟩

/-! STATUS. -/

/-- A write to STATUS does not look at BUSY (R254). -/
theorem writes_status {s : State} (hs : s.Good) (v : Word) :
    s.Writes 0x00C v { s with status := s.status.clearedBy v } :=
  s.writes_of ⟨by decide, rfl⟩ hs fun _ => rfl

theorem clearedBy_eq (t : Status) (v : Word) :
    t.clearedBy v = { t with
      done := if v.getLsbD 1 then false else t.done
      ovr := if v.getLsbD 2 then false else t.ovr } := by
  have hbit (b c : Bool) : (b && !c) = if c then false else b := by cases c <;> simp
  rw [Status.clearedBy, hbit, hbit]

theorem clearedBy_zero (t : Status) : t.clearedBy 0 = t := by
  simp [clearedBy_eq]

/-- A write of 2 acknowledges: DONE = 0 (R254). -/
theorem done_clearedBy_two (t : Status) : (t.clearedBy 2).done = false := by
  simp [clearedBy_eq]

/-- Settles O15: the write's one effect is `clearedBy`, which clears nothing for 0 and DONE for 2. -/
theorem statusWriteClearsDoneAndOverrun : Obligations.StatusWriteClearsDoneAndOverrun := by
  intro s v hs
  refine ⟨?_, ?_, _, writes_status hs 2, ?_, rfl⟩
  · simpa only [clearedBy_eq] using writes_status hs v
  · simpa only [clearedBy_zero] using writes_status hs 0
  · rw [State.irq, done_clearedBy_two, Bool.and_false]

/-! NOP. -/

/-- The status of `finish` (R271), field by field. -/
theorem finished_eq_ended (t : Status) (err : BitVec 4) : t.finished err = t.ended err := rfl

/-- Settles O30: NOP is `finish(0)` and nothing before it. -/
theorem nopOnlySetsStatus : Obligations.NopOnlySetsStatus := by
  intro s
  rw [exec, execNop, State.finish, finished_eq_ended]

end Sys2Proof.Machine
end

section
/-! PROOFS. Exceptions: faults are permanent and each has its cause, the checks of a command come in order, and the
interrupt (60_exceptions.md R276 to R278, R281, R302; 20_memory.md R72, R82, R87, R92; 43_hash_engine.md R212). -/

namespace Sys2Proof.Machine

/-! FAULT. -/

theorem step_of_fault {s : State} {f : Fault} (h : s.fault = some f) : step s = .fault f := by
  rw [step, h]

/-- A raised fault is latched, and nothing else changes (R276; log 15). -/
theorem advance_of_fault {s : State} {f : Fault} (h : step s = .fault f) : s.advance = s.latchFault f := by
  rw [State.advance, h]

/-- Settles O24: the latch holds the fault, and `step` looks at FAULT before it looks at the queue. -/
theorem faultsArePermanent : Obligations.FaultsArePermanent := by
  refine ⟨fun s f h => ?_, fun s f h events => step_of_fault h, State.resetBlock_fault⟩
  have hf : s.advance.fault = some f := by rw [advance_of_fault h, State.latchFault_fault]
  exact ⟨hf, step_of_fault hf⟩

/-! `irq`. -/

theorem irq_of_done {s : State} (h : s.status.done = true) : s.irq = s.irqEn := by
  rw [State.irq, h, Bool.and_true]

theorem irq_of_not_done {s : State} (h : s.status.done = false) : s.irq = false := by
  rw [State.irq, h, Bool.and_false]

/-- Settles O53: a completion sets DONE and keeps IRQ_EN; the write to STATUS and the acceptance clear DONE. -/
theorem interruptIsEnabledDone : Obligations.InterruptIsEnabledDone := by
  refine ⟨fun _ => rfl, fun i s t h => ?_, fun s hs => ?_, fun s w i hs hb hd => ?_, fun _ => rfl⟩
  · obtain ⟨⟨-, hdone, -⟩, ⟨hen, -⟩, -⟩ := commandsWriteOnlyTheirRegisters i s t h
    rw [irq_of_done hdone, hen]
  · exact ⟨_, writes_status hs 2, irq_of_not_done (done_clearedBy_two s.status)⟩
  · obtain ⟨t, hw, rfl, -⟩ := commandWriteIsAccepted s w i hs hb hd
    exact ⟨_, hw, irq_of_not_done rfl⟩

/-! The checks of a command. -/

/-- Every command with a next state completes (R271), so its error code is all there is to say. -/
theorem completesWith_of_err {s t : State} {i : Instr} {err : BitVec 4} (h : exec i s = .next t)
    (he : t.status.err = err) : s.completesWith i err := by
  obtain ⟨⟨hb, hdone, hovr, hp⟩, -⟩ := commandsWriteOnlyTheirRegisters i s t h
  exact ⟨t, h, he, hb, hdone, hovr, hp⟩

theorem completesWith_of_ended {s t : State} {i : Instr} {err : BitVec 4} (h : exec i s = .next t)
    (hst : t.status = s.status.ended err) : s.completesWith i err :=
  completesWith_of_err h (congrArg Status.err hst)

/-- Check 2 of R278: the key size, which alone decides how a SETKEY command ends (R176). -/
theorem setkey_completesWith {s : State} (hT : s.TablesGood) (k : KeySize) :
    s.completesWith (.setkeyEnc k) (if k = .unsupported then 1 else 0) ∧
      s.completesWith (.setkeyDec k) (if k = .unsupported then 1 else 0) := by
  have supported {k : KeySize} {bits : Nat} (hk : keyBits k = some bits) :
      s.completesWith (.setkeyEnc k) 0 ∧ s.completesWith (.setkeyDec k) 0 :=
    ⟨completesWith_of_err (exec_setkeyEnc hk hT) rfl, completesWith_of_err (exec_setkeyDec hk hT) rfl⟩
  cases k with
  | bits128 => exact supported rfl
  | bits192 => exact supported rfl
  | bits256 => exact supported rfl
  | unsupported => exact ⟨completesWith_of_err rfl rfl, completesWith_of_err rfl rfl⟩

/-- Check 3 of R278: ENCRYPT needs a key (R192). -/
theorem encrypt_completesWith {s : State} (hT : s.TablesGood) :
    s.completesWith .encrypt (if s.status.ekValid then 0 else 4) := by
  cases hk : s.status.ekValid with
  | false => exact completesWith_of_err (exec_encrypt_without_key hk) rfl
  | true =>
    obtain ⟨t, ht, -, hst, -⟩ := (encryptWritesTheCipherOfDin s).2 hk hT
    exact completesWith_of_ended ht hst

/-- Check 3 of R278: DECRYPT needs a decryption schedule (R193). -/
theorem decrypt_completesWith {s : State} (hT : s.TablesGood) :
    s.completesWith .decrypt (if s.status.dkValid then 0 else 4) := by
  cases hk : s.status.dkValid with
  | false => exact completesWith_of_err (exec_decrypt_without_key hk) rfl
  | true =>
    obtain ⟨t, ht, -, hst, -⟩ := (decryptWritesTheInverseCipherOfDin s).2 hk hT
    exact completesWith_of_ended ht hst

/-- Check 5 of R278: the data window, at stage 1 (R214). -/
theorem runAbsorb_of_closed (c : HashKind) {s : State} (h : ¬ s.dataOpen) :
    runAbsorb c s = .fault .memNotAdmitted := by
  rw [runAbsorb, stageAbsorb, if_neg (mt (dataAdmitted_eq_true s).mp h), EngineResult.andThen]

theorem exec_hash_of_data_closed {s : State} (ha : s.alignedScratch) (hd : ¬ s.dataOpen) :
    exec HashKind.full.instr s = .fault .memNotAdmitted := by
  rw [exec_instr, runCheck_full_of_aligned (s := s.enter .check) ha]
  exact runAbsorb_of_closed .full (s := (s.enter .check).enter .absorb) hd

/-- Check 7 of R278: the scratch window, at stage 3's first write (R212). -/
theorem runFill_of_closed (c : HashKind) {s : State} (h : ¬ s.scratchOpen) : runFill c s = .fault .memNotAdmitted := by
  rw [← scratchAdmitted_eq_true, Bool.not_eq_true] at h
  rw [runFill, stageFill, fillGuard_of_not_admitted h, EngineResult.andThen]

/-- The fill key comes before the scratch window (R278). -/
theorem exec_of_scratch_closed {s : State} {c : HashKind} (hT : s.TablesGood) (h : s.reachesSeed c)
    (hk : s.importsKey (EngineSpec.fillKey (s.sponge0 c))) (ho : ¬ s.scratchOpen) :
    exec c.instr s = .fault .memNotAdmitted := by
  obtain ⟨u, hu, hf, hs⟩ := exec_of_reachesSeed h
  have hl := hf.trans (engineFrame_loadText u)
  rw [← hs] at hk
  rw [hu, runSeed, stageSeed, ← EngineSpec.fillKey, importKey_of_accepted _ (hl.tablesGood hT) (hl.importsKey.mpr hk),
    EngineResult.andThen]
  exact runFill_of_closed c ((hl.trans (engineFrame_import u.loadText _ .fill)).scratchOpen.not.mpr ho)

/-- With every check passed a hash command completes without an error (R230, R231). -/
theorem hash_completesWith_zero {s : State} {c : HashKind} (hT : s.TablesGood) (hm : s.mem.wf) (h : s.hashSucceeds c) :
    s.completesWith c.instr 0 := by
  cases c with
  | core =>
    obtain ⟨t, ht, -, -, hst, -⟩ := hashCoreComputesItsFunction s hT hm h
    exact completesWith_of_ended ht hst
  | full =>
    obtain ⟨t, ht, -, -, hst, -⟩ := hashComputesItsFunction s hT hm h
    exact completesWith_of_ended ht hst

/-- Settles O45: check by check, each on a command that has got past the ones before it. -/
theorem checksComeInTheSpecsOrder : Obligations.ChecksComeInTheSpecsOrder := by
  intro s hT hm
  refine ⟨completesWith_of_err rfl rfl, ?_, setkey_completesWith hT, encrypt_completesWith hT, decrypt_completesWith hT,
    fun c => ⟨fun ha => ?_, ?_, fun h hk => ?_, exec_of_scratch_closed hT, fun h hk => ?_,
      hash_completesWith_zero hT hm⟩⟩
  · obtain ⟨t, ht, -, hst, -⟩ := aesRoundWritesOneRoundOfDin s hT
    exact completesWith_of_ended ht hst
  · obtain ⟨t, ht, hst, -⟩ := misalignedScratchEndsWithErrorFive s c ha hm
    exact completesWith_of_ended ht hst
  · rintro ha rfl hd
    exact exec_hash_of_data_closed ha hd
  · obtain ⟨t, ht, -, -, hst, -⟩ := (refusedKeyFailsTheCommand s c hT hm h).1 hk
    exact completesWith_of_ended ht hst
  · obtain ⟨t, ht, -, -, hst, -⟩ := (refusedKeyFailsTheCommand s c hT hm h.1).2 h hk
    exact completesWith_of_ended ht hst

/-! What a bus access can raise. -/

/-- The next event is an access to that many bytes at that address, a write or a read. -/
inductive State.SeesAccess (s : State) : BitVec 64 → Nat → (isWrite : Bool) → Prop
  | read {addr n rest} (h : s.events = .hostRead addr n :: rest) : s.SeesAccess addr n false
  | write {addr data rest} (h : s.events = .hostWrite addr data :: rest) : s.SeesAccess addr data.length true

theorem State.SeesAccess.accesses {s : State} {addr : BitVec 64} {n : Nat} {w : Bool} (h : s.SeesAccess addr n w)
    {P : Nat → Nat → Prop} (hP : P addr.toNat n) : s.accesses P := by
  cases h with
  | read h => exact ⟨_, .inl ⟨_, _, h, hP⟩⟩
  | write h => exact ⟨_, .inr ⟨_, _, h, hP⟩⟩

theorem State.SeesAccess.seesWrite {s : State} {addr : BitVec 64} {n : Nat} (h : s.SeesAccess addr n true) :
    s.seesWrite := by
  cases h with
  | write h => exact ⟨_, _, _, h⟩

/-- What an access to the `n` bytes at `addr`, a write where `w` holds, must be to raise each fault (R72, R87; log 16,
log 17). -/
def State.AccessRaises (s : State) (addr : BitVec 64) (n : Nat) (w : Bool) : Fault → Prop
  | .busAccess => (n ≠ 4 ∨ addr.toNat % 4 ≠ 0) ∧ overlap addr.toNat (max n 1) (pBase s.platform).toNat 0x400
  | .scratchRace => s.meetsScratch addr n
  | .dataRace => w = true ∧ s.meetsData addr n
  | .outsideMemory => 2 ^ 64 < addr.toNat + n
  | .memNotAdmitted | .tcacheHazard => False

section
variable {s : State} {f : Fault}

theorem accessRaises_of_accessFault {addr : BitVec 64} {n : Nat} {w : Bool} (h : s.accessFault addr n w = some f) :
    s.AccessRaises addr n w f := by
  unfold State.accessFault at h
  split at h
  · next hout => cases h; exact hout
  · split at h
    · next hs => cases h; exact meetsScratch_iff.mpr hs
    · split at h
      · next hd =>
        rw [Bool.and_assoc, Bool.and_eq_true] at hd
        cases h
        exact ⟨hd.1, meetsData_iff.mpr hd.2⟩
      · cases h

theorem accessRaises_of_unaligned {addr : BitVec 64} {n : Nat} (w : Bool)
    (hr : reachesRegisters s.platform addr n = true) (ha : ¬ alignedAccess addr n = true) :
    s.AccessRaises addr n w .busAccess := by
  refine ⟨?_, (touches_eq_true ..).mp hr⟩
  rwa [alignedAccess, lowBits_eq_zero, ← Bool.decide_and, decide_eq_true_eq, not_and_or] at ha

theorem accessRaises_of_busRead {addr : BitVec 64} {n : Nat} (h : s.busRead addr n = .fault f) :
    s.AccessRaises addr n false f := by
  unfold State.busRead at h
  split at h
  · next hr =>
    split at h
    · cases h
    · next ha => cases h; exact accessRaises_of_unaligned false hr ha
  · split at h
    · next hf => cases h; exact accessRaises_of_accessFault hf
    · cases h

theorem accessRaises_of_busWrite {addr : BitVec 64} {data : List Byte} (h : s.busWrite addr data = .fault f) :
    s.AccessRaises addr data.length true f := by
  unfold State.busWrite at h
  split at h
  · next hr =>
    split at h
    · cases h
    · next ha => cases h; exact accessRaises_of_unaligned true hr ha
  · split at h
    · next hf => cases h; exact accessRaises_of_accessFault hf
    · cases h

/-! What the block and its lanes can raise. -/

/-- What must hold for a move of the block or of a lane to raise each fault (R82, R92, R212). -/
def State.BlockRaises (s : State) : Fault → Prop
  | .memNotAdmitted => s.phase = .run ∧ s.latchedHash = true ∧ (¬ s.scratchOpen ∨ ¬ s.dataOpen)
  | .tcacheHazard => s.platform.tcache = true ∧ s.tcValid = false
  | .busAccess | .scratchRace | .dataRace | .outsideMemory => False

theorem blockRaises_of_not_ready (h : ¬ s.tablesReady = true) : s.BlockRaises .tcacheHazard := by
  rw [State.tablesReady, Bool.or_eq_true, Bool.not_eq_true', not_or, Bool.not_eq_true, Bool.not_eq_false] at h
  exact ⟨h.2, h.1⟩

theorem blockRaises_of_writeDout {g : LookupTables → Block → Block} (h : s.writeDout g = .fault f) :
    s.BlockRaises f := by
  unfold State.writeDout at h
  split at h
  · cases h
  · next ht => cases h; exact blockRaises_of_not_ready ht

/-- A running hash command raises a fault only for a window or for its tables (R92, R212, R214). -/
theorem blockRaises_of_hash {c : HashKind} (hp : s.phase = .run) (hd : decode s.cmdl = .ok c.instr)
    (h : RestSound s (.fault f)) : s.BlockRaises f := by
  obtain ⟨rfl, hw⟩ | ⟨rfl, ht⟩ := h
  · refine ⟨hp, latchedHash_of_decode hd, ?_⟩
    rwa [← scratchAdmitted_eq_true, ← dataAdmitted_eq_true, Bool.not_eq_true, Bool.not_eq_true]
  · exact blockRaises_of_not_ready (by rw [ht]; exact Bool.false_ne_true)

theorem blockRaises_of_exec {i : Instr} (hp : s.phase = .run) (hd : decode s.cmdl = .ok i)
    (h : exec i s = .fault f) : s.BlockRaises f := by
  have hash {c : HashKind} (hd : decode s.cmdl = .ok c.instr) (h : exec c.instr s = .fault f) : s.BlockRaises f := by
    have hs := (sound_runCheck c (s.enter .check)).after (engineFrame_enter s .check)
    rw [← exec_instr, h] at hs
    exact blockRaises_of_hash hp hd hs
  cases i with
  | nop => cases h
  | setkeyEnc k =>
    rw [exec, execSetkeyEnc] at h
    split at h
    · cases h
    · split at h
      · cases h
      · next ht => cases h; exact blockRaises_of_not_ready ht
  | setkeyDec k =>
    rw [exec, execSetkeyDec] at h
    split at h
    · cases h
    · split at h
      · cases h
      · next ht => cases h; exact blockRaises_of_not_ready ht
  | encrypt =>
    rw [exec, execEncrypt] at h
    split at h
    · exact blockRaises_of_writeDout h
    · cases h
  | decrypt =>
    rw [exec, execDecrypt] at h
    split at h
    · exact blockRaises_of_writeDout h
    · cases h
  | aesRound =>
    rw [exec, execAesRound] at h
    exact blockRaises_of_writeDout h
  | hashCore => exact hash (c := .core) hd h
  | hash => exact hash (c := .full) hd h

theorem blockRaises_of_runCommand (hp : s.phase = .run) (h : s.runCommand = .fault f) : s.BlockRaises f := by
  unfold State.runCommand at h
  split at h
  · cases h
  · next i hd =>
    split at h
    · exact blockRaises_of_exec hp hd h
    · split at h
      · next c hc =>
        have hs := sound_engineRun c s
        rw [h] at hs
        exact blockRaises_of_hash hp (hashKind_eq_some hc ▸ hd) hs
      · exact blockRaises_of_exec hp hd h

theorem EngineResult.eq_fault_of_outcome {r : EngineResult} (h : r.outcome = .fault f) : r = .fault f := by
  cases r with
  | more t => cases h
  | ended t => cases h
  | fault g => cases h; rfl

theorem blockRaises_of_tickCommand (hp : s.phase = .run) (h : s.tickCommand = .fault f) : s.BlockRaises f := by
  unfold State.tickCommand at h
  split at h
  · cases h
  · next i hd =>
    split at h
    · next c hc =>
      have hs := sound_engineTick c s
      rw [EngineResult.eq_fault_of_outcome h] at hs
      exact blockRaises_of_hash hp (hashKind_eq_some hc ▸ hd) hs
    · exact blockRaises_of_exec hp hd h

theorem blockRaises_of_blockStep (h : s.blockStep = .fault f) : s.BlockRaises f := by
  unfold State.blockStep at h
  split at h
  · cases h
  · next hp => exact blockRaises_of_runCommand hp h
  · cases h

theorem blockRaises_of_sequencerStep (h : s.sequencerStep = .fault f) : s.BlockRaises f := by
  unfold State.sequencerStep at h
  split at h
  · cases h
  · next hp => exact blockRaises_of_tickCommand hp h
  · cases h

/-- A lane raises a fault only by a read of TC before the release (R92). -/
theorem blockRaises_of_laneStep {l : Nat} {action : LaneAction} (h : s.laneStep l action = .fault f) :
    s.BlockRaises f := by
  unfold State.laneStep at h
  split at h
  · next hl =>
    cases action with
    | copy t e => cases h
    | arrive => cases h
    | lookup t e =>
      dsimp only at h
      split at h
      · next he =>
        rw [State.hasLane, Bool.and_eq_true] at hl
        cases h
        exact ⟨hl.1, he.2.1⟩
      · cases h
  · cases h

/-! What a step can raise. -/

theorem eventStep_raises {ev : Event} (h : s.eventStep ev = .fault f) :
    (∃ addr n, ev = .hostRead addr n ∧ s.AccessRaises addr n false f) ∨
      (∃ addr data, ev = .hostWrite addr data ∧ s.AccessRaises addr data.length true f) ∨ s.BlockRaises f := by
  cases ev with
  | hostRead addr n => exact .inl ⟨addr, n, rfl, accessRaises_of_busRead h⟩
  | hostWrite addr data => exact .inr (.inl ⟨addr, data, rfl, accessRaises_of_busWrite h⟩)
  | sequencer => exact .inr (.inr (blockRaises_of_sequencerStep h))
  | lane l action => exact .inr (.inr (blockRaises_of_laneStep h))
  | barrier => cases h
  | reset => cases h

/-- Everything a step of a good state can raise: by the access it takes from the queue, or by a move of the block. What
an event may raise does not depend on the queue behind it. -/
theorem step_raises (hs : s.Good) (h : step s = .fault f) :
    (∃ addr n w, s.SeesAccess addr n w ∧ s.AccessRaises addr n w f) ∨ s.BlockRaises f := by
  cases he : s.events with
  | nil =>
    rw [step_of_no_event hs he] at h
    exact .inr (blockRaises_of_blockStep h)
  | cons ev rest =>
    rw [step_of_event hs he] at h
    obtain ⟨addr, n, rfl, hr⟩ | ⟨addr, data, rfl, hr⟩ | hr := eventStep_raises h
    · exact .inl ⟨addr, n, false, .read he, hr⟩
    · exact .inl ⟨addr, data.length, true, .write he, hr⟩
    · exact .inr hr

end

/-- Settles O25: four kinds are raised by accesses alone, two by the block and its lanes alone. -/
theorem faultKindsHaveTheirCauses : Obligations.FaultKindsHaveTheirCauses := by
  intro s f hs h
  have access (hb : ¬ s.BlockRaises f) : ∃ addr n w, s.SeesAccess addr n w ∧ s.AccessRaises addr n w f :=
    (step_raises hs h).resolve_right hb
  have block (ha : ∀ addr n w, ¬ s.AccessRaises addr n w f) : s.BlockRaises f :=
    (step_raises hs h).resolve_left fun ⟨addr, n, w, _, hr⟩ => ha addr n w hr
  refine ⟨?_, ?_, ?_, ?_, ?_, ?_⟩ <;> rintro rfl
  · obtain ⟨addr, n, w, hev, hr⟩ := access id
    exact hev.accesses hr
  · exact block fun _ _ _ => id
  · obtain ⟨addr, n, w, hev, hp, hl, ho⟩ := access id
    exact ⟨hp, hl, hev.accesses ho⟩
  · obtain ⟨addr, n, w, hev, rfl, hp, hl, ho⟩ := access id
    exact ⟨hp, hl, hev.seesWrite, hev.accesses ho⟩
  · exact block fun _ _ _ => id
  · obtain ⟨addr, n, w, hev, hr⟩ := access id
    exact hev.accesses hr

end Sys2Proof.Machine
end

section
/-! PROOFS. Reset, and the end of population with no event pending (70_reset_and_hazards.md R300, R301, R303;
20_memory.md R90, R91, R93). -/

namespace Sys2Proof.Machine

/-! Reset. -/

/-- The event `reset` resets the block, whatever comes after it (R300; log 25). -/
theorem takes_reset {s : State} (hs : s.Good) : s.Takes .reset s.resetBlock := fun rest => step_event hs .reset rest

/-- Only a hash command in flight loses its window to a reset (R301; log 10). -/
theorem resetBlock_mem_of_no_hash {s : State} (h : s.status.busy = false ∨ s.latchedHash = false) :
    s.resetBlock.mem = s.mem := by
  rw [State.resetBlock_mem, State.abandonsHash, if_neg (by simpa [← Bool.and_eq_false_iff] using h)]

theorem read_resetBlock_outside {s : State} (hm : s.mem.wf) {x : Nat} (hx : s.outsideScratch x) :
    s.resetBlock.mem.read x = s.mem.read x := by
  by_contra hne
  obtain ⟨-, -, hin, -⟩ := mayChange_of_reset hm hne
  exact hin hx

/-- Settles O23: a reset is R64's state with memory, FAULT (none in a good state) and the queue kept, and it draws the
window of an abandoned hash command alone. -/
theorem resetAbandonsTheCommand : Obligations.ResetAbandonsTheCommand := by
  refine fun s hs hm => ⟨s.resetBlock, takes_reset hs, ?_, Move.keeps_mem_wf .reset hm, resetBlock_mem_of_no_hash,
    fun x hx => read_resetBlock_outside hm hx⟩
  have hf : s.fault = none := hs
  simp only [State.resetBlock, hf, State.resetOn]

/-! Population. -/

/-- How many lanes have not arrived. -/
def State.lanesMissing (s : State) : Nat := s.tcArrived.count false

theorem State.CacheInv.lanesMissing_le {s : State} (hs : s.CacheInv) : s.lanesMissing ≤ s.platform.groupLanes :=
  hs.lanes ▸ List.count_le_length

/-- Lane `l` has copied its share and arrived (R90). -/
def State.withLaneArrived (s : State) (l : Nat) : State :=
  { s with tc := copySlots (laneShare s.platform l) rom s.tc, tcArrived := s.tcArrived.set l true }

@[simp] theorem State.withLaneArrived_fault (s : State) (l : Nat) : (s.withLaneArrived l).fault = s.fault := by
  simp only [State.withLaneArrived]

@[simp] theorem State.withLaneArrived_events (s : State) (l : Nat) : (s.withLaneArrived l).events = s.events := by
  simp only [State.withLaneArrived]

@[simp] theorem State.withLaneArrived_phase (s : State) (l : Nat) : (s.withLaneArrived l).phase = s.phase := by
  simp only [State.withLaneArrived]

/-- One lane fewer is missing once a missing lane has arrived. -/
theorem lanesMissing_withLaneArrived {s : State} {l : Nat} (hl : l < s.tcArrived.length) (ha : s.arrived l = false) :
    (s.withLaneArrived l).lanesMissing + 1 = s.lanesMissing := by
  rw [State.arrived, List.getD_eq_getElem?_getD, List.getElem?_eq_getElem hl, Option.getD_some] at ha
  have hpos : 0 < s.tcArrived.count false := List.count_pos_iff.mpr (ha ▸ List.getElem_mem hl)
  simp only [State.lanesMissing, State.withLaneArrived, List.count_set hl, ha, BEq.rfl, Bool.true_beq,
    Bool.false_eq_true, reduceIte]
  omega

/-- Population with no event pending: a missing lane does all its work, or none is missing and the barrier releases
(log 18). -/
theorem populate_cases_of_arrived (s : State) :
    (∃ l, l < s.platform.groupLanes ∧ s.arrived l = false ∧ s.populate = s.withLaneArrived l) ∨
      (s.allArrived = true ∧ s.populate = s.release) := by
  rw [State.populate]
  split
  · next l h =>
    have ha := List.find?_some h
    exact .inl ⟨l, List.mem_range.mp (List.mem_of_find?_eq_some h), by simpa using ha, rfl⟩
  · next h => exact .inr ⟨by simpa [State.allArrived, List.find?_eq_none] using h, rfl⟩

theorem step_of_tcfill {s : State} (hs : s.Good) (he : s.events = []) (hp : s.phase = .tcfill) :
    step s = .next s.populate := by
  rw [step_of_no_event hs he, State.blockStep, hp]

/-- One step and a run from where it leads, of any machine. -/
theorem run_succ_of_step {M : Host.Core} {s u : M.State} (h : M.step s = .next u) (n : Nat) :
    M.run (n + 1) s = M.run n u := by
  rw [Host.Core.run, h]

/-- The state with the table cache and PHASE of another, which are all that population writes. -/
def State.withCacheOf (t s : State) : State :=
  { t with tc := s.tc, tcValid := s.tcValid, tcArrived := s.tcArrived, phase := s.phase }

/-- `t` is `s` after population: TC released and equal to the ROM, the hold lifted, nothing else written (R91, R93). -/
def State.PopulatesTo (s t : State) : Prop :=
  t.tcValid = true ∧ t.tc = rom ∧ t.phase = (if s.status.busy then .run else .idle) ∧ t.withCacheOf s = s

theorem populatesTo_release {s : State} (hp : s.phase = .tcfill) (hs : s.CacheInv) (ha : s.allArrived = true) :
    s.PopulatesTo s.release := by
  rw [release_of_enabled hp ha]
  exact ⟨rfl, hs.tc_eq_rom ha, rfl, rfl⟩

theorem withLaneArrived_withCacheOf (s : State) (l : Nat) : (s.withLaneArrived l).withCacheOf s = s := by
  simp only [State.withLaneArrived, State.withCacheOf]

/-- What comes of population does not change when a lane arrives. -/
theorem State.PopulatesTo.of_withLaneArrived {s t : State} {l : Nat} (h : (s.withLaneArrived l).PopulatesTo t) :
    s.PopulatesTo t := by
  obtain ⟨hv, htc, hp, hf⟩ := h
  have hf' : t.withCacheOf s = (s.withLaneArrived l).withCacheOf s := congrArg (fun u => u.withCacheOf s) hf
  exact ⟨hv, htc, hp, hf'.trans (withLaneArrived_withCacheOf s l)⟩

theorem cacheInv_withLaneArrived {s : State} {l : Nat} (hc : s.CacheInv) (hp : s.phase = .tcfill)
    (hl : l < s.platform.groupLanes) (ha : s.arrived l = false) : (s.withLaneArrived l).CacheInv := by
  unfold State.withLaneArrived
  exact Move.keeps_cacheInv (.copyShare hp hl ha) hc

/-- Population takes at most one step per missing lane and one for the release (R303). -/
theorem population_run {s : State} (hs : s.Good) (he : s.events = []) (hp : s.phase = .tcfill) (hc : s.CacheInv) :
    ∃ n t, n ≤ s.lanesMissing + 1 ∧ Sys2Proof.core.run n s = .next t ∧ s.PopulatesTo t := by
  have hstep := step_of_tcfill hs he hp
  obtain ⟨l, hl, ha, h⟩ | ⟨ha, h⟩ := populate_cases_of_arrived s <;> rw [h] at hstep
  · have hfewer := lanesMissing_withLaneArrived (hc.lanes ▸ hl) ha
    obtain ⟨n, t, hn, ht, hpop⟩ :=
      population_run ((s.withLaneArrived_fault l).trans hs) ((s.withLaneArrived_events l).trans he)
        ((s.withLaneArrived_phase l).trans hp) (cacheInv_withLaneArrived hc hp hl ha)
    exact ⟨n + 1, t, by omega, (run_succ_of_step (M := Sys2Proof.core) hstep n).trans ht, hpop.of_withLaneArrived⟩
  · exact ⟨1, s.release, by omega, run_succ_of_step (M := Sys2Proof.core) hstep 0, populatesTo_release hp hc ha⟩
termination_by s.lanesMissing

/-- Settles O29: each step of population leaves one lane fewer, and no more lanes can be missing than there are. -/
theorem populationEnds : Obligations.PopulationEnds := by
  intro s hs he hp hc
  obtain ⟨n, t, hn, ht, hv, htc, hph, hf⟩ := population_run hs he hp hc
  have := hc.lanesMissing_le
  exact ⟨n, t, by omega, ht, hv, htc, hph, hf⟩

end Sys2Proof.Machine
end
